-- ==== Sys2Proof/Word.lean ====
section
/-!
DEFINITION. The word types of the codec core: the byte of every buffer and stream field
(20_memory.md R50), the 32-bit host register and counter (00_scope.md R6, REG_WIDTH) and the
3-bit operation code (10_state.md R22).
-/

namespace Sys2Proof

/-- The unit of every buffer, an unsigned 8-bit value (R50). -/
abbrev Byte := BitVec 8

/-- A host register (R21, REG_WIDTH = 32) or an engine counter (R31, R32). -/
abbrev Word := BitVec 32

/-- The field CMD.OP (R22) and the operation register op (R33). -/
abbrev Op := BitVec 3

/-- CMD.OP of RLE_COMPRESS (R71). -/
abbrev opRleCompress : Op := 1#3

/-- CMD.OP of RLE_DECOMPRESS (R71). -/
abbrev opRleDecompress : Op := 2#3

/-- CMD.OP of WIN_COMPRESS (R71). -/
abbrev opWinCompress : Op := 3#3

/-- CMD.OP of WIN_DECOMPRESS (R71). -/
abbrev opWinDecompress : Op := 4#3

end Sys2Proof
end

