-- ==== Sys2Proof/Syntax.lean ====
section
/-!
DEFINITION. The instructions of spec/opcode_table.json: the host commands (30_encoding.md R71), the
RLE tokens and fragments (R73, R75) and the Window tokens and fragments (R76, R77, R81). Rows that
share a mnemonic (CMD_RESERVED, WIN_ILLEGAL_TAG) are one constructor whose operand is the field
value the rows differ in (log entry 1).
-/

namespace Sys2Proof

/-- One constructor per instruction of the opcode table. Operands stand in stream order. -/
inductive Instr where
  /-- RLE_COMPRESS, CMD.OP = 1 (R102). -/
  | rleCompress
  /-- RLE_DECOMPRESS, CMD.OP = 2 (R105). -/
  | rleDecompress
  /-- WIN_COMPRESS, CMD.OP = 3 (R129). -/
  | winCompress
  /-- WIN_DECOMPRESS, CMD.OP = 4 (R160). -/
  | winDecompress
  /-- CMD_RESERVED, CMD.OP in 0, 5, 6, 7 (R185). -/
  | cmdReserved (op : Op)
  /-- RUN count, value (R107). -/
  | run (count value : Byte)
  /-- RLE_ZERO_COUNT: a token with count byte 0 (R108). -/
  | rleZeroCount (value : Byte)
  /-- RLE_TRAILING_BYTE: the unpaired last byte of an odd stream (R106). -/
  | rleTrailingByte (last : Byte)
  /-- LIT byte (R152). -/
  | lit (value : Byte)
  /-- MATCH offset, length (R156). -/
  | matchTok (offset length : Byte)
  /-- WIN_ILLEGAL_TAG: a tag byte in 0x02..=0xFF (R158). -/
  | winIllegalTag (tag : Byte)
  /-- WIN_LIT_TRUNCATED: tag 0x00 as the last byte (R159). -/
  | winLitTruncated
  /-- WIN_MATCH_TRUNCATED: tag 0x01 with no byte or one byte after it (R159). -/
  | winMatchTruncated (offset : Option Byte)
deriving DecidableEq, Repr

end Sys2Proof
end

