-- ==== Sys2Proof/WellFormed.lean ====
section
/-!
DEFINITION. Which instruction terms an encoding of 30_encoding.md stands for: the field ranges of R71,
R75, R80 and R81.
-/

namespace Sys2Proof

/-- The operations a start may name (10_state.md R22). -/
def Op.legal (op : Op) : Bool :=
  op == opRleCompress || op == opRleDecompress || op == opWinCompress || op == opWinDecompress

/-- A well-formed instruction: a reserved command holds a reserved OP (R71), a RUN a nonzero count
(R75 (b)), an illegal tag is neither 0x00 nor 0x01 (R81 (a)). Every other operand takes every value
of its field; MATCH takes every offset and length (R84). -/
def Instr.wf : Instr → Bool
  | .rleCompress => true
  | .rleDecompress => true
  | .winCompress => true
  | .winDecompress => true
  | .cmdReserved op => !op.legal
  | .run count _ => count != 0
  | .rleZeroCount _ => true
  | .rleTrailingByte _ => true
  | .lit _ => true
  | .matchTok _ _ => true
  | .winIllegalTag tag => tag != 0 && tag != 1
  | .winLitTruncated => true
  | .winMatchTruncated _ => true

end Sys2Proof
end

