-- ==== Sys2Proof/Decode.lean ====
section
/-!
DEFINITION. Decoding and encoding of the three encodings of 30_encoding.md: the command word (R71),
the RLE stream (R73 to R75) and the Window stream (R76 to R81), and the numbering of
spec/opcode_table.json. A stream is a list of its remaining bytes in index order (R52); a decoder
answers the instruction at its head and the bytes after it.
-/

namespace Sys2Proof

/-- Why a decoder answers no instruction. -/
inductive DecodeReject where
  /-- The stream has no byte left: there is no token to read (R74, R78). -/
  | endOfStream
deriving DecidableEq, Repr

/-- An encoded instruction in the encoding it belongs to (R70). -/
inductive Encoding where
  /-- A word written to CMD (R71). -/
  | command (word : Word)
  /-- Bytes of an RLE stream (R74). -/
  | rle (bytes : List Byte)
  /-- Bytes of a Window stream (R78). -/
  | window (bytes : List Byte)
deriving DecidableEq, Repr

/-- CMD bits 2:0; bits 31:3 are ignored (R71, R22). -/
def opField (word : Word) : Op := word.setWidth 3

/-- The command word's decode table (R71). -/
def decodeCommand (word : Word) : Instr :=
  if opField word = opRleCompress then .rleCompress
  else if opField word = opRleDecompress then .rleDecompress
  else if opField word = opWinCompress then .winCompress
  else if opField word = opWinDecompress then .winDecompress
  else .cmdReserved (opField word)

/-- The RLE stream's decode: count then value (R73), a zero count (R75 (b)), a byte with no partner
(R75 (a)). -/
def decodeRle : List Byte → Except DecodeReject (Instr × List Byte)
  | [] => .error .endOfStream
  | [last] => .ok (.rleTrailingByte last, [])
  | count :: value :: rest =>
    if count = 0 then .ok (.rleZeroCount value, rest) else .ok (.run count value, rest)

/-- The Window stream's decode: the tag alone selects the token (R78, R83); the truncation test comes
before any descriptor byte is used (R151), and a bad tag before the truncation test (R158). -/
def decodeWindow : List Byte → Except DecodeReject (Instr × List Byte)
  | [] => .error .endOfStream
  | tag :: rest =>
    if tag = 0 then
      match rest with
      | [] => .ok (.winLitTruncated, [])
      | value :: rest => .ok (.lit value, rest)
    else if tag = 1 then
      match rest with
      | [] => .ok (.winMatchTruncated none, [])
      | [offset] => .ok (.winMatchTruncated (some offset), [])
      | offset :: length :: rest => .ok (.matchTok offset length, rest)
    else .ok (.winIllegalTag tag, rest)

/-- The instruction at the head of an encoding. -/
def decode : Encoding → Except DecodeReject Instr
  | .command word => .ok (decodeCommand word)
  | .rle bytes => (decodeRle bytes).map Prod.fst
  | .window bytes => (decodeWindow bytes).map Prod.fst

/-- The encoder: the patterns of R71, R73, R76, R77, R81 and R159. -/
def encode : Instr → Encoding
  | .rleCompress => .command 1
  | .rleDecompress => .command 2
  | .winCompress => .command 3
  | .winDecompress => .command 4
  | .cmdReserved op => .command (op.setWidth 32)
  | .run count value => .rle [count, value]
  | .rleZeroCount value => .rle [0, value]
  | .rleTrailingByte last => .rle [last]
  | .lit value => .window [0, value]
  | .matchTok offset length => .window [1, offset, length]
  | .winIllegalTag tag => .window [tag]
  | .winLitTruncated => .window [0]
  | .winMatchTruncated none => .window [1]
  | .winMatchTruncated (some offset) => .window [1, offset]

/-- The bytes an encoding takes in its stream; a command takes none, it is a register word. -/
def Encoding.streamBytes : Encoding → List Byte
  | .command _ => []
  | .rle bytes => bytes
  | .window bytes => bytes

/-- The byte of `w` whose lowest bit is bit `lo`. -/
def byteAt (w lo : Nat) : Byte := BitVec.ofNat 8 (w >>> lo)

/-- Which encoding a word of spec/opcode_table.json belongs to. The table's rows of the three
encodings overlap as numbers, so this is a choice (DESIGN CHOICE, safe, log entry 16): up to one byte, 1..7
is a command word and any other value is a Window tag followed by descriptor bytes of zero; two bytes
are an RLE token as the table numbers it, count in bits 15:8; three bytes are a Window token, tag in
bits 7:0. -/
def tableEncoding (nbits w : Nat) : Option Encoding :=
  if nbits = 0 ∨ 24 < nbits then none
  else if nbits ≤ 8 then
    if 1 ≤ w ∧ w ≤ 7 then some (.command (BitVec.ofNat 32 w))
    else some (.window [byteAt w 0, 0, 0])
  else if nbits ≤ 16 then some (.rle [byteAt w 8, byteAt w 0])
  else some (.window [byteAt w 0, byteAt w 8, byteAt w 16])

/-- The instruction this decoder reads from a word of the opcode table. -/
def decodeTableWord (nbits w : Nat) : Option Instr :=
  (tableEncoding nbits w).bind fun e =>
    match decode e with
    | .ok i => some i
    | .error _ => none

end Sys2Proof
end

