-- ==== Sys2Proof/Config.lean ====
section
/-!
DEFINITION. What one part of this hardware fixes: the implementation parameters of 00_scope.md R6
with the constraints of R7, and the free values that stand for everything the spec leaves
unspecified (93_implementation_defined.md, treatment "any value").
-/

namespace Sys2Proof

/-- The parameters of 00_scope.md R6, one field each. They are natural numbers (R9) held to R7 by
`Config.Valid`. -/
structure Config where
  /-- WINDOW_SIZE, the bytes the encoder's finder looks back over. -/
  windowSize : Nat
  /-- MAX_OFFSET, the largest offset the encoder emits; R7 (b) makes it WINDOW_SIZE. -/
  maxOffset : Nat
  /-- MIN_MATCH_LENGTH, the shortest match the encoder emits. -/
  minMatch : Nat
  /-- MAX_MATCH_LENGTH, the longest match the encoder emits. -/
  maxMatch : Nat
  /-- RLE_MAX_COUNT, the largest count of one RLE token. -/
  rleMax : Nat
  /-- HIST_DEPTH, the cells of the circular window buffer. -/
  histDepth : Nat
  /-- IN_CAP, the bytes of the input buffer (OPEN in the spec). -/
  inCap : Nat
  /-- OUT_CAP, the bytes of the output buffer (OPEN in the spec). -/
  outCap : Nat
  /-- REG_WIDTH, the bits of a host register; R21 makes it the width of `Word`. -/
  regWidth : Nat
  /-- PLATFORM_BASE, where a platform places the spaces (OPEN; R58: no rule depends on it). -/
  platformBase : Nat
deriving DecidableEq, Repr

/-- The constraints of 00_scope.md R7, (a) to (g) in order, and the register width of 10_state.md R21:
the spec describes 32-bit registers alone, so another REG_WIDTH is refused too (DEDUCED, safe, log
entry 25). -/
abbrev Config.Valid (c : Config) : Prop :=
  (1 ≤ c.windowSize ∧ c.windowSize ≤ 255) ∧
  c.maxOffset = c.windowSize ∧
  (1 ≤ c.minMatch ∧ c.minMatch ≤ c.maxMatch ∧ c.maxMatch ≤ 255) ∧
  c.rleMax = 255 ∧
  255 ≤ c.histDepth ∧
  c.inCap ≤ 2 ^ 32 - 1 ∧
  c.outCap ≤ 2 ^ 32 - 1 ∧
  2 * c.inCap ≤ c.outCap ∧
  c.regWidth = 32

/-- The source's values (R6). IN_CAP, OUT_CAP and PLATFORM_BASE are OPEN in the spec: DESIGN CHOICE,
unsafe, log entry 3: the largest capacities that R7 (f) and (g) allow, and base 0. -/
def Config.standard : Config where
  windowSize := 20
  maxOffset := 20
  minMatch := 3
  maxMatch := 255
  rleMax := 255
  histDepth := 256
  inCap := 2 ^ 31 - 1
  outCap := 2 ^ 32 - 1
  regWidth := 32
  platformBase := 0

/-- The three byte-addressed spaces of 20_memory.md R51. -/
inductive Space where
  | input
  | output
  | history
deriving DecidableEq, Repr

/-- FREE VALUE (log entry 4). The byte at `index` of `space` while nothing has been written there
since event number `epoch` left the space unspecified (R38, R39, R43, R204). -/
opaque Config.freeByte (space : Space) (epoch index : Nat) : Byte

/-- FREE VALUE (log entry 5). The unspecified value of OUT_LEN (R25) after event number `epoch`, seen
with the input cursor at `cursor`. -/
opaque Config.freeOutLen (epoch : Nat) (cursor : Word) : Word

end Sys2Proof
end

