-- ==== Sys2Proof/Machine/State.lean ====
section
/-!
DEFINITION. The machine's state (10_state.md), as plain data, its reset value (R43), the fault causes
(60_exceptions.md R201), the host's accesses (43_host_commands.md R188) and the reasons a step can
stop.
-/

namespace Sys2Proof.Machine

/-- The cause codes of 60_exceptions.md R201 that are ever reported. -/
inductive Cause where
  | rleOddLength
  | rleZeroCount
  | winTruncated
  | winBadTag
  | winBadOffset
  | winZeroOffset
  | outCapacity
  | badLength
  | badCommand
deriving DecidableEq, Repr

/-- The engine phase of 10_state.md R30. The fault record is the cause that DONE_FAULT carries, so the
combinations R23 rules out cannot be written. -/
inductive Phase where
  | idle
  | busy
  | doneOk
  | doneFault (cause : Cause)
deriving DecidableEq, Repr

/-- One access of the host (R8, R188): what it may do to the core, in the order it does it. -/
inductive HostOp where
  /-- Read the register at a byte offset of REG (R21). -/
  | readReg (offset : Word)
  /-- Write the register at a byte offset of REG (R21). -/
  | writeReg (offset value : Word)
  /-- Read a byte of IN (R51). -/
  | readIn (index : Nat)
  /-- Write a byte of IN (R51). -/
  | writeIn (index : Nat) (value : Byte)
  /-- Read a byte of OUT (R51). -/
  | readOut (index : Nat)
  /-- Write a byte of OUT (R51). -/
  | writeOut (index : Nat) (value : Byte)
  /-- The reset signal (R230). -/
  | reset
  /-- The host does nothing while the engine moves. -/
  | wait
  /-- Read STATUS until DONE = 1 (R184; POLL of D21). -/
  | poll
deriving DecidableEq, Repr

/-- Why the machine stops with a fault. The faults the spec describes (R201) are NOT here: they are
next states. Raised by the host's buffer accesses only; safe (the run ends where the spec gives no
byte). -/
inductive Fault where
  /-- A host read or write of IN at an index >= IN_CAP, which does not exist (R51). Raised by
  `HostOp.readIn` and `HostOp.writeIn`. Safe. -/
  | noSuchInByte
  /-- A host read or write of OUT at an index >= OUT_CAP, which does not exist (R51). Raised by
  `HostOp.readOut` and `HostOp.writeOut`. Safe. -/
  | noSuchOutByte
deriving DecidableEq, Repr

/-- Why the model gives a step no meaning. -/
inductive Refusal where
  /-- An instruction that has no meaning in this model yet. Raised by exec's refused arms. Safe. -/
  | notModelled (mnemonic : String)
  /-- A configuration that breaks 00_scope.md R7, which a model refuses, or whose registers are not of
  the 32 bits of R21 (log entry 25). Raised by every step. Safe. -/
  | badConfiguration
  /-- The host writes CMD while BUSY = 1, a duty violation a model refuses (R187). Raised by
  `HostOp.writeReg`, and by a command's meaning met while another operation runs. Safe. -/
  | cmdWriteWhileBusy
  /-- The host writes IN_LEN while BUSY = 1 (R187). Raised by `HostOp.writeReg`. Safe. -/
  | inLenWriteWhileBusy
  /-- The host writes a byte of IN while BUSY = 1 (R187). Raised by `HostOp.writeIn`. Safe. -/
  | inWriteWhileBusy
  /-- The host reads or writes a byte of OUT while BUSY = 1 (R187). Raised by `HostOp.readOut` and
  `HostOp.writeOut`. Safe. -/
  | outAccessWhileBusy
deriving DecidableEq, Repr

/-- One byte-addressed space: the bytes that hold a known value, by rising index, and the number of the
event that last left the whole space unspecified. A byte not listed holds NO known value; what it
reads as is `unlisted` in Machine/Ops.lean. -/
structure Memory where
  cells : List Host.Cell
  epoch : Nat
deriving DecidableEq, Repr

/-- The canonical form: indices strictly rise. An unlisted index has no known value, so no entry can
equal what an unlisted index reads as, and equal memories are equal data. -/
abbrev Memory.Wf (mem : Memory) : Prop :=
  mem.cells.Pairwise fun a b => a.1 < b.1

/-- Everything the spec gives the machine, and three fields of the model's own (`draw`, `hostQueue`,
`reply`). STATUS, CONFIG, IN_CAP_R and OUT_CAP_R are views computed from `phase` and `cfg`. -/
structure State where
  /-- The parameters of the part (R6); no step changes them. -/
  cfg : Config
  /-- The engine phase and fault record (R30). -/
  phase : Phase
  /-- CMD.OP as last written (R22). -/
  cmd : Op
  /-- IN_LEN (R24). -/
  inLen : Word
  /-- OUT_LEN (R25); while BUSY a read does not see it (`regRead`). -/
  outLen : Word
  /-- ERR_POS (R26). -/
  errPos : Word
  /-- The input cursor p, which plays the program counter's role (R31). -/
  p : Word
  /-- The output count m (R32). -/
  m : Word
  /-- n, the value of IN_LEN latched at start (R24, R181). -/
  n : Word
  /-- The operation register op (R33). -/
  op : Op
  /-- run_val (R34). -/
  runVal : Byte
  /-- run_len (R34). -/
  runLen : Word
  /-- cand_off (R36). -/
  candOff : Byte
  /-- cand_len (R36). -/
  candLen : Byte
  /-- best_off (R36). -/
  bestOff : Byte
  /-- best_len (R36). -/
  bestLen : Byte
  /-- copy_off (R37). -/
  copyOff : Byte
  /-- copy_rem (R37). -/
  copyRem : Byte
  /-- The circular window buffer HIST (R35). -/
  hist : Memory
  /-- The input buffer IN (R38). -/
  inBuf : Memory
  /-- The output buffer OUT (R39). -/
  outBuf : Memory
  /-- MODEL'S OWN: numbers the events that leave a value unspecified (log entry 4). -/
  draw : Nat
  /-- MODEL'S OWN: the host's accesses that the core has not yet taken (log entry 2). -/
  hostQueue : List HostOp
  /-- MODEL'S OWN: the word the host's last read returned (log entry 12). -/
  reply : Option Word
deriving DecidableEq, Repr

/-- The state right after reset of a part with parameters `cfg` (R43, R230). The internal registers
p to copyRem are unspecified there: DESIGN CHOICE 0, unsafe, log entry 6. -/
def State.resetOf (cfg : Config) : State where
  cfg := cfg
  phase := .idle
  cmd := 0
  inLen := 0
  outLen := 0
  errPos := 0
  p := 0
  m := 0
  n := 0
  op := 0
  runVal := 0
  runLen := 0
  candOff := 0
  candLen := 0
  bestOff := 0
  bestLen := 0
  copyOff := 0
  copyRem := 0
  hist := ⟨[], 0⟩
  inBuf := ⟨[], 0⟩
  outBuf := ⟨[], 0⟩
  draw := 0
  hostQueue := []
  reply := none

/-- The state right after reset of the part with the source's parameters (R43). -/
def State.reset : State := State.resetOf Config.standard

end Sys2Proof.Machine
end

