-- ==== Sys2Proof/Machine/Flags.lean ====
section
/-!
DEFINITION. The flags: the cause codes (60_exceptions.md R201) and the STATUS word as a function of the
phase (10_state.md R23, R30). The core has no other flag (R40), and no token writes one.
-/

namespace Sys2Proof.Machine

/-- The code of a cause in STATUS.CAUSE (R201). -/
def causeCode : Cause → Nat
  | .rleOddLength => 1
  | .rleZeroCount => 2
  | .winTruncated => 3
  | .winBadTag => 4
  | .winBadOffset => 5
  | .winZeroOffset => 6
  | .outCapacity => 12
  | .badLength => 13
  | .badCommand => 14

/-- STATUS.MALFORMED: the causes that are the source's MalformedInput, codes 1 to 6 (R201). -/
def causeMalformed (c : Cause) : Bool := decide (1 ≤ causeCode c ∧ causeCode c ≤ 6)

/-- STATUS.BUSY, bit 0 (R23). -/
def busyFlag : Phase → Bool
  | .busy => true
  | .idle => false
  | .doneOk => false
  | .doneFault _ => false

/-- STATUS.DONE, bit 1 (R23). -/
def doneFlag : Phase → Bool
  | .doneOk => true
  | .doneFault _ => true
  | .idle => false
  | .busy => false

/-- STATUS.ERR, bit 2 (R23). -/
def errFlag : Phase → Bool
  | .doneFault _ => true
  | .idle => false
  | .busy => false
  | .doneOk => false

/-- STATUS.MALFORMED, bit 3 (R23). -/
def malformedFlag : Phase → Bool
  | .doneFault c => causeMalformed c
  | .idle => false
  | .busy => false
  | .doneOk => false

/-- STATUS.CAUSE, bits 11:8; 0 when ERR = 0 (R23). -/
def causeField : Phase → Nat
  | .doneFault c => causeCode c
  | .idle => 0
  | .busy => 0
  | .doneOk => 0

/-- A flag at a bit position of a register word. -/
def flagBit (flag : Bool) (position : Nat) : Nat := if flag then 2 ^ position else 0

/-- The STATUS word of a phase (R23, R30). Bits 7:4 and 31:12 read 0. -/
def phaseWord (ph : Phase) : Word :=
  BitVec.ofNat 32 (flagBit (busyFlag ph) 0 + flagBit (doneFlag ph) 1 + flagBit (errFlag ph) 2 +
    flagBit (malformedFlag ph) 3 + causeField ph * 2 ^ 8)

/-- STATUS as the host reads it (R23). -/
def State.statusWord (s : State) : Word := phaseWord s.phase

end Sys2Proof.Machine
end

