-- ==== Sys2Proof/Machine/Ops.lean ====
section
/-!
DEFINITION. The named operations over memory and registers: the bytes of IN, OUT and HIST, the register
map of REG (10_state.md R21 to R29), emit (00_scope.md R10), raising a fault (60_exceptions.md R204),
start and its faults (43_host_commands.md R181, R185, R186), completion (R182) and reset (R230).
-/

namespace Sys2Proof.Machine

/-! ## Byte-addressed spaces -/

/-- The known byte at an index of a cell list, if the list holds one. -/
def cellLookup : List Host.Cell → Nat → Option Byte
  | [], _ => none
  | (j, v) :: rest, i => if j = i then some v else cellLookup rest i

/-- Set the byte at an index, keeping indices strictly rising. -/
def cellInsert : List Host.Cell → Nat → Byte → List Host.Cell
  | [], i, b => [(i, b)]
  | (j, v) :: rest, i, b =>
    if i < j then (i, b) :: (j, v) :: rest
    else if i = j then (i, b) :: rest
    else (j, v) :: cellInsert rest i b

/-- The known byte at an index of a space, if there is one. -/
def Memory.find? (mem : Memory) (i : Nat) : Option Byte := cellLookup mem.cells i

/-- Write one byte of a space (R55). -/
def Memory.write (mem : Memory) (i : Nat) (b : Byte) : Memory :=
  { mem with cells := cellInsert mem.cells i b }

/-- The whole space becomes unspecified, at event number `epoch`. -/
def Memory.forget (_mem : Memory) (epoch : Nat) : Memory := ⟨[], epoch⟩

/-- The space becomes unspecified from index `k` on, at event number `epoch` (R39). -/
def Memory.keepBelow (mem : Memory) (k epoch : Nat) : Memory :=
  ⟨mem.cells.filter fun c => c.1 < k, epoch⟩

/-- What an index that is not listed reads as: the free value of its space, event and index
(log entry 4). The ONE definition of it. -/
def unlisted (space : Space) (mem : Memory) (i : Nat) : Byte := Config.freeByte space mem.epoch i

/-- Read one byte of a space (R55, R56). -/
def Memory.read (space : Space) (mem : Memory) (i : Nat) : Byte :=
  (mem.find? i).getD (unlisted space mem i)

/-- IN[i] (R10, R38). -/
def State.inByte (s : State) (i : Nat) : Byte := s.inBuf.read .input i

/-- OUT[i] (R10, R39). -/
def State.outByte (s : State) (i : Nat) : Byte := s.outBuf.read .output i

/-- HIST[i] (R35). -/
def State.histByte (s : State) (i : Nat) : Byte := s.hist.read .history i

/-- HIST[i mod HIST_DEPTH] <- b (R10, R35). -/
def histWrite (s : State) (i : Nat) (b : Byte) : State :=
  { s with hist := s.hist.write (i % s.cfg.histDepth) b }

/-! ## The register map -/

/-- Offset of CMD (R21). -/
abbrev cmdOffset : Word := 0x00
/-- Offset of STATUS (R21). -/
abbrev statusOffset : Word := 0x04
/-- Offset of IN_LEN (R21). -/
abbrev inLenOffset : Word := 0x08
/-- Offset of OUT_LEN (R21). -/
abbrev outLenOffset : Word := 0x0C
/-- Offset of ERR_POS (R21). -/
abbrev errPosOffset : Word := 0x10
/-- Offset of CONFIG (R21). -/
abbrev configOffset : Word := 0x14
/-- Offset of IN_CAP_R (R21). -/
abbrev inCapOffset : Word := 0x18
/-- Offset of OUT_CAP_R (R21). -/
abbrev outCapOffset : Word := 0x1C

/-- CONFIG: WINDOW_SIZE in bits 7:0, MIN_MATCH_LENGTH in 15:8, MAX_MATCH_LENGTH in 23:16,
RLE_MAX_COUNT in 31:24 (R27). -/
def configWord (c : Config) : Word :=
  BitVec.ofNat 32 (c.windowSize + c.minMatch * 2 ^ 8 + c.maxMatch * 2 ^ 16 + c.rleMax * 2 ^ 24)

/-- OUT_LEN as the host reads it: unspecified while BUSY (R25, R235), so a free value of the operation
and of how far it has come (log entry 5). -/
def outLenView (s : State) : Word :=
  if s.phase = .busy then Config.freeOutLen s.draw s.p else s.outLen

/-- What a host read of REG returns (R21 to R29); an offset that is not listed reads 0 (R29, R54). -/
def regRead (s : State) (offset : Word) : Word :=
  if offset = cmdOffset then s.cmd.setWidth 32
  else if offset = statusOffset then s.statusWord
  else if offset = inLenOffset then s.inLen
  else if offset = outLenOffset then outLenView s
  else if offset = errPosOffset then s.errPos
  else if offset = configOffset then configWord s.cfg
  else if offset = inCapOffset then BitVec.ofNat 32 s.cfg.inCap
  else if offset = outCapOffset then BitVec.ofNat 32 s.cfg.outCap
  else 0

/-- Byte `k` of a register word on a platform that exposes REG by byte addresses: little-endian
(R53). -/
def regByte (s : State) (offset : Word) (k : Nat) : Byte :=
  (regRead s offset >>> (8 * k)).setWidth 8

/-- The bytes of a register in address order, REG_WIDTH / 8 of them (R53, R6). -/
def regBytes (s : State) (offset : Word) : List Byte :=
  (List.range (s.cfg.regWidth / 8)).map (regByte s offset)

/-! ## Faults -/

/-- TAKING A FAULT: `raise c(pos)` of a running algorithm (R204). The phase becomes DONE_FAULT with the
cause, ERR_POS the position; OUT and OUT_LEN become unspecified (log entries 4 and 5). No other state
is saved. There is no return from it: the host's next start (`start`) clears the record (R206). -/
def raise (s : State) (c : Cause) (pos : Word) : State :=
  { s with
    phase := .doneFault c
    errPos := pos
    outLen := Config.freeOutLen (s.draw + 1) s.p
    outBuf := s.outBuf.forget (s.draw + 1)
    draw := s.draw + 1 }

/-- A start fault (R185, R186): DONE_FAULT at once, ERR_POS 0; OUT and OUT_LEN keep their values. -/
def failStart (s : State) (c : Cause) : State :=
  { s with phase := .doneFault c, errPos := 0 }

/-! ## Start, completion, reset -/

/-- A legal command's start, the steps of R181 after OP has been found legal. -/
def start (s : State) (op : Op) : State :=
  if s.cfg.inCap < s.inLen.toNat then failStart { s with cmd := op } .badLength
  else
    { s with
      cmd := op
      op := op
      n := s.inLen
      errPos := 0
      phase := .busy
      p := 0
      m := 0
      draw := s.draw + 1 }

/-- A reserved command's start (R181, R185). -/
def rejectCommand (s : State) (op : Op) : State := failStart { s with cmd := op } .badCommand

/-- `complete Ok` (R182): OUT_LEN <- m and DONE_OK; OUT[j] for j >= m becomes unspecified (R39). -/
def complete (s : State) : State :=
  { s with
    outLen := s.m
    phase := .doneOk
    outBuf := s.outBuf.keepBelow s.m.toNat (s.draw + 1)
    draw := s.draw + 1 }

/-- The reset signal (R230, R231): every register at its reset value; IN, OUT and HIST unspecified. The
host's own side (`hostQueue`, `reply`) is no part of the core and stays. -/
def hardReset (s : State) : State :=
  { State.resetOf s.cfg with
    hist := s.hist.forget (s.draw + 1)
    inBuf := s.inBuf.forget (s.draw + 1)
    outBuf := s.outBuf.forget (s.draw + 1)
    draw := s.draw + 1
    hostQueue := s.hostQueue
    reply := s.reply }

/-- The cursor moves: p <- p + k, the only way it moves (R10). -/
def advance (s : State) (k : Word) : State := { s with p := s.p + k }

/-! ## emit -/

/-- A running algorithm's state, or the state after a raise ended it (nothing after a raise
executes, R10). -/
abbrev Run := Except State State

/-- The byte that fits is stored: OUT[m] <- v, HIST[m mod HIST_DEPTH] <- v, m <- m + 1 (R10). In
WIN_COMPRESS HIST holds the consumed input (R35, R131), so emit leaves it alone there (DEDUCED, safe,
log entry 9). -/
def appendByte (s : State) (v : Byte) : State :=
  { s with
    outBuf := s.outBuf.write s.m.toNat v
    hist := if s.op = opWinCompress then s.hist
      else s.hist.write (s.m.toNat % s.cfg.histDepth) v
    m := s.m + 1 }

/-- `emit(v)` (R10): OutputCapacity(p) when m >= OUT_CAP, else the byte is stored. -/
def emit (s : State) (v : Byte) : Run :=
  if s.cfg.outCap ≤ s.m.toNat then .error (raise s .outCapacity s.p)
  else .ok (appendByte s v)

/-- `emit` of each byte of a list, in order. -/
def emitAll (s : State) : List Byte → Run
  | [] => .ok s
  | v :: rest => (emit s v).bind fun t => emitAll t rest

/-- Both ends of a running algorithm are next states: a raise is a fault the spec describes. -/
def settle : Run → Host.Outcome State Fault Refusal
  | .ok s => .next s
  | .error s => .next s

end Sys2Proof.Machine
end

