-- ==== Sys2Proof/Machine/Operands.lean ====
section
/-!
DEFINITION. Operands: the stream bytes a decoder reads at the cursor (30_encoding.md R78, R79) and the
one-byte fields as numbers. Every field is one byte, zero-extended, with no bias or scaling (R79).
-/

namespace Sys2Proof.Machine

/-- zext_8 of a stream field into a counter register (R79). -/
def zext (b : Byte) : Word := b.setWidth 32

/-- The stream's bytes from index `i` on, at most `k` of them, never at or past n (R38, R151). -/
def streamFrom (s : State) (i : Nat) : Nat → List Byte
  | 0 => []
  | k + 1 => if i < s.n.toNat then s.inByte i :: streamFrom s (i + 1) k else []

/-- The bytes a decoder may read at the cursor: the longest token takes three (R78). -/
def streamAtCursor (s : State) : List Byte := streamFrom s s.p.toNat 3

/-- The index of an odd stream's unpaired last byte, n - 1 (R106). -/
def lastIndex (s : State) : Word := s.n - 1

/-- What a running operation executes next: the RLE decoder first tests the whole stream's length
(R106), then both decoders read the token at p while p < n (R105, R160); the encoders, and a decoder
at its end, execute the command itself. -/
def engineFetch (s : State) : Instr :=
  if s.op = opRleCompress then .rleCompress
  else if s.op = opWinCompress then .winCompress
  else if s.op = opRleDecompress then
    if s.n.toNat % 2 = 1 then .rleTrailingByte (s.inByte (s.n.toNat - 1))
    else
      match decodeRle (streamAtCursor s) with
      | .ok (i, _) => i
      | .error .endOfStream => .rleDecompress
  else if s.op = opWinDecompress then
    match decodeWindow (streamAtCursor s) with
    | .ok (i, _) => i
    | .error .endOfStream => .winDecompress
  else .cmdReserved s.op

end Sys2Proof.Machine
end

