-- ==== Sys2Proof/Machine/HostCommands.lean ====
section
/-!
DEFINITION. The host's side (43_host_commands.md): the reserved command's meaning, what each host access
does (R51, R184, R187), and which instruction, if any, the machine executes next.
-/

namespace Sys2Proof.Machine

/-- CMD_RESERVED (R185): BAD_COMMAND at once. While an operation runs it is a CMD write the host must
not make (R187). -/
def execCmdReserved (op : Op) (s : State) : Host.Outcome State Fault Refusal :=
  if s.phase = .busy then .refused .cmdWriteWhileBusy else .next (rejectCommand s op)

/-- What the machine does next: execute an instruction from a state, or an access that executes none. -/
inductive Action where
  | run (i : Instr) (s : State)
  | done (o : Host.Outcome State Fault Refusal)

/-- The engine's move: the running operation's next instruction; with no operation running the engine
waits for a CMD write (R230). -/
def engineAction (s : State) : Action :=
  if s.phase = .busy then .run (engineFetch s) s else .done (.next s)

/-- The host receives a word. -/
def answer (s : State) (w : Word) : State := { s with reply := some w }

/-- A host write of REG: CMD starts an operation (R181), IN_LEN is stored (R24), any other register or
offset ignores the write (R29). CMD and IN_LEN must not be written while BUSY (R187). -/
def hostWriteReg (s : State) (offset value : Word) : Action :=
  if offset = cmdOffset then
    if s.phase = .busy then .done (.refused .cmdWriteWhileBusy) else .run (decodeCommand value) s
  else if offset = inLenOffset then
    if s.phase = .busy then .done (.refused .inLenWriteWhileBusy)
    else .done (.next { s with inLen := value })
  else .done (.next s)

/-- A host read of IN (R51); allowed while BUSY (log entry 10). -/
def hostReadIn (s : State) (i : Nat) : Action :=
  if i < s.cfg.inCap then .done (.next (answer s ((s.inByte i).setWidth 32)))
  else .done (.fault .noSuchInByte)

/-- A host write of IN (R51), not while BUSY (R187). -/
def hostWriteIn (s : State) (i : Nat) (b : Byte) : Action :=
  if s.phase = .busy then .done (.refused .inWriteWhileBusy)
  else if i < s.cfg.inCap then .done (.next { s with inBuf := s.inBuf.write i b })
  else .done (.fault .noSuchInByte)

/-- A host read of OUT (R51), not while BUSY (R187). -/
def hostReadOut (s : State) (i : Nat) : Action :=
  if s.phase = .busy then .done (.refused .outAccessWhileBusy)
  else if i < s.cfg.outCap then .done (.next (answer s ((s.outByte i).setWidth 32)))
  else .done (.fault .noSuchOutByte)

/-- A host write of OUT (R51), not while BUSY (R187): the byte is stored (log entry 10). -/
def hostWriteOut (s : State) (i : Nat) (b : Byte) : Action :=
  if s.phase = .busy then .done (.refused .outAccessWhileBusy)
  else if i < s.cfg.outCap then .done (.next { s with outBuf := s.outBuf.write i b })
  else .done (.fault .noSuchOutByte)

/-- One host access, already taken from the queue. A poll that finds DONE = 0 lets the engine move; it
is put back by `nextAction`. -/
def hostAction (s : State) : HostOp → Action
  | .readReg offset => .done (.next (answer s (regRead s offset)))
  | .writeReg offset value => hostWriteReg s offset value
  | .readIn i => hostReadIn s i
  | .writeIn i b => hostWriteIn s i b
  | .readOut i => hostReadOut s i
  | .writeOut i b => hostWriteOut s i b
  | .reset => .done (.next (hardReset s))
  | .wait => engineAction s
  | .poll => engineAction (answer s s.statusWord)

/-- Does a host access leave the queue when it is taken? A poll stays until DONE = 1 (R184). -/
def leavesQueue (s : State) : HostOp → Bool
  | .poll => doneFlag s.phase
  | .readReg _ => true
  | .writeReg _ _ => true
  | .readIn _ => true
  | .writeIn _ _ => true
  | .readOut _ => true
  | .writeOut _ _ => true
  | .reset => true
  | .wait => true

/-- What the machine does next. A configuration that breaks R7, or R21's
register width, is refused. The host's pending access
moves first; with none pending the engine moves (log entry 2). -/
def nextAction (s : State) : Action :=
  if s.cfg.Valid then
    match s.hostQueue with
    | [] => engineAction s
    | h :: rest => hostAction (if leavesQueue s h then { s with hostQueue := rest } else s) h
  else .done (.refused .badConfiguration)

/-! ## Placing one instruction -/

/-- Store bytes at the start of IN. -/
def loadInput (mem : Memory) (i : Nat) : List Byte → Memory
  | [] => mem
  | b :: rest => loadInput (mem.write i b) (i + 1) rest

/-- The state in which operation `op` has just started on the input `bytes`, and the engine moves
next. -/
def placeStream (s : State) (op : Op) (bytes : List Byte) : State :=
  { s with
    inBuf := loadInput s.inBuf 0 bytes
    inLen := BitVec.ofNat 32 bytes.length
    n := BitVec.ofNat 32 bytes.length
    cmd := op
    op := op
    errPos := 0
    phase := .busy
    p := 0
    m := 0
    hostQueue := .wait :: s.hostQueue }

/-- Place an encoded instruction where the next step takes it (log entry 17): a command word as the
host's next CMD write, with no operation running; stream bytes as the whole input of a decoder that has
just started. -/
def placeEncoding (s : State) : Encoding → State
  | .command w =>
    { s with
      phase := if s.phase = .busy then .idle else s.phase
      hostQueue := .writeReg cmdOffset w :: s.hostQueue }
  | .rle bytes => placeStream s opRleDecompress bytes
  | .window bytes => placeStream s opWinDecompress bytes

end Sys2Proof.Machine
end

