-- ==== Sys2Proof/Machine/Rle.lean ====
section
/-!
DEFINITION. The RLE codec (40_rle.md): the encoder's iteration, the decoder's token and its illegal
forms, and the meanings of RLE_COMPRESS, RLE_DECOMPRESS, RUN, RLE_ZERO_COUNT and RLE_TRAILING_BYTE.
-/

namespace Sys2Proof.Machine

/-! ## Encoder -/

/-- The scan of R102: the length of the run at p, from `len` bytes already known equal to `v`. -/
def scanRun (s : State) (v : Byte) : Nat → Nat → Nat
  | 0, len => len
  | fuel + 1, len =>
    if s.p.toNat + len < s.n.toNat ∧ s.inByte (s.p.toNat + len) = v then scanRun s v fuel (len + 1)
    else len

/-- The length L of the run at p (R100, R102). -/
def runLength (s : State) : Nat := scanRun s (s.inByte s.p.toNat) (s.n.toNat - s.p.toNat) 1

/-- The run registers take a value and a length (R34, R102, R107). -/
def loadRun (s : State) (v : Byte) (len : Word) : State := { s with runVal := v, runLen := len }

/-- run_len <- run_len - k (R102, R107). -/
def takeFromRun (s : State) (k : Word) : State := { s with runLen := s.runLen - k }

/-- emit(count) ; emit(run_val) (R102, packed as R73). -/
def emitRleToken (s : State) (count : Byte) : Run := emitAll s [count, s.runVal]

/-- The packer of R101 and R102: full tokens while run_len > RLE_MAX_COUNT, then the rest. The first
argument bounds the tokens; run_len tokens are always enough. -/
def emitRun : Nat → State → Run
  | 0, s => .ok s
  | fuel + 1, s =>
    if s.cfg.rleMax < s.runLen.toNat then
      (emitRleToken s (BitVec.ofNat 8 s.cfg.rleMax)).bind fun t =>
        emitRun fuel (advance (takeFromRun t (BitVec.ofNat 32 t.cfg.rleMax))
          (BitVec.ofNat 32 t.cfg.rleMax))
    else
      (emitRleToken s (s.runLen.setWidth 8)).bind fun t => .ok (advance t t.runLen)

/-- One iteration of R102's loop: the run at p, split and emitted. -/
def rleEncodeRun (s : State) : Run :=
  emitRun (runLength s) (loadRun s (s.inByte s.p.toNat) (BitVec.ofNat 32 (runLength s)))

/-! ## Decoder -/

/-- The expansion loop of R107: run_len copies of run_val. -/
def expandRun : Nat → State → Run
  | 0, s => .ok s
  | k + 1, s => (emit s s.runVal).bind fun t => expandRun k (takeFromRun t 1)

/-- RUN count, value (R107), then p <- p + 2 (R105). -/
def runToken (s : State) (count value : Byte) : Run :=
  if count = 0 then .error (raise s .rleZeroCount s.p)
  else
    (expandRun count.toNat (loadRun s value (zext count))).bind fun t => .ok (advance t 2)

/-! ## Meanings -/

/-- RLE_COMPRESS (R102, R181, R182). Written to CMD while no operation runs, it starts; while it runs,
the engine executes it once per run of the input and completes at p = n. Met while another operation
runs it is a CMD write the host must not make (R187). -/
def execRleCompress (s : State) : Host.Outcome State Fault Refusal :=
  if s.phase = .busy then
    if s.op = opRleCompress then
      if s.p.toNat < s.n.toNat then settle (rleEncodeRun s) else .next (complete s)
    else .refused .cmdWriteWhileBusy
  else .next (start s opRleCompress)

/-- RLE_DECOMPRESS (R105, R181, R182). Written to CMD while no operation runs, it starts; while it
runs, its loop's test: at p = n it completes, at p < n it goes on to the token at p, which the engine
executes as an instruction of its own. -/
def execRleDecompress (s : State) : Host.Outcome State Fault Refusal :=
  if s.phase = .busy then
    if s.op = opRleDecompress then
      if s.p.toNat < s.n.toNat then .next s else .next (complete s)
    else .refused .cmdWriteWhileBusy
  else .next (start s opRleDecompress)

/-- RUN (R107). -/
def execRun (count value : Byte) (s : State) : Host.Outcome State Fault Refusal :=
  settle (runToken s count value)

/-- RLE_ZERO_COUNT (R108): raise at the count byte; the value byte is not used. -/
def execRleZeroCount (_value : Byte) (s : State) : Host.Outcome State Fault Refusal :=
  .next (raise s .rleZeroCount s.p)

/-- RLE_TRAILING_BYTE (R106): raise at n - 1. -/
def execRleTrailingByte (_last : Byte) (s : State) : Host.Outcome State Fault Refusal :=
  .next (raise s .rleOddLength (lastIndex s))

end Sys2Proof.Machine
end

