-- ==== Sys2Proof/Machine/WindowDecoder.lean ====
section
/-!
DEFINITION. The Window decoder (42_window_decoder.md): the literal, the match unpacker with its offset
checks and its byte-by-byte copy, the illegal forms, and the meanings of WIN_DECOMPRESS and the Window
tokens.
-/

namespace Sys2Proof.Machine

/-- LIT (R152): emit the byte, p <- p + 2. -/
def litToken (s : State) (value : Byte) : Run :=
  (emit s value).bind fun t => .ok (advance t 2)

/-- copy_rem <- copy_rem - 1 (R156). -/
def countCopied (s : State) : State := { s with copyRem := s.copyRem - 1 }

/-- The copy loop of R156: copy_rem bytes, byte i of them from OUT[base + i], base being the start of R156, each read after the ones
before it have been written (R234). -/
def copyLoop (base : Nat) : Nat → Nat → State → Run
  | 0, _, s => .ok s
  | k + 1, i, s =>
    (emit s (s.outByte (base + i))).bind fun t =>
      copyLoop base k (i + 1) (countCopied t)

/-- The unpacker (R153): copy_off and copy_rem take the descriptor; it checks nothing. -/
def unpackMatch (s : State) (offset length : Byte) : State :=
  { s with copyOff := offset, copyRem := length }

/-- MATCH (R156): unpack, the zero-offset check (R155), the range check start = m - offset >= 0
(R154), the copy, p <- p + 3. -/
def matchToken (s : State) (offset length : Byte) : Run :=
  if offset = 0 then .error (raise (unpackMatch s offset length) .winZeroOffset s.p)
  else if s.m.toNat < offset.toNat then
    .error (raise (unpackMatch s offset length) .winBadOffset s.p)
  else
    (copyLoop (s.m.toNat - offset.toNat) length.toNat 0 (unpackMatch s offset length)).bind fun t =>
      .ok (advance t 3)

/-! ## Meanings -/

/-- WIN_DECOMPRESS (R160, R181, R182). Written to CMD while no operation runs, it starts; while it
runs, its loop's test: at p = n it completes, at p < n it goes on to the token at p, which the engine
executes as an instruction of its own. -/
def execWinDecompress (s : State) : Host.Outcome State Fault Refusal :=
  if s.phase = .busy then
    if s.op = opWinDecompress then
      if s.p.toNat < s.n.toNat then .next s else .next (complete s)
    else .refused .cmdWriteWhileBusy
  else .next (start s opWinDecompress)

/-- LIT (R152). -/
def execLit (value : Byte) (s : State) : Host.Outcome State Fault Refusal :=
  settle (litToken s value)

/-- MATCH (R156). -/
def execMatchTok (offset length : Byte) (s : State) : Host.Outcome State Fault Refusal :=
  settle (matchToken s offset length)

/-- WIN_ILLEGAL_TAG (R158): raise at the tag. -/
def execWinIllegalTag (_tag : Byte) (s : State) : Host.Outcome State Fault Refusal :=
  .next (raise s .winBadTag s.p)

/-- WIN_LIT_TRUNCATED (R159): raise at the tag. -/
def execWinLitTruncated (s : State) : Host.Outcome State Fault Refusal :=
  .next (raise s .winTruncated s.p)

/-- WIN_MATCH_TRUNCATED (R159): raise at the tag; an offset byte, if present, is ignored. -/
def execWinMatchTruncated (_offset : Option Byte) (s : State) :
    Host.Outcome State Fault Refusal :=
  .next (raise s .winTruncated s.p)

end Sys2Proof.Machine
end

