-- ==== Sys2Proof/Machine/WindowEncoder.lean ====
section
/-!
DEFINITION. The Window encoder (41_window_encoder.md): the match finder, the literal framer, the match
packer, the history of the consumed input, and the meaning of WIN_COMPRESS.
-/

namespace Sys2Proof.Machine

/-! ## Match finder -/

/-- The compare loop of R122 at the cursor for offset `o`, from `k` bytes already equal. -/
def matchLenFrom (s : State) (o : Nat) : Nat → Nat → Nat
  | 0, k => k
  | fuel + 1, k =>
    if k < s.cfg.maxMatch ∧ s.p.toNat + k < s.n.toNat ∧
        s.inByte (s.p.toNat + k) = s.inByte (s.p.toNat - o + k) then
      matchLenFrom s o fuel (k + 1)
    else k

/-- matchlen(p, o) (R122). -/
def matchLen (s : State) (o : Nat) : Nat := matchLenFrom s o s.cfg.maxMatch 0

/-- The search of R124 over the offsets 1..=k in increasing order: (best_off, best_len). The strict
comparison keeps the first offset of the greatest length (R123). -/
def findUpTo (s : State) : Nat → Nat × Nat
  | 0 => (0, 0)
  | k + 1 =>
    if (findUpTo s k).2 < matchLen s (k + 1) then (k + 1, matchLen s (k + 1)) else findUpTo s k

/-- How many offsets the finder tests at p: min(W, p) (R121). -/
def searchRange (s : State) : Nat := min s.cfg.windowSize s.p.toNat

/-- find(p) (R124). -/
def find (s : State) : Nat × Nat := findUpTo s (searchRange s)

/-- The finder's registers after the search (R36): the best match, and the last offset tested with its
length. With an empty range no offset is tested and the candidate registers stay (log entry 18). -/
def runFinder (s : State) : State :=
  { s with
    bestOff := BitVec.ofNat 8 (find s).1
    bestLen := BitVec.ofNat 8 (find s).2
    candOff := if searchRange s = 0 then s.candOff else BitVec.ofNat 8 (searchRange s)
    candLen := if searchRange s = 0 then s.candLen else BitVec.ofNat 8 (matchLen s (searchRange s)) }

/-! ## Framer and packer -/

/-- HIST takes the consumed bytes IN[p + j] for j in 0..k (R129, R131). -/
def consumeToHist (s : State) : Nat → State
  | 0 => s
  | k + 1 => histWrite (consumeToHist s k) (s.p.toNat + k) (s.inByte (s.p.toNat + k))

/-- Literal emission (R126). -/
def emitLiteral (s : State) : Run :=
  (emitAll s [0, s.inByte s.p.toNat]).bind fun t => .ok (advance t 1)

/-- Match emission (R127). -/
def emitMatch (s : State) : Run :=
  (emitAll s [1, s.bestOff, s.bestLen]).bind fun t => .ok (advance t (zext t.bestLen))

/-- One iteration of R129's loop: find, the literal or match decision of R125, the history, and the
token. -/
def winEncodeToken (s : State) : Run :=
  if s.cfg.minMatch ≤ (find s).2 then emitMatch (consumeToHist (runFinder s) (find s).2)
  else emitLiteral (consumeToHist (runFinder s) 1)

/-! ## Meaning -/

/-- WIN_COMPRESS (R129, R181, R182). Written to CMD while no operation runs, it starts; while it runs,
the engine executes it once per token and completes at p = n. Met while another operation runs it is a
CMD write the host must not make (R187). -/
def execWinCompress (s : State) : Host.Outcome State Fault Refusal :=
  if s.phase = .busy then
    if s.op = opWinCompress then
      if s.p.toNat < s.n.toNat then settle (winEncodeToken s) else .next (complete s)
    else .refused .cmdWriteWhileBusy
  else .next (start s opWinCompress)

end Sys2Proof.Machine
end

