-- ==== Sys2Proof/Machine/Dispatch.lean ====
section
/-!
DEFINITION. One arm per instruction of spec/opcode_table.json.
-/

namespace Sys2Proof.Machine

def exec (i : Instr) (s : State) : Host.Outcome State Fault Refusal :=
  match i with
  | .rleCompress => Sys2Proof.Machine.execRleCompress s
  | .rleDecompress => Sys2Proof.Machine.execRleDecompress s
  | .winCompress => Sys2Proof.Machine.execWinCompress s
  | .winDecompress => Sys2Proof.Machine.execWinDecompress s
  | .cmdReserved op => Sys2Proof.Machine.execCmdReserved op s
  | .run count value => Sys2Proof.Machine.execRun count value s
  | .rleZeroCount value => Sys2Proof.Machine.execRleZeroCount value s
  | .rleTrailingByte last => Sys2Proof.Machine.execRleTrailingByte last s
  | .lit value => Sys2Proof.Machine.execLit value s
  | .matchTok offset length => Sys2Proof.Machine.execMatchTok offset length s
  | .winIllegalTag tag => Sys2Proof.Machine.execWinIllegalTag tag s
  | .winLitTruncated => Sys2Proof.Machine.execWinLitTruncated s
  | .winMatchTruncated offset => Sys2Proof.Machine.execWinMatchTruncated offset s

end Sys2Proof.Machine
end

