-- ==== Sys2Proof/Machine/Step.lean ====
section
/-!
DEFINITION. One step of the machine: the host's next access or the engine's next instruction.
-/

namespace Sys2Proof.Machine

/-- One step (log entries 2 and 7). -/
def step (s : State) : Host.Outcome State Fault Refusal :=
  match nextAction s with
  | .run i t => exec i t
  | .done o => o

/-- The state whose next step runs the instruction of a word of the opcode table (log entries 16
and 17). -/
def State.withFetchWord (s : State) (nbits w : Nat) : State :=
  match tableEncoding nbits w with
  | some e => placeEncoding s e
  | none => s

end Sys2Proof.Machine
end

