-- ==== Sys2Proof/Machine/Reference.lean ====
section
/-!
DEFINITION. Each operation as a total function from the input bytes to a result (00_scope.md R11, R12),
written on byte lists from the rules' declarative side: runs and their split (R100, R101), the longest
match and the nearest offset that has it (R122, R123, R124), token sequences (R105, R160). It shares no
loop with the machine, so that the machine can be proved equal to it.
-/

namespace Sys2Proof.Machine

/-- The result of an operation (R11). -/
inductive Result where
  | ok (out : List Byte)
  | fault (cause : Cause) (pos : Nat)
deriving DecidableEq, Repr

/-! ## RLE -/

/-- The maximal runs of a byte list, left to right, as (length, value) (R100). -/
def runsOf : List Byte → List (Nat × Byte)
  | [] => []
  | b :: rest =>
    match runsOf rest with
    | [] => [(1, b)]
    | (len, v) :: runs => if b = v then (len + 1, v) :: runs else (1, b) :: (len, v) :: runs

/-- split(L, v) in the closed form of R85 and R101: floor((L-1)/max) full tokens, then the rest. -/
def splitRun (max : Nat) (run : Nat × Byte) : List (Nat × Byte) :=
  List.replicate ((run.1 - 1) / max) (max, run.2) ++ [(run.1 - max * ((run.1 - 1) / max), run.2)]

/-- A token as its two bytes (R73). -/
def packRle (token : Nat × Byte) : List Byte := [BitVec.ofNat 8 token.1, token.2]

/-- rle_compress (R102): the tokens' bytes in scan order. -/
def refRleCompress (cfg : Config) (input : List Byte) : List Byte :=
  ((runsOf input).flatMap (splitRun cfg.rleMax)).flatMap packRle

/-- The token sequence of rle_decompress from index `pos`, after the output `out` (R105, R107, R108). -/
def refRleTokens (outCap : Nat) : List Byte → Nat → List Byte → Result
  | [], _, out => .ok out
  | [_], pos, _ => .fault .rleOddLength pos
  | count :: value :: rest, pos, out =>
    if count = 0 then .fault .rleZeroCount pos
    else if outCap < out.length + count.toNat then .fault .outCapacity pos
    else refRleTokens outCap rest (pos + 2) (out ++ List.replicate count.toNat value)

/-- rle_decompress (R105): an odd length is reported before any token (R106). -/
def refRleDecompress (cfg : Config) (input : List Byte) : Result :=
  if input.length % 2 = 1 then .fault .rleOddLength (input.length - 1)
  else refRleTokens cfg.outCap input 0 []

/-! ## Window encoder -/

/-- input[a .. a + k] (R9). -/
def slice (input : List Byte) (a k : Nat) : List Byte := (input.drop a).take k

/-- The length of offset `o` at `p`: the largest k <= MAX with p + k <= n and equal slices (R122). -/
def refMatchLen (cfg : Config) (input : List Byte) (p o : Nat) : Nat :=
  Nat.findGreatest
    (fun k => p + k ≤ input.length ∧ slice input p k = slice input (p - o) k) cfg.maxMatch

/-- The offsets searched at `p`, 1..=min(W, p) (R121). -/
def refOffsets (cfg : Config) (p : Nat) : List Nat :=
  (List.range (min cfg.windowSize p)).map (· + 1)

/-- The best length at `p`: the greatest over the offsets, 0 with none (R124). -/
def refBestLen (cfg : Config) (input : List Byte) (p : Nat) : Nat :=
  ((refOffsets cfg p).map (refMatchLen cfg input p)).foldl max 0

/-- The best offset at `p`: the least that has the best length, 0 when that is 0 (R124). -/
def refBestOff (cfg : Config) (input : List Byte) (p : Nat) : Nat :=
  if refBestLen cfg input p = 0 then 0
  else ((refOffsets cfg p).find? fun o => refMatchLen cfg input p o = refBestLen cfg input p).getD 0

/-- The token at `p` (R125): a match's bytes and length, or a literal's. -/
def refWinToken (cfg : Config) (input : List Byte) (p : Nat) : List Byte × Nat :=
  if cfg.minMatch ≤ refBestLen cfg input p then
    ([1, BitVec.ofNat 8 (refBestOff cfg input p), BitVec.ofNat 8 (refBestLen cfg input p)],
      refBestLen cfg input p)
  else ([0, input.getD p 0], 1)

/-- The tokens from `p` on; each takes at least one byte, so `input.length` of them are enough. -/
def refWinTokens (cfg : Config) (input : List Byte) : Nat → Nat → List Byte
  | 0, _ => []
  | fuel + 1, p =>
    if p < input.length then
      (refWinToken cfg input p).1 ++
        refWinTokens cfg input fuel (p + (refWinToken cfg input p).2)
    else []

/-- window_compress (R129). -/
def refWinCompress (cfg : Config) (input : List Byte) : List Byte :=
  refWinTokens cfg input input.length 0

/-! ## Window decoder -/

/-- `length` bytes copied one at a time from distance `offset` behind the end (R156, R157). -/
def refCopy (offset : Nat) : Nat → List Byte → List Byte
  | 0, out => out
  | k + 1, out => refCopy offset k (out ++ [out.getD (out.length - offset) 0])

/-- The token sequence of window_decompress from index `pos`, after the output `out`: R151, R152, R154,
R155, R156, R158 and R159 in the order of R203. -/
def refWinDecode (outCap : Nat) : List Byte → Nat → List Byte → Result
  | [], _, out => .ok out
  | [tag], pos, _ =>
    if tag = 0 ∨ tag = 1 then .fault .winTruncated pos else .fault .winBadTag pos
  | tag :: x :: rest, pos, out =>
    if tag = 0 then
      if outCap < out.length + 1 then .fault .outCapacity pos
      else refWinDecode outCap rest (pos + 2) (out ++ [x])
    else if tag = 1 then
      match rest with
      | [] => .fault .winTruncated pos
      | length :: rest =>
        if x = 0 then .fault .winZeroOffset pos
        else if out.length < x.toNat then .fault .winBadOffset pos
        else if outCap < out.length + length.toNat then .fault .outCapacity pos
        else refWinDecode outCap rest (pos + 3) (refCopy x.toNat length.toNat out)
    else .fault .winBadTag pos

/-- window_decompress (R160). -/
def refWinDecompress (cfg : Config) (input : List Byte) : Result :=
  refWinDecode cfg.outCap input 0 []

/-! ## Pseudo-instructions (30_encoding.md R85): notation only, no hardware decodes them -/

/-- `RUNS n, v` (R85): the encoder's split of a run of n copies of v. -/
def pseudoRuns (n : Nat) (v : Byte) : List Instr :=
  (splitRun 255 (n, v)).map fun r => .run (BitVec.ofNat 8 r.1) r.2

/-- `LITS "s"` (R85): one LIT per character of s, in order, a character standing for its code (R84). -/
def pseudoLits (chars : List Char) : List Instr :=
  chars.map fun c => .lit (BitVec.ofNat 8 c.toNat)

/-- The stream a list of tokens is written as (R74, R78). -/
def assemble (tokens : List Instr) : List Byte := tokens.flatMap fun i => (encode i).streamBytes

end Sys2Proof.Machine
end

