-- ==== Sys2Proof/Safety.lean ====
section
/-!
DEFINITION. The terms claims are stated in: what a run is, the state in which an operation has just
started, the bytes an operation reads and leaves, and the invariant of the machine.
-/

namespace Sys2Proof.Machine

/-- `k` steps lead from `s` to `t`. -/
def Reaches (k : Nat) (s t : State) : Prop := Host.Core.run Sys2Proof.core k s = .next t

/-- An operation `op` has just started (R181) on a valid part, and the host has nothing pending. -/
structure Started (op : Op) (s : State) : Prop where
  valid : s.cfg.Valid
  busy : s.phase = .busy
  opIs : s.op = op
  cursor : s.p = 0
  count : s.m = 0
  noError : s.errPos = 0
  fits : s.n.toNat ≤ s.cfg.inCap
  quiet : s.hostQueue = []

/-- IN[0..n], the input of the running operation. -/
def State.inputBytes (s : State) : List Byte := (List.range s.n.toNat).map s.inByte

/-- OUT[0..k]. -/
def State.outputBytes (s : State) (k : Nat) : List Byte := (List.range k).map s.outByte

/-- A completed operation's state shows the result (R11, R182, R204). -/
def Shows (t : State) : Result → Prop
  | .ok out => t.phase = .doneOk ∧ t.outLen.toNat = out.length ∧ t.outputBytes out.length = out
  | .fault c pos => t.phase = .doneFault c ∧ t.errPos = BitVec.ofNat 32 pos

/-- From `s` to `t` the operation has appended `bytes` to OUT: m has grown by their number, they stand at
the old m on, and every other index of OUT reads as before (R10, R57). -/
structure AppendsOut (s t : State) (bytes : List Byte) : Prop where
  count : t.m = s.m + BitVec.ofNat 32 bytes.length
  written : ∀ i b, bytes[i]? = some b → t.outByte (s.m.toNat + i) = b
  kept : ∀ j, j < s.m.toNat ∨ s.m.toNat + bytes.length ≤ j → t.outByte j = s.outByte j

/-- From `s` to `t` the bytes appended have gone to HIST at m mod HIST_DEPTH as well, and every other
cell reads as before (R10, R157). -/
structure AppendsHist (s t : State) (bytes : List Byte) : Prop where
  written : ∀ i b, bytes[i]? = some b →
    t.histByte ((s.m.toNat + i) % s.cfg.histDepth) = b
  kept : ∀ j, (∀ i, i < bytes.length → j ≠ (s.m.toNat + i) % s.cfg.histDepth) →
    t.histByte j = s.histByte j

/-- From `s` to `t` the `k` bytes consumed at p have gone to HIST at p mod HIST_DEPTH, and every other
cell reads as before (R129, R131). -/
structure ConsumesHist (s t : State) (k : Nat) : Prop where
  written : ∀ i, i < k →
    t.histByte ((s.p.toNat + i) % s.cfg.histDepth) = s.inByte (s.p.toNat + i)
  kept : ∀ j, (∀ i, i < k → j ≠ (s.p.toNat + i) % s.cfg.histDepth) → t.histByte j = s.histByte j

/-- `t` is `s` with fault `c` taken at position `pos` (R204): the phase and ERR_POS say so, OUT and
OUT_LEN may hold anything, and nothing else has changed. -/
def Faulted (s t : State) (c : Cause) (pos : Word) : Prop :=
  t = { s with
    phase := .doneFault c
    errPos := pos
    outLen := t.outLen
    outBuf := t.outBuf
    draw := t.draw }

/-- The run of length `len` starts at p and ends where its value ends (R100). -/
structure RunAt (s : State) (len : Nat) : Prop where
  pos : 1 ≤ len
  fits : s.p.toNat + len ≤ s.n.toNat
  equal : ∀ i, i < len → s.inByte (s.p.toNat + i) = s.inByte s.p.toNat
  maximal : s.p.toNat + len < s.n.toNat → s.inByte (s.p.toNat + len) ≠ s.inByte s.p.toNat

/-- A space is in canonical form and lists no index at or above its size. -/
def Memory.WfBelow (mem : Memory) (size : Nat) : Prop :=
  mem.Wf ∧ ∀ c ∈ mem.cells, c.1 < size

/-- THE INVARIANT: what holds of every state a valid part comes to. -/
structure Inv (s : State) : Prop where
  /-- The part is one R7 allows. -/
  valid : s.cfg.Valid
  /-- IN, OUT and HIST are in canonical form within their sizes (R51). -/
  inWf : s.inBuf.WfBelow s.cfg.inCap
  outWf : s.outBuf.WfBelow s.cfg.outCap
  histWf : s.hist.WfBelow s.cfg.histDepth
  /-- A running operation is one of the four (R33). -/
  opLegal : s.phase = .busy → Op.legal s.op = true
  /-- It reads an input that fits (R59). -/
  lengthFits : s.phase = .busy → s.n.toNat ≤ s.cfg.inCap
  /-- 0 <= p <= n (R31). -/
  cursorFits : s.phase = .busy → s.p.toNat ≤ s.n.toNat
  /-- 0 <= m <= OUT_CAP (R32). -/
  countFits : s.phase = .busy → s.m.toNat ≤ s.cfg.outCap
  /-- OUT[0..m] has been written (R57). -/
  outWritten : s.phase = .busy → ∀ j, j < s.m.toNat → (s.outBuf.find? j).isSome
  /-- An RLE token starts at an even index (R54, R74). -/
  rleAligned : s.phase = .busy → s.op = opRleDecompress → s.p.toNat % 2 = 0
  /-- The encoders' output is at most twice the input consumed (R104, R132). -/
  rleSize : s.phase = .busy → s.op = opRleCompress → s.m.toNat ≤ 2 * s.p.toNat
  winSize : s.phase = .busy → s.op = opWinCompress → 2 ≤ s.cfg.minMatch →
    s.m.toNat ≤ 2 * s.p.toNat
  /-- HIST in the Window decoder (R35). -/
  histDecoder : s.phase = .busy → s.op = opWinDecompress →
    ∀ d, 1 ≤ d → d ≤ s.m.toNat → d ≤ s.cfg.histDepth →
      s.histByte ((s.m.toNat - d) % s.cfg.histDepth) = s.outByte (s.m.toNat - d)
  /-- HIST in the Window encoder (R35, R131). -/
  histEncoder : s.phase = .busy → s.op = opWinCompress →
    ∀ d, 1 ≤ d → d ≤ s.p.toNat → d ≤ s.cfg.histDepth →
      s.histByte ((s.p.toNat - d) % s.cfg.histDepth) = s.inByte (s.p.toNat - d)
  /-- ERR_POS is 0 unless a fault has been reported (R26), and 0 after a start fault (R201). -/
  errPosClear : errFlag s.phase = false → s.errPos = 0
  startFaultPos : s.phase = .doneFault .badLength ∨ s.phase = .doneFault .badCommand → s.errPos = 0
  /-- After success OUT[0..OUT_LEN] holds the result (R182). -/
  resultFits : s.phase = .doneOk → s.outLen.toNat ≤ s.cfg.outCap
  resultWritten : s.phase = .doneOk → ∀ j, j < s.outLen.toNat → (s.outBuf.find? j).isSome

end Sys2Proof.Machine
end

