-- ==== Sys2Proof/Certificates/Slice0/Obligations.lean ====
section
/-!
DEFINITION. The statements for the provers. Every one formalises rules of spec/, cited in its
docstring. Where a statement is about states that no run reaches too, it holds there as well, or takes
the invariant `Inv` as a premise, which is a statement of its own.
-/

open Sys2Proof Sys2Proof.Machine

/-! ## Encoding -/

/-- R71: CMD bits 2:0 select the command, bits 31:3 are ignored. -/
def Obligations.CommandWordSelectsByOp : Prop :=
  ∀ w : Word,
    (w.toNat % 8 = 1 → decodeCommand w = .rleCompress) ∧
    (w.toNat % 8 = 2 → decodeCommand w = .rleDecompress) ∧
    (w.toNat % 8 = 3 → decodeCommand w = .winCompress) ∧
    (w.toNat % 8 = 4 → decodeCommand w = .winDecompress) ∧
    (w.toNat % 8 = 0 ∨ 5 ≤ w.toNat % 8 →
      decodeCommand w = .cmdReserved (BitVec.ofNat 3 (w.toNat % 8)))

/-- R71, R73, R76, R77, R81: words written out from the encodings decode to what they stand for. -/
def Obligations.SpecWordsDecode : Prop :=
  decode (.command 0x0000000B) = .ok .winCompress ∧
  decode (.command 0x00000006) = .ok (.cmdReserved 6) ∧
  decode (.rle [0x03, 0x41]) = .ok (.run 3 0x41) ∧
  decode (.rle [0x00, 0x42]) = .ok (.rleZeroCount 0x42) ∧
  decode (.window [0x00, 0x41]) = .ok (.lit 0x41) ∧
  decode (.window [0x01, 0x02, 0x05]) = .ok (.matchTok 2 5) ∧
  decode (.window [0x80]) = .ok (.winIllegalTag 0x80)

/-- R71, R73 to R78, R81: decoding the encoding of a well-formed instruction gives it back, with every
operand at every value its field admits. -/
def Obligations.DecodeOfEncodeIsIdentity : Prop :=
  ∀ i : Instr, i.wf = true → decode (encode i) = .ok i

/-- R74, R78: each decoder rejects the empty stream alone; of any other it answers a well-formed
instruction whose own encoding is exactly the bytes consumed. -/
def Obligations.StreamDecodeConsumesTheEncoding : Prop :=
  (∀ bytes : List Byte, bytes ≠ [] → ∃ i rest used,
    decodeRle bytes = .ok (i, rest) ∧ i.wf = true ∧ encode i = .rle used ∧ used ++ rest = bytes) ∧
  (∀ bytes : List Byte, bytes ≠ [] → ∃ i rest used,
    decodeWindow bytes = .ok (i, rest) ∧ i.wf = true ∧ encode i = .window used ∧
      used ++ rest = bytes) ∧
  decodeRle [] = .error .endOfStream ∧ decodeWindow [] = .error .endOfStream

/-! ## Steps -/

/-- R105, R160, R181: a step executes the instruction decoded at the cursor, or the instruction of the
host's CMD write. The model's choices: that the encoders, and a decoder at p = n, execute the running
command itself (log entry 7, the step granularity), and that the host's access is taken from a queue
(log entry 2). A step adds nothing else around exec. -/
def Obligations.StepRunsDecodedInstruction : Prop :=
  ∀ s : State, s.cfg.Valid →
    (s.hostQueue = [] → s.phase = .busy →
      (s.op = opRleCompress → step s = exec .rleCompress s) ∧
      (s.op = opWinCompress → step s = exec .winCompress s) ∧
      (s.op = opRleDecompress → s.n.toNat % 2 = 1 →
        step s = exec (.rleTrailingByte (s.inByte (s.n.toNat - 1))) s) ∧
      (s.op = opRleDecompress → s.n.toNat % 2 = 0 → ∀ i rest,
        decodeRle (streamAtCursor s) = .ok (i, rest) → step s = exec i s) ∧
      (s.op = opRleDecompress → s.n.toNat % 2 = 0 → s.n.toNat ≤ s.p.toNat →
        step s = exec .rleDecompress s) ∧
      (s.op = opWinDecompress → ∀ i rest,
        decodeWindow (streamAtCursor s) = .ok (i, rest) → step s = exec i s) ∧
      (s.op = opWinDecompress → s.n.toNat ≤ s.p.toNat → step s = exec .winDecompress s)) ∧
    (∀ w rest, s.hostQueue = .writeReg cmdOffset w :: rest → s.phase ≠ .busy →
      step s = exec (decodeCommand w) { s with hostQueue := rest })

/-- R73, R79, R83, R151: which instruction the bytes IN[p], IN[p+1], IN[p+2] are, with n the end of the
stream. -/
def Obligations.FetchReadsTokenAtCursor : Prop :=
  ∀ s : State, s.cfg.Valid → s.hostQueue = [] → s.phase = .busy →
    (s.op = opRleDecompress → s.n.toNat % 2 = 0 → s.p.toNat + 1 < s.n.toNat →
      (s.inByte s.p.toNat = 0 →
        step s = exec (.rleZeroCount (s.inByte (s.p.toNat + 1))) s) ∧
      (s.inByte s.p.toNat ≠ 0 →
        step s = exec (.run (s.inByte s.p.toNat) (s.inByte (s.p.toNat + 1))) s)) ∧
    (s.op = opWinDecompress → s.p.toNat < s.n.toNat →
      (s.inByte s.p.toNat = 0 → s.p.toNat + 1 < s.n.toNat →
        step s = exec (.lit (s.inByte (s.p.toNat + 1))) s) ∧
      (s.inByte s.p.toNat = 0 → s.n.toNat ≤ s.p.toNat + 1 → step s = exec .winLitTruncated s) ∧
      (s.inByte s.p.toNat = 1 → s.p.toNat + 2 < s.n.toNat →
        step s =
          exec (.matchTok (s.inByte (s.p.toNat + 1)) (s.inByte (s.p.toNat + 2))) s) ∧
      (s.inByte s.p.toNat = 1 → s.n.toNat = s.p.toNat + 2 →
        step s = exec (.winMatchTruncated (some (s.inByte (s.p.toNat + 1)))) s) ∧
      (s.inByte s.p.toNat = 1 → s.n.toNat = s.p.toNat + 1 →
        step s = exec (.winMatchTruncated none) s) ∧
      (s.inByte s.p.toNat ≠ 0 → s.inByte s.p.toNat ≠ 1 →
        step s = exec (.winIllegalTag (s.inByte s.p.toNat)) s))

/-- R30: the only phase transitions there are. From BUSY: none, to DONE_OK, to DONE_FAULT, or to IDLE
by reset. From any other phase: none, by a CMD write to BUSY or to a start fault, or to IDLE by
reset. -/
def Obligations.PhaseTransitions : Prop :=
  ∀ s t : State, step s = .next t →
    (s.phase = .busy → (∃ rest, s.hostQueue = .reset :: rest ∧ t.phase = .idle) ∨
      t.phase = .busy ∨ t.phase = .doneOk ∨
      ∃ c, t.phase = .doneFault c ∧ c ≠ .badLength ∧ c ≠ .badCommand) ∧
    (s.phase ≠ .busy → (∃ rest, s.hostQueue = .reset :: rest ∧ t.phase = .idle) ∨
      t.phase = s.phase ∨
      ∃ w rest, s.hostQueue = .writeReg cmdOffset w :: rest ∧
        (t.phase = .busy ∨ t.phase = .doneFault .badLength ∨ t.phase = .doneFault .badCommand))

/-! ## The host's registers -/

/-- R21 to R29: what a host read of REG answers, and that it changes nothing else (R56). OUT_LEN is
left to `outLenView`: while BUSY its value is unspecified. That CMD and IN_LEN may be read while BUSY
is the model's reading (DEDUCED, unsafe, log entry 10): R184 and the start row of R188 speak of STATUS
and the read-only registers alone there. -/
def Obligations.RegisterReads : Prop :=
  ∀ s : State,
    (∀ offset rest, s.cfg.Valid → s.hostQueue = .readReg offset :: rest →
      step s = .next { s with hostQueue := rest, reply := some (regRead s offset) }) ∧
    (regRead s 0x00).toNat = s.cmd.toNat ∧
    regRead s 0x04 = s.statusWord ∧
    regRead s 0x08 = s.inLen ∧
    (s.phase ≠ .busy → regRead s 0x0C = s.outLen) ∧
    regRead s 0x10 = s.errPos ∧
    regRead s 0x14 = configWord s.cfg ∧
    (s.cfg.Valid → (regRead s 0x18).toNat = s.cfg.inCap ∧ (regRead s 0x1C).toNat = s.cfg.outCap) ∧
    (∀ offset : Word, 0x1C < offset.toNat ∨ offset.toNat % 4 ≠ 0 → regRead s offset = 0)

/-- R24, R29: a host write to IN_LEN while not BUSY stores the word; a write to a read-only register or
to an unmapped offset is ignored, in every phase. -/
def Obligations.RegisterWrites : Prop :=
  ∀ s : State, s.cfg.Valid → ∀ offset value rest,
    s.hostQueue = .writeReg offset value :: rest →
      (offset = 0x08 → s.phase ≠ .busy →
        step s = .next { s with hostQueue := rest, inLen := value }) ∧
      (offset ≠ 0x00 → offset ≠ 0x08 → step s = .next { s with hostQueue := rest })

/-- R23: the values a host can read from STATUS, by phase; reserved bits read 0. -/
def Obligations.StatusWordByPhase : Prop :=
  ∀ s : State,
    (s.phase = .idle → s.statusWord = 0x00000000) ∧
    (s.phase = .busy → s.statusWord = 0x00000001) ∧
    (s.phase = .doneOk → s.statusWord = 0x00000002) ∧
    (∀ c, s.phase = .doneFault c →
      s.statusWord.toNat = 6 + causeCode c * 256 + (if causeCode c ≤ 6 then 8 else 0) ∧
        1 ≤ causeCode c ∧ causeCode c ≤ 14)

/-- R27: the fields of CONFIG, and its value with the source's parameters. -/
def Obligations.ConfigRegisterFields : Prop :=
  configWord Config.standard = 0xFFFF0314 ∧
  ∀ c : Config, c.Valid →
    (configWord c).toNat % 2 ^ 8 = c.windowSize ∧
    (configWord c).toNat / 2 ^ 8 % 2 ^ 8 = c.minMatch ∧
    (configWord c).toNat / 2 ^ 16 % 2 ^ 8 = c.maxMatch ∧
    (configWord c).toNat / 2 ^ 24 = c.rleMax

/-- R53: on a platform that exposes REG by byte addresses a register word is little-endian, the byte at
the lowest address holding bit 0; a register of REG_WIDTH bits (R6) is four bytes. -/
def Obligations.RegisterBytesLittleEndian : Prop :=
  ∀ (s : State) (offset : Word),
    (regRead s offset).toNat =
      (regByte s offset 0).toNat + (regByte s offset 1).toNat * 2 ^ 8 +
        (regByte s offset 2).toNat * 2 ^ 16 + (regByte s offset 3).toNat * 2 ^ 24 ∧
    (s.cfg.Valid → regBytes s offset =
      [regByte s offset 0, regByte s offset 1, regByte s offset 2, regByte s offset 3])

/-! ## Start and completion -/

/-- R181, R30, R206: a legal command written while no operation runs, with an input that fits, starts:
OP is latched, n is IN_LEN, ERR_POS is 0, STATUS reads BUSY alone, p and m are 0, and nothing else
changes but the model's draw counter. -/
def Obligations.LegalStartRuns : Prop :=
  ∀ s : State, s.phase ≠ .busy → s.inLen.toNat ≤ s.cfg.inCap →
    ∀ i o, (i, o) ∈ [(Instr.rleCompress, opRleCompress), (.rleDecompress, opRleDecompress),
        (.winCompress, opWinCompress), (.winDecompress, opWinDecompress)] →
      ∃ t, exec i s = .next t ∧ t.statusWord = 0x00000001 ∧
        t = { s with
          cmd := o, op := o, n := s.inLen, errPos := 0, phase := .busy, p := 0, m := 0
          draw := t.draw }

/-- R186: IN_LEN > IN_CAP at a legal start: BAD_LENGTH at once, STATUS 0x00000D06, ERR_POS 0, OUT_LEN,
OUT and everything else keep their values. A reserved OP is reported before it. -/
def Obligations.LongInputFailsStart : Prop :=
  ∀ s : State, s.phase ≠ .busy → s.cfg.inCap < s.inLen.toNat →
    (∀ i o, (i, o) ∈ [(Instr.rleCompress, opRleCompress), (.rleDecompress, opRleDecompress),
        (.winCompress, opWinCompress), (.winDecompress, opWinDecompress)] →
      ∃ t, exec i s = .next t ∧ t.statusWord = 0x00000D06 ∧
        t = { s with cmd := o, phase := .doneFault .badLength, errPos := 0 }) ∧
    (∀ o : Op, Op.legal o = false →
      ∃ t, exec (.cmdReserved o) s = .next t ∧ t.phase = .doneFault .badCommand)

/-- R185: a reserved command completes at once with BAD_COMMAND, STATUS 0x00000E06, ERR_POS 0; OUT_LEN,
OUT and everything else keep their values. -/
def Obligations.ReservedCommandFails : Prop :=
  ∀ (s : State) (o : Op), s.phase ≠ .busy → Op.legal o = false →
    ∃ t, exec (.cmdReserved o) s = .next t ∧ t.statusWord = 0x00000E06 ∧
      t = { s with cmd := o, phase := .doneFault .badCommand, errPos := 0 }

/-- R182: at p = n with no raise, OUT_LEN is m, STATUS reads 0x00000002, and every byte of OUT written
below m stays; nothing else changes. Bytes at or above m become unspecified (R39). That the
instruction which completes is the running command is the model's choice (log entry 7). -/
def Obligations.OperationCompletes : Prop :=
  ∀ s : State, s.phase = .busy → s.n.toNat ≤ s.p.toNat →
    ∀ i o, (i, o) ∈ [(Instr.rleCompress, opRleCompress), (.rleDecompress, opRleDecompress),
        (.winCompress, opWinCompress), (.winDecompress, opWinDecompress)] →
      s.op = o →
      ∃ t, exec i s = .next t ∧ t.statusWord = 0x00000002 ∧
        t = { s with
          outLen := s.m, phase := .doneOk, outBuf := t.outBuf, draw := t.draw } ∧
        (∀ j b, j < s.m.toNat → s.outBuf.find? j = some b → t.outByte j = b) ∧
        (∀ j, s.m.toNat ≤ j → t.outBuf.find? j = none)

/-- R105, R160, R187: what a command does while an operation runs. A decompress command at p < n goes on
to the token at p; a command other than the running one, and a reserved one, is a CMD write the host
must not make, and is refused. -/
def Obligations.CommandsWhileRunning : Prop :=
  ∀ s : State, s.phase = .busy →
    (s.op = opRleDecompress → s.p.toNat < s.n.toNat → exec .rleDecompress s = .next s) ∧
    (s.op = opWinDecompress → s.p.toNat < s.n.toNat → exec .winDecompress s = .next s) ∧
    (∀ i o, (i, o) ∈ [(Instr.rleCompress, opRleCompress), (.rleDecompress, opRleDecompress),
        (.winCompress, opWinCompress), (.winDecompress, opWinDecompress)] →
      s.op ≠ o → exec i s = .refused .cmdWriteWhileBusy) ∧
    (∀ o, exec (.cmdReserved o) s = .refused .cmdWriteWhileBusy)

/-- R204: taking a fault. The phase, STATUS and ERR_POS report it; no byte of OUT is known; every other
register, HIST and IN are unchanged. -/
def Obligations.FaultEntry : Prop :=
  ∀ (s : State) (c : Cause) (pos : Word),
    Faulted s (raise s c pos) c pos ∧
    (∀ j, (raise s c pos).outBuf.find? j = none) ∧
    (raise s c pos).statusWord.toNat / 2 ^ 8 = causeCode c ∧
    (raise s c pos).statusWord.toNat % 2 ^ 8 = (if causeCode c ≤ 6 then 14 else 6)

/-! ## The RLE decoder's tokens -/

/-- R107, R10: RUN with a nonzero count that fits appends count copies of the value to OUT (and to
HIST, R10; not if WIN_COMPRESS were running: the model's reading, DEDUCED, log entry 9), moves p by 2, leaves run_val the value and
run_len 0, and changes nothing else. -/
def Obligations.RunAppendsCopies : Prop :=
  ∀ (s : State) (count value : Byte), s.cfg.Valid → count ≠ 0 →
    s.m.toNat + count.toNat ≤ s.cfg.outCap →
    ∃ t, exec (.run count value) s = .next t ∧
      AppendsOut s t (List.replicate count.toNat value) ∧
      (s.op ≠ opWinCompress → AppendsHist s t (List.replicate count.toNat value)) ∧
      (s.op = opWinCompress → t.hist = s.hist) ∧
      t = { s with
        outBuf := t.outBuf, hist := t.hist, m := t.m, p := s.p + 2, runVal := value, runLen := 0 }

/-- R108: a token whose count byte is 0 raises RLE_ZERO_COUNT at p; its value byte is not used. -/
def Obligations.ZeroCountFaults : Prop :=
  ∀ s : State, s.cfg.Valid → s.hostQueue = [] → s.phase = .busy → s.op = opRleDecompress →
    s.n.toNat % 2 = 0 → s.p.toNat + 1 < s.n.toNat → s.inByte s.p.toNat = 0 →
    ∃ t, step s = .next t ∧ Faulted s t .rleZeroCount s.p ∧ t.statusWord = 0x0000020E

/-- R106, R203: an odd-length stream raises RLE_ODD_LENGTH at n - 1 before any token, whatever its
bytes. -/
def Obligations.OddLengthFaults : Prop :=
  ∀ s : State, s.cfg.Valid → s.hostQueue = [] → s.phase = .busy → s.op = opRleDecompress →
    s.n.toNat % 2 = 1 →
    ∃ t, step s = .next t ∧ Faulted s t .rleOddLength (s.n - 1) ∧ t.statusWord = 0x0000010E

/-! ## The Window decoder's tokens -/

/-- R152, R10: LIT appends its byte to OUT (and to HIST, R157), moves p by 2 and changes nothing else;
with OUT full it raises OUT_CAPACITY at p. That HIST stays when op is WIN_COMPRESS, where no step
executes LIT, is the model's reading against R10 and R157 (DEDUCED, log entry 9). -/
def Obligations.LitAppendsByte : Prop :=
  ∀ (s : State) (value : Byte), s.cfg.Valid →
    (s.m.toNat < s.cfg.outCap →
      ∃ t, exec (.lit value) s = .next t ∧ AppendsOut s t [value] ∧
        (s.op ≠ opWinCompress → AppendsHist s t [value]) ∧
        (s.op = opWinCompress → t.hist = s.hist) ∧
        t = { s with outBuf := t.outBuf, hist := t.hist, m := t.m, p := s.p + 2 }) ∧
    (s.cfg.outCap ≤ s.m.toNat →
      ∃ t, exec (.lit value) s = .next t ∧ Faulted s t .outCapacity s.p ∧
        t.statusWord = 0x00000C06)

/-- R156, R234: MATCH copies byte by byte from distance offset behind the end: OUT[m + i] is
OUT[m - offset + i] as it stands after the token, so a byte written earlier in the same copy is read
again. The bytes go to HIST too (R157). It moves p by 3, leaves copy_off the offset and copy_rem 0, and
changes nothing else. That HIST stays when op is WIN_COMPRESS, where no step executes MATCH, is the
model's reading against R157 (DEDUCED, log entry 9). -/
def Obligations.MatchCopiesOverlapping : Prop :=
  ∀ (s : State) (offset length : Byte), s.cfg.Valid → offset ≠ 0 → offset.toNat ≤ s.m.toNat →
    s.m.toNat + length.toNat ≤ s.cfg.outCap →
    ∃ t, exec (.matchTok offset length) s = .next t ∧
      t.m = s.m + zext length ∧
      (∀ i, i < length.toNat →
        t.outByte (s.m.toNat + i) = t.outByte (s.m.toNat - offset.toNat + i)) ∧
      (∀ j, j < s.m.toNat ∨ s.m.toNat + length.toNat ≤ j → t.outByte j = s.outByte j) ∧
      (s.op ≠ opWinCompress →
        AppendsHist s t ((List.range length.toNat).map fun i => t.outByte (s.m.toNat + i))) ∧
      (s.op = opWinCompress → t.hist = s.hist) ∧
      t = { s with
        outBuf := t.outBuf, hist := t.hist, m := t.m, p := s.p + 3
        copyOff := offset, copyRem := 0 }

/-- R10, R107, R156, R203: RUN whose copies, or MATCH whose copy, do not fit raises OUT_CAPACITY at p,
the token's first byte. Besides the fault record only OUT, OUT_LEN, HIST, m and the token's own
registers may have changed. -/
def Obligations.OverflowFaultsAtToken : Prop :=
  (∀ (s : State) (count value : Byte), s.cfg.Valid → count ≠ 0 → s.m.toNat ≤ s.cfg.outCap →
    s.cfg.outCap < s.m.toNat + count.toNat →
    ∃ t, exec (.run count value) s = .next t ∧ t.statusWord = 0x00000C06 ∧
      t = { s with
        phase := .doneFault .outCapacity, errPos := s.p, outLen := t.outLen, outBuf := t.outBuf
        draw := t.draw, hist := t.hist, m := t.m, runVal := value, runLen := t.runLen }) ∧
  (∀ (s : State) (offset length : Byte), s.cfg.Valid → offset ≠ 0 → offset.toNat ≤ s.m.toNat →
    s.m.toNat ≤ s.cfg.outCap → s.cfg.outCap < s.m.toNat + length.toNat →
    ∃ t, exec (.matchTok offset length) s = .next t ∧ t.statusWord = 0x00000C06 ∧
      t = { s with
        phase := .doneFault .outCapacity, errPos := s.p, outLen := t.outLen, outBuf := t.outBuf
        draw := t.draw, hist := t.hist, m := t.m, copyOff := offset, copyRem := t.copyRem })

/-- R155: a match with offset 0 raises WIN_ZERO_OFFSET at the tag before any byte is copied, whatever
the length. -/
def Obligations.ZeroOffsetFaults : Prop :=
  ∀ s : State, s.cfg.Valid → s.hostQueue = [] → s.phase = .busy → s.op = opWinDecompress →
    s.p.toNat + 2 < s.n.toNat → s.inByte s.p.toNat = 1 → s.inByte (s.p.toNat + 1) = 0 →
    ∃ t, step s = .next t ∧
      Faulted (unpackMatch s 0 (s.inByte (s.p.toNat + 2))) t .winZeroOffset s.p ∧
      t.statusWord = 0x0000060E

/-- R154: a match whose offset exceeds the output count raises WIN_BAD_OFFSET at the tag before any
byte is copied; the comparison is with m, so an offset above WINDOW_SIZE is no fault when m is at least
that large. -/
def Obligations.FarOffsetFaults : Prop :=
  ∀ s : State, s.cfg.Valid → s.hostQueue = [] → s.phase = .busy → s.op = opWinDecompress →
    s.p.toNat + 2 < s.n.toNat → s.inByte s.p.toNat = 1 → s.inByte (s.p.toNat + 1) ≠ 0 →
    (s.m.toNat < (s.inByte (s.p.toNat + 1)).toNat →
      ∃ t, step s = .next t ∧
        Faulted (unpackMatch s (s.inByte (s.p.toNat + 1)) (s.inByte (s.p.toNat + 2))) t
          .winBadOffset s.p ∧
        t.statusWord = 0x0000050E) ∧
    ((s.inByte (s.p.toNat + 1)).toNat ≤ s.m.toNat →
      s.m.toNat + (s.inByte (s.p.toNat + 2)).toNat ≤ s.cfg.outCap →
      ∃ t, step s = .next t ∧ t.phase = .busy)

/-- R158: a tag that is neither 0x00 nor 0x01 raises WIN_BAD_TAG at p, as the last byte of the stream
too. -/
def Obligations.IllegalTagFaults : Prop :=
  ∀ s : State, s.cfg.Valid → s.hostQueue = [] → s.phase = .busy → s.op = opWinDecompress →
    s.p.toNat < s.n.toNat → s.inByte s.p.toNat ≠ 0 → s.inByte s.p.toNat ≠ 1 →
    ∃ t, step s = .next t ∧ Faulted s t .winBadTag s.p ∧ t.statusWord = 0x0000040E

/-- R159: tag 0x00 with no byte after it, or tag 0x01 with fewer than two, raises WIN_TRUNCATED at the
tag. -/
def Obligations.TruncationFaults : Prop :=
  ∀ s : State, s.cfg.Valid → s.hostQueue = [] → s.phase = .busy → s.op = opWinDecompress →
    s.p.toNat < s.n.toNat →
    (s.inByte s.p.toNat = 0 ∧ s.n.toNat ≤ s.p.toNat + 1) ∨
      (s.inByte s.p.toNat = 1 ∧ s.n.toNat ≤ s.p.toNat + 2) →
    ∃ t, step s = .next t ∧ Faulted s t .winTruncated s.p ∧ t.statusWord = 0x0000030E

/-- R106, R108, R158, R159: executing an illegal form takes its fault, in every state. -/
def Obligations.IllegalFormsTakeTheirFault : Prop :=
  ∀ s : State,
    (∀ v, ∃ t, exec (.rleZeroCount v) s = .next t ∧ Faulted s t .rleZeroCount s.p) ∧
    (∀ x, ∃ t, exec (.rleTrailingByte x) s = .next t ∧ Faulted s t .rleOddLength (s.n - 1)) ∧
    (∀ g, ∃ t, exec (.winIllegalTag g) s = .next t ∧ Faulted s t .winBadTag s.p) ∧
    (∃ t, exec .winLitTruncated s = .next t ∧ Faulted s t .winTruncated s.p) ∧
    (∀ o, ∃ t, exec (.winMatchTruncated o) s = .next t ∧ Faulted s t .winTruncated s.p)

/-! ## The encoders' iterations -/

/-- R101, R102: RLE_COMPRESS, while it runs at the start of a run of length `len` whose tokens fit,
appends the split of the run, moves p past the run, leaves run_val the value and run_len the last
token's count, and changes nothing else but HIST cells at the old m on. That one exec emits the whole
run and moves p by its length is the model's choice (log entry 7): R31 moves p by each token's share of
the run. -/
def Obligations.RleCompressEncodesRun : Prop :=
  ∀ (s : State) (len : Nat), s.cfg.Valid → s.phase = .busy → s.op = opRleCompress → RunAt s len →
    s.m.toNat + 2 * ((len - 1) / 255 + 1) ≤ s.cfg.outCap →
    ∃ t, exec .rleCompress s = .next t ∧
      AppendsOut s t ((splitRun 255 (len, s.inByte s.p.toNat)).flatMap packRle) ∧
      (∀ j, (∀ i, i < 2 * ((len - 1) / 255 + 1) → j ≠ (s.m.toNat + i) % s.cfg.histDepth) →
        t.histByte j = s.histByte j) ∧
      t = { s with
        outBuf := t.outBuf, hist := t.hist, m := t.m, p := s.p + BitVec.ofNat 32 len
        runVal := s.inByte s.p.toNat, runLen := BitVec.ofNat 32 (len - 255 * ((len - 1) / 255)) }

/-- R125, R126, R127, R129, R131: WIN_COMPRESS, while it runs at p < n, appends a literal or a match by
the finder's best length, moves p by 1 or by that length, takes the consumed bytes into HIST, and
changes nothing else but the finder's registers. The model's own: that the running command is the
instruction of each iteration (log entry 7), and that emit writes no HIST here (DEDUCED, log entry
9). -/
def Obligations.WinCompressEncodesToken : Prop :=
  ∀ s : State, s.cfg.Valid → s.phase = .busy → s.op = opWinCompress → s.p.toNat < s.n.toNat →
    ((find s).2 < s.cfg.minMatch → s.m.toNat + 2 ≤ s.cfg.outCap →
      ∃ t, exec .winCompress s = .next t ∧ AppendsOut s t [0, s.inByte s.p.toNat] ∧
        ConsumesHist s t 1 ∧
        t = { s with
          outBuf := t.outBuf, hist := t.hist, m := t.m, p := s.p + 1
          bestOff := BitVec.ofNat 8 (find s).1, bestLen := BitVec.ofNat 8 (find s).2
          candOff := t.candOff, candLen := t.candLen }) ∧
    (s.cfg.minMatch ≤ (find s).2 → s.m.toNat + 3 ≤ s.cfg.outCap →
      ∃ t, exec .winCompress s = .next t ∧
        AppendsOut s t [1, BitVec.ofNat 8 (find s).1, BitVec.ofNat 8 (find s).2] ∧
        ConsumesHist s t (find s).2 ∧
        t = { s with
          outBuf := t.outBuf, hist := t.hist, m := t.m, p := s.p + BitVec.ofNat 32 (find s).2
          bestOff := BitVec.ofNat 8 (find s).1, bestLen := BitVec.ofNat 8 (find s).2
          candOff := t.candOff, candLen := t.candLen })

/-- R122: matchlen(p, o) is the largest k with k <= MAX, p + k <= n and the two slices equal. -/
def Obligations.MatchLengthIsLargest : Prop :=
  ∀ (s : State) (o : Nat), 1 ≤ o → o ≤ s.p.toNat → s.p.toNat ≤ s.n.toNat →
    matchLen s o ≤ s.cfg.maxMatch ∧
    s.p.toNat + matchLen s o ≤ s.n.toNat ∧
    (∀ i, i < matchLen s o → s.inByte (s.p.toNat + i) = s.inByte (s.p.toNat - o + i)) ∧
    ∀ k, k ≤ s.cfg.maxMatch → s.p.toNat + k ≤ s.n.toNat →
      (∀ i, i < k → s.inByte (s.p.toNat + i) = s.inByte (s.p.toNat - o + i)) → k ≤ matchLen s o

/-- R121, R123, R124: best_len is the greatest match length over the offsets 1..=min(W, p), 0 with
none; best_off is the least offset that has it, 0 when best_len is 0. No offset above MAX_OFFSET is given. -/
def Obligations.FinderPicksNearestLongest : Prop :=
  ∀ s : State,
    (∀ o, 1 ≤ o → o ≤ min s.cfg.windowSize s.p.toNat → matchLen s o ≤ (find s).2) ∧
    ((find s).2 = 0 → (find s).1 = 0) ∧
    (0 < (find s).2 →
      1 ≤ (find s).1 ∧ (find s).1 ≤ min s.cfg.windowSize s.p.toNat ∧
      matchLen s (find s).1 = (find s).2 ∧
      ∀ o, 1 ≤ o → o < (find s).1 → matchLen s o < (find s).2) ∧
    (s.cfg.Valid → (find s).1 ≤ s.cfg.maxOffset)

/-! ## What no instruction changes -/

/-- R38: no instruction writes IN, IN_LEN, the part's parameters or the host's side. -/
def Obligations.ExecKeepsInput : Prop :=
  ∀ (i : Instr) (s t : State), exec i s = .next t →
    t.inBuf = s.inBuf ∧ t.inLen = s.inLen ∧ t.cfg = s.cfg ∧ t.hostQueue = s.hostQueue ∧
      t.reply = s.reply

/-- R31, R32, R33, R57: while an operation goes on, p and m never move back, OUT below m is never
written again, and n, op and CMD do not change. -/
def Obligations.OutputIsAppendOnly : Prop :=
  ∀ s t : State, Inv s → s.phase = .busy → step s = .next t → t.phase = .busy →
    s.p.toNat ≤ t.p.toNat ∧ s.m.toNat ≤ t.m.toNat ∧ t.n = s.n ∧ t.op = s.op ∧ t.cmd = s.cmd ∧
      ∀ j, j < s.m.toNat → t.outByte j = s.outByte j

/-! ## Invariants -/

/-- Every memory operation of a step keeps IN, OUT and HIST in their canonical form. -/
def Obligations.CanonicalMemoryKept : Prop :=
  ∀ s t : State, s.inBuf.Wf → s.outBuf.Wf → s.hist.Wf → step s = .next t →
    t.inBuf.Wf ∧ t.outBuf.Wf ∧ t.hist.Wf

/-- The invariant holds right after reset, of every part R7 allows and of the source's. -/
def Obligations.InvariantAtReset : Prop :=
  (∀ cfg : Config, cfg.Valid → Inv (State.resetOf cfg)) ∧ Inv State.reset

/-- R26, R31, R32, R33, R35, R57, R59, R74, R104, R131, R132, R182: every step keeps the invariant. -/
def Obligations.InvariantKeptByStep : Prop :=
  ∀ s t : State, Inv s → step s = .next t → Inv t

/-- R104, R132, R200: a running compression never faults, on a part whose shortest match is at least
two bytes (the source's is three). -/
def Obligations.CompressionNeverFaults : Prop :=
  ∀ s t : State, Inv s → s.phase = .busy →
    s.op = opRleCompress ∨ (s.op = opWinCompress ∧ 2 ≤ s.cfg.minMatch) →
    step s = .next t → ∀ c, t.phase ≠ .doneFault c

/-- R202: the causes each command can raise. -/
def Obligations.CausesOfEachCommand : Prop :=
  ∀ (s t : State) (c : Cause), step s = .next t → t.phase = .doneFault c →
    (s.phase = .busy → s.op = opRleDecompress →
      c = .rleOddLength ∨ c = .rleZeroCount ∨ c = .outCapacity) ∧
    (s.phase = .busy → s.op = opWinDecompress →
      c = .winTruncated ∨ c = .winBadTag ∨ c = .winBadOffset ∨ c = .winZeroOffset ∨
        c = .outCapacity) ∧
    (s.phase = .busy → s.op = opRleCompress ∨ s.op = opWinCompress → c = .outCapacity) ∧
    (s.phase ≠ .busy → t.phase = s.phase ∨ c = .badLength ∨ c = .badCommand)

/-- R189: every operation ends: with the host silent, at most n - p tokens or iterations and the
completion are left. That each of these is one step is the model's choice (log entry 7). -/
def Obligations.OperationEnds : Prop :=
  ∀ s : State, Inv s → s.phase = .busy → s.hostQueue = [] →
    ∃ k t, k ≤ s.n.toNat - s.p.toNat + 1 ∧ Reaches k s t ∧ t.phase ≠ .busy

/-! ## What each operation computes -/

/-- R100: `runsOf` gives the runs: they spell the input, none is empty, and neighbours differ. -/
def Obligations.RunsPartitionInput : Prop :=
  ∀ input : List Byte,
    (runsOf input).flatMap (fun r => List.replicate r.1 r.2) = input ∧
    (∀ r ∈ runsOf input, 1 ≤ r.1) ∧
    (runsOf input).IsChain fun a b => a.2 ≠ b.2

/-- R101: the split of a run has counts in 1..=255 that sum to its length, all but the last 255, and
ceil(L/255) of them. -/
def Obligations.SplitCountsSumToRun : Prop :=
  ∀ (len : Nat) (v : Byte), 1 ≤ len →
    ((splitRun 255 (len, v)).map Prod.fst).sum = len ∧
    (∀ r ∈ splitRun 255 (len, v), 1 ≤ r.1 ∧ r.1 ≤ 255 ∧ r.2 = v) ∧
    (splitRun 255 (len, v)).length = (len + 254) / 255 ∧
    ∀ r ∈ (splitRun 255 (len, v)).dropLast, r.1 = 255

/-- R102: RLE_COMPRESS leaves rle_compress of its input in OUT. -/
def Obligations.RleCompressComputes : Prop :=
  ∀ s : State, Started opRleCompress s →
    ∃ k t, Reaches k s t ∧ Shows t (.ok (refRleCompress s.cfg s.inputBytes))

/-- R105 to R108, R203: RLE_DECOMPRESS leaves rle_decompress of its input, or its fault. -/
def Obligations.RleDecompressComputes : Prop :=
  ∀ s : State, Started opRleDecompress s →
    ∃ k t, Reaches k s t ∧ Shows t (refRleDecompress s.cfg s.inputBytes)

/-- R129: WIN_COMPRESS leaves window_compress of its input in OUT (on a part where it cannot
overflow, R132). -/
def Obligations.WinCompressComputes : Prop :=
  ∀ s : State, Started opWinCompress s → 2 ≤ s.cfg.minMatch →
    ∃ k t, Reaches k s t ∧ Shows t (.ok (refWinCompress s.cfg s.inputBytes))

/-- R151 to R160, R203: WIN_DECOMPRESS leaves window_decompress of its input, or its fault. -/
def Obligations.WinDecompressComputes : Prop :=
  ∀ s : State, Started opWinDecompress s →
    ∃ k t, Reaches k s t ∧ Shows t (refWinDecompress s.cfg s.inputBytes)

/-- R104: the RLE encoder at most doubles its input. -/
def Obligations.RleOutputAtMostDoubles : Prop :=
  ∀ (cfg : Config) (input : List Byte), cfg.Valid →
    (refRleCompress cfg input).length = 2 * ((runsOf input).map fun r => (r.1 + 254) / 255).sum ∧
    (refRleCompress cfg input).length ≤ 2 * input.length

/-- R132: the Window encoder at most doubles its input, on a part whose shortest match is at least two
bytes. -/
def Obligations.WinOutputAtMostDoubles : Prop :=
  ∀ (cfg : Config) (input : List Byte), cfg.Valid → 2 ≤ cfg.minMatch →
    (refWinCompress cfg input).length ≤ 2 * input.length

/-- §4.1, R110, on byte lists. -/
def Obligations.RleListRoundTrip : Prop :=
  ∀ (cfg : Config) (input : List Byte), cfg.Valid → input.length ≤ cfg.outCap →
    refRleDecompress cfg (refRleCompress cfg input) = .ok input

/-- §4.2, R162, on byte lists. -/
def Obligations.WinListRoundTrip : Prop :=
  ∀ (cfg : Config) (input : List Byte), cfg.Valid → input.length ≤ cfg.outCap →
    refWinDecompress cfg (refWinCompress cfg input) = .ok input

/-- R110: if RLE_COMPRESS of IN[0..n] completes Ok(y), RLE_DECOMPRESS of y, run with OUT_CAP >= n,
completes Ok(IN[0..n]). -/
def Obligations.RleRoundTrip : Prop :=
  ∀ (s u : State) (k : Nat) (t : State), Started opRleCompress s → Reaches k s t →
    t.phase = .doneOk → Started opRleDecompress u →
    u.inputBytes = t.outputBytes t.outLen.toNat → s.n.toNat ≤ u.cfg.outCap →
    ∃ j v, Reaches j u v ∧ Shows v (.ok s.inputBytes)

/-- R162: if WIN_COMPRESS of IN[0..n] completes Ok(y), WIN_DECOMPRESS of y, run with OUT_CAP >= n,
completes Ok(IN[0..n]), given the length limits (MIN >= 2; the source's is 3). -/
def Obligations.WinRoundTrip : Prop :=
  ∀ (s u : State) (k : Nat) (t : State), Started opWinCompress s → 2 ≤ s.cfg.minMatch →
    Reaches k s t → t.phase = .doneOk → Started opWinDecompress u →
    u.inputBytes = t.outputBytes t.outLen.toNat → s.n.toNat ≤ u.cfg.outCap →
    ∃ j v, Reaches j u v ∧ Shows v (.ok s.inputBytes)

/-- R41, R133, R190, R232: an operation's result is a function of its input and the part: two starts of
one operation on the same bytes end alike, whatever HIST, OUT and the registers held. -/
def Obligations.OperationsAreIndependent : Prop :=
  ∀ (o : Op) (s u : State) (k : Nat) (t : State), Started o s → Started o u → s.cfg = u.cfg →
    (o = opWinCompress → 2 ≤ s.cfg.minMatch) → s.inputBytes = u.inputBytes →
    Reaches k s t → t.phase ≠ .busy →
    ∃ j v, Reaches j u v ∧ v.phase = t.phase ∧ v.errPos = t.errPos ∧
      (t.phase = .doneOk → v.outLen = t.outLen ∧
        v.outputBytes v.outLen.toNat = t.outputBytes t.outLen.toNat)

/-! ## Reset and the host's duties -/

/-- R43: the values the spec gives for reset. -/
def Obligations.ResetValues : Prop :=
  State.reset.phase = .idle ∧ regRead State.reset 0x00 = 0x00000000 ∧
  regRead State.reset 0x04 = 0x00000000 ∧ regRead State.reset 0x08 = 0x00000000 ∧
  regRead State.reset 0x0C = 0x00000000 ∧ regRead State.reset 0x10 = 0x00000000 ∧
  regRead State.reset 0x14 = 0xFFFF0314

/-- R230, R231: the reset signal, in every phase: IDLE, the registers at their reset values, no byte of
IN, OUT or HIST known; a running operation is abandoned. -/
def Obligations.ResetSignal : Prop :=
  ∀ (s : State) (rest : List HostOp), s.cfg.Valid → s.hostQueue = .reset :: rest →
    ∃ t, step s = .next t ∧ t.phase = .idle ∧ t.statusWord = 0x00000000 ∧ t.cmd = 0 ∧
      t.inLen = 0 ∧ t.outLen = 0 ∧ t.errPos = 0 ∧ t.cfg = s.cfg ∧ t.hostQueue = rest ∧
      ∀ j, t.inBuf.find? j = none ∧ t.outBuf.find? j = none ∧ t.hist.find? j = none

/-- R187: what the host must not do while BUSY = 1 is refused, by name. -/
def Obligations.BusyDutiesRefused : Prop :=
  ∀ (s : State) (rest : List HostOp), s.cfg.Valid → s.phase = .busy →
    (∀ w, s.hostQueue = .writeReg 0x00 w :: rest → step s = .refused .cmdWriteWhileBusy) ∧
    (∀ w, s.hostQueue = .writeReg 0x08 w :: rest → step s = .refused .inLenWriteWhileBusy) ∧
    (∀ i b, s.hostQueue = .writeIn i b :: rest → step s = .refused .inWriteWhileBusy) ∧
    (∀ i, s.hostQueue = .readOut i :: rest → step s = .refused .outAccessWhileBusy) ∧
    (∀ i b, s.hostQueue = .writeOut i b :: rest → step s = .refused .outAccessWhileBusy)

/-- R51, R55, R56: the host's byte accesses while not BUSY: a write sets the one byte and nothing else,
a read answers the byte, an index at or above the capacity does not exist. That a written OUT byte
reads back and that such an index faults are the model's readings (log entries 10 and 11). -/
def Obligations.HostByteAccesses : Prop :=
  ∀ (s : State) (rest : List HostOp) (i : Nat), s.cfg.Valid → s.phase ≠ .busy →
    (∀ b, s.hostQueue = .writeIn i b :: rest → i < s.cfg.inCap →
      ∃ t, step s = .next t ∧ t.inByte i = b ∧ (∀ j, j ≠ i → t.inByte j = s.inByte j) ∧
        t = { s with hostQueue := rest, inBuf := t.inBuf }) ∧
    (∀ b, s.hostQueue = .writeOut i b :: rest → i < s.cfg.outCap →
      ∃ t, step s = .next t ∧ t.outByte i = b ∧ (∀ j, j ≠ i → t.outByte j = s.outByte j) ∧
        t = { s with hostQueue := rest, outBuf := t.outBuf }) ∧
    (s.hostQueue = .readIn i :: rest → i < s.cfg.inCap →
      step s = .next { s with hostQueue := rest, reply := some (zext (s.inByte i)) }) ∧
    (s.hostQueue = .readOut i :: rest → i < s.cfg.outCap →
      step s = .next { s with hostQueue := rest, reply := some (zext (s.outByte i)) }) ∧
    (s.hostQueue = .readIn i :: rest → s.cfg.inCap ≤ i → step s = .fault .noSuchInByte) ∧
    (s.hostQueue = .readOut i :: rest → s.cfg.outCap ≤ i → step s = .fault .noSuchOutByte)

/-- R184: a poll answers STATUS; with DONE = 1 it is over, with DONE = 0 it stays and the engine
moves. -/
def Obligations.PollWaitsForDone : Prop :=
  ∀ (s : State) (rest : List HostOp), s.cfg.Valid → s.hostQueue = .poll :: rest →
    (s.phase ≠ .idle → s.phase ≠ .busy →
      step s = .next { s with hostQueue := rest, reply := some s.statusWord }) ∧
    (s.phase = .idle → step s = .next { s with reply := some s.statusWord }) ∧
    (s.phase = .busy →
      step s = exec (engineFetch s) { s with reply := some s.statusWord })

/-- R7: a configuration that breaks a constraint is refused. That a REG_WIDTH other than R21's 32 is
refused as well is the model's reading (DEDUCED, log entry 25). -/
def Obligations.BadConfigurationRefused : Prop :=
  ∀ s : State, ¬ s.cfg.Valid → step s = .refused .badConfiguration
end

