-- ==== Sys2Proof/Laws/State.lean ====
section
/-!
SUPPORT. What each named update of the state leaves in each field, true by rfl, so that no proof
unfolds a record update. `start` has its two cases here as equations.
-/

namespace Sys2Proof.Machine

variable (s : State)

/-! ## answer -/

@[simp] theorem answer_cfg (w : Word) : (answer s w).cfg = s.cfg := rfl
@[simp] theorem answer_phase (w : Word) : (answer s w).phase = s.phase := rfl
@[simp] theorem answer_cmd (w : Word) : (answer s w).cmd = s.cmd := rfl
@[simp] theorem answer_inLen (w : Word) : (answer s w).inLen = s.inLen := rfl
@[simp] theorem answer_outLen (w : Word) : (answer s w).outLen = s.outLen := rfl
@[simp] theorem answer_errPos (w : Word) : (answer s w).errPos = s.errPos := rfl
@[simp] theorem answer_p (w : Word) : (answer s w).p = s.p := rfl
@[simp] theorem answer_m (w : Word) : (answer s w).m = s.m := rfl
@[simp] theorem answer_n (w : Word) : (answer s w).n = s.n := rfl
@[simp] theorem answer_op (w : Word) : (answer s w).op = s.op := rfl
@[simp] theorem answer_runVal (w : Word) : (answer s w).runVal = s.runVal := rfl
@[simp] theorem answer_runLen (w : Word) : (answer s w).runLen = s.runLen := rfl
@[simp] theorem answer_candOff (w : Word) : (answer s w).candOff = s.candOff := rfl
@[simp] theorem answer_candLen (w : Word) : (answer s w).candLen = s.candLen := rfl
@[simp] theorem answer_bestOff (w : Word) : (answer s w).bestOff = s.bestOff := rfl
@[simp] theorem answer_bestLen (w : Word) : (answer s w).bestLen = s.bestLen := rfl
@[simp] theorem answer_copyOff (w : Word) : (answer s w).copyOff = s.copyOff := rfl
@[simp] theorem answer_copyRem (w : Word) : (answer s w).copyRem = s.copyRem := rfl
@[simp] theorem answer_hist (w : Word) : (answer s w).hist = s.hist := rfl
@[simp] theorem answer_inBuf (w : Word) : (answer s w).inBuf = s.inBuf := rfl
@[simp] theorem answer_outBuf (w : Word) : (answer s w).outBuf = s.outBuf := rfl
@[simp] theorem answer_draw (w : Word) : (answer s w).draw = s.draw := rfl
@[simp] theorem answer_hostQueue (w : Word) : (answer s w).hostQueue = s.hostQueue := rfl
@[simp] theorem answer_reply (w : Word) : (answer s w).reply = some w := rfl

/-! ## histWrite -/

@[simp] theorem histWrite_cfg (i : Nat) (b : Byte) : (histWrite s i b).cfg = s.cfg := rfl
@[simp] theorem histWrite_phase (i : Nat) (b : Byte) : (histWrite s i b).phase = s.phase := rfl
@[simp] theorem histWrite_cmd (i : Nat) (b : Byte) : (histWrite s i b).cmd = s.cmd := rfl
@[simp] theorem histWrite_inLen (i : Nat) (b : Byte) : (histWrite s i b).inLen = s.inLen := rfl
@[simp] theorem histWrite_outLen (i : Nat) (b : Byte) : (histWrite s i b).outLen = s.outLen := rfl
@[simp] theorem histWrite_errPos (i : Nat) (b : Byte) : (histWrite s i b).errPos = s.errPos := rfl
@[simp] theorem histWrite_p (i : Nat) (b : Byte) : (histWrite s i b).p = s.p := rfl
@[simp] theorem histWrite_m (i : Nat) (b : Byte) : (histWrite s i b).m = s.m := rfl
@[simp] theorem histWrite_n (i : Nat) (b : Byte) : (histWrite s i b).n = s.n := rfl
@[simp] theorem histWrite_op (i : Nat) (b : Byte) : (histWrite s i b).op = s.op := rfl
@[simp] theorem histWrite_runVal (i : Nat) (b : Byte) : (histWrite s i b).runVal = s.runVal := rfl
@[simp] theorem histWrite_runLen (i : Nat) (b : Byte) : (histWrite s i b).runLen = s.runLen := rfl
@[simp] theorem histWrite_candOff (i : Nat) (b : Byte) :
    (histWrite s i b).candOff = s.candOff := rfl
@[simp] theorem histWrite_candLen (i : Nat) (b : Byte) :
    (histWrite s i b).candLen = s.candLen := rfl
@[simp] theorem histWrite_bestOff (i : Nat) (b : Byte) :
    (histWrite s i b).bestOff = s.bestOff := rfl
@[simp] theorem histWrite_bestLen (i : Nat) (b : Byte) :
    (histWrite s i b).bestLen = s.bestLen := rfl
@[simp] theorem histWrite_copyOff (i : Nat) (b : Byte) :
    (histWrite s i b).copyOff = s.copyOff := rfl
@[simp] theorem histWrite_copyRem (i : Nat) (b : Byte) :
    (histWrite s i b).copyRem = s.copyRem := rfl
@[simp] theorem histWrite_hist (i : Nat) (b : Byte) :
    (histWrite s i b).hist = s.hist.write (i % s.cfg.histDepth) b := rfl
@[simp] theorem histWrite_inBuf (i : Nat) (b : Byte) : (histWrite s i b).inBuf = s.inBuf := rfl
@[simp] theorem histWrite_outBuf (i : Nat) (b : Byte) : (histWrite s i b).outBuf = s.outBuf := rfl
@[simp] theorem histWrite_draw (i : Nat) (b : Byte) : (histWrite s i b).draw = s.draw := rfl
@[simp] theorem histWrite_hostQueue (i : Nat) (b : Byte) :
    (histWrite s i b).hostQueue = s.hostQueue := rfl
@[simp] theorem histWrite_reply (i : Nat) (b : Byte) : (histWrite s i b).reply = s.reply := rfl

/-! ## raise -/

@[simp] theorem raise_cfg (c : Cause) (pos : Word) : (raise s c pos).cfg = s.cfg := rfl
@[simp] theorem raise_phase (c : Cause) (pos : Word) : (raise s c pos).phase = .doneFault c := rfl
@[simp] theorem raise_cmd (c : Cause) (pos : Word) : (raise s c pos).cmd = s.cmd := rfl
@[simp] theorem raise_inLen (c : Cause) (pos : Word) : (raise s c pos).inLen = s.inLen := rfl
@[simp] theorem raise_outLen (c : Cause) (pos : Word) :
    (raise s c pos).outLen = Config.freeOutLen (s.draw + 1) s.p := rfl
@[simp] theorem raise_errPos (c : Cause) (pos : Word) : (raise s c pos).errPos = pos := rfl
@[simp] theorem raise_p (c : Cause) (pos : Word) : (raise s c pos).p = s.p := rfl
@[simp] theorem raise_m (c : Cause) (pos : Word) : (raise s c pos).m = s.m := rfl
@[simp] theorem raise_n (c : Cause) (pos : Word) : (raise s c pos).n = s.n := rfl
@[simp] theorem raise_op (c : Cause) (pos : Word) : (raise s c pos).op = s.op := rfl
@[simp] theorem raise_runVal (c : Cause) (pos : Word) : (raise s c pos).runVal = s.runVal := rfl
@[simp] theorem raise_runLen (c : Cause) (pos : Word) : (raise s c pos).runLen = s.runLen := rfl
@[simp] theorem raise_candOff (c : Cause) (pos : Word) : (raise s c pos).candOff = s.candOff := rfl
@[simp] theorem raise_candLen (c : Cause) (pos : Word) : (raise s c pos).candLen = s.candLen := rfl
@[simp] theorem raise_bestOff (c : Cause) (pos : Word) : (raise s c pos).bestOff = s.bestOff := rfl
@[simp] theorem raise_bestLen (c : Cause) (pos : Word) : (raise s c pos).bestLen = s.bestLen := rfl
@[simp] theorem raise_copyOff (c : Cause) (pos : Word) : (raise s c pos).copyOff = s.copyOff := rfl
@[simp] theorem raise_copyRem (c : Cause) (pos : Word) : (raise s c pos).copyRem = s.copyRem := rfl
@[simp] theorem raise_hist (c : Cause) (pos : Word) : (raise s c pos).hist = s.hist := rfl
@[simp] theorem raise_inBuf (c : Cause) (pos : Word) : (raise s c pos).inBuf = s.inBuf := rfl
@[simp] theorem raise_outBuf (c : Cause) (pos : Word) :
    (raise s c pos).outBuf = s.outBuf.forget (s.draw + 1) := rfl
@[simp] theorem raise_draw (c : Cause) (pos : Word) : (raise s c pos).draw = s.draw + 1 := rfl
@[simp] theorem raise_hostQueue (c : Cause) (pos : Word) :
    (raise s c pos).hostQueue = s.hostQueue := rfl
@[simp] theorem raise_reply (c : Cause) (pos : Word) : (raise s c pos).reply = s.reply := rfl

/-! ## failStart -/

@[simp] theorem failStart_cfg (c : Cause) : (failStart s c).cfg = s.cfg := rfl
@[simp] theorem failStart_phase (c : Cause) : (failStart s c).phase = .doneFault c := rfl
@[simp] theorem failStart_cmd (c : Cause) : (failStart s c).cmd = s.cmd := rfl
@[simp] theorem failStart_inLen (c : Cause) : (failStart s c).inLen = s.inLen := rfl
@[simp] theorem failStart_outLen (c : Cause) : (failStart s c).outLen = s.outLen := rfl
@[simp] theorem failStart_errPos (c : Cause) : (failStart s c).errPos = 0 := rfl
@[simp] theorem failStart_p (c : Cause) : (failStart s c).p = s.p := rfl
@[simp] theorem failStart_m (c : Cause) : (failStart s c).m = s.m := rfl
@[simp] theorem failStart_n (c : Cause) : (failStart s c).n = s.n := rfl
@[simp] theorem failStart_op (c : Cause) : (failStart s c).op = s.op := rfl
@[simp] theorem failStart_runVal (c : Cause) : (failStart s c).runVal = s.runVal := rfl
@[simp] theorem failStart_runLen (c : Cause) : (failStart s c).runLen = s.runLen := rfl
@[simp] theorem failStart_candOff (c : Cause) : (failStart s c).candOff = s.candOff := rfl
@[simp] theorem failStart_candLen (c : Cause) : (failStart s c).candLen = s.candLen := rfl
@[simp] theorem failStart_bestOff (c : Cause) : (failStart s c).bestOff = s.bestOff := rfl
@[simp] theorem failStart_bestLen (c : Cause) : (failStart s c).bestLen = s.bestLen := rfl
@[simp] theorem failStart_copyOff (c : Cause) : (failStart s c).copyOff = s.copyOff := rfl
@[simp] theorem failStart_copyRem (c : Cause) : (failStart s c).copyRem = s.copyRem := rfl
@[simp] theorem failStart_hist (c : Cause) : (failStart s c).hist = s.hist := rfl
@[simp] theorem failStart_inBuf (c : Cause) : (failStart s c).inBuf = s.inBuf := rfl
@[simp] theorem failStart_outBuf (c : Cause) : (failStart s c).outBuf = s.outBuf := rfl
@[simp] theorem failStart_draw (c : Cause) : (failStart s c).draw = s.draw := rfl
@[simp] theorem failStart_hostQueue (c : Cause) : (failStart s c).hostQueue = s.hostQueue := rfl
@[simp] theorem failStart_reply (c : Cause) : (failStart s c).reply = s.reply := rfl

/-! ## rejectCommand -/

@[simp] theorem rejectCommand_cfg (o : Op) : (rejectCommand s o).cfg = s.cfg := rfl
@[simp] theorem rejectCommand_phase (o : Op) :
    (rejectCommand s o).phase = .doneFault .badCommand := rfl
@[simp] theorem rejectCommand_cmd (o : Op) : (rejectCommand s o).cmd = o := rfl
@[simp] theorem rejectCommand_inLen (o : Op) : (rejectCommand s o).inLen = s.inLen := rfl
@[simp] theorem rejectCommand_outLen (o : Op) : (rejectCommand s o).outLen = s.outLen := rfl
@[simp] theorem rejectCommand_errPos (o : Op) : (rejectCommand s o).errPos = 0 := rfl
@[simp] theorem rejectCommand_p (o : Op) : (rejectCommand s o).p = s.p := rfl
@[simp] theorem rejectCommand_m (o : Op) : (rejectCommand s o).m = s.m := rfl
@[simp] theorem rejectCommand_n (o : Op) : (rejectCommand s o).n = s.n := rfl
@[simp] theorem rejectCommand_op (o : Op) : (rejectCommand s o).op = s.op := rfl
@[simp] theorem rejectCommand_runVal (o : Op) : (rejectCommand s o).runVal = s.runVal := rfl
@[simp] theorem rejectCommand_runLen (o : Op) : (rejectCommand s o).runLen = s.runLen := rfl
@[simp] theorem rejectCommand_candOff (o : Op) : (rejectCommand s o).candOff = s.candOff := rfl
@[simp] theorem rejectCommand_candLen (o : Op) : (rejectCommand s o).candLen = s.candLen := rfl
@[simp] theorem rejectCommand_bestOff (o : Op) : (rejectCommand s o).bestOff = s.bestOff := rfl
@[simp] theorem rejectCommand_bestLen (o : Op) : (rejectCommand s o).bestLen = s.bestLen := rfl
@[simp] theorem rejectCommand_copyOff (o : Op) : (rejectCommand s o).copyOff = s.copyOff := rfl
@[simp] theorem rejectCommand_copyRem (o : Op) : (rejectCommand s o).copyRem = s.copyRem := rfl
@[simp] theorem rejectCommand_hist (o : Op) : (rejectCommand s o).hist = s.hist := rfl
@[simp] theorem rejectCommand_inBuf (o : Op) : (rejectCommand s o).inBuf = s.inBuf := rfl
@[simp] theorem rejectCommand_outBuf (o : Op) : (rejectCommand s o).outBuf = s.outBuf := rfl
@[simp] theorem rejectCommand_draw (o : Op) : (rejectCommand s o).draw = s.draw := rfl
@[simp] theorem rejectCommand_hostQueue (o : Op) :
    (rejectCommand s o).hostQueue = s.hostQueue := rfl
@[simp] theorem rejectCommand_reply (o : Op) : (rejectCommand s o).reply = s.reply := rfl

/-! ## complete -/

@[simp] theorem complete_cfg : (complete s).cfg = s.cfg := rfl
@[simp] theorem complete_phase : (complete s).phase = .doneOk := rfl
@[simp] theorem complete_cmd : (complete s).cmd = s.cmd := rfl
@[simp] theorem complete_inLen : (complete s).inLen = s.inLen := rfl
@[simp] theorem complete_outLen : (complete s).outLen = s.m := rfl
@[simp] theorem complete_errPos : (complete s).errPos = s.errPos := rfl
@[simp] theorem complete_p : (complete s).p = s.p := rfl
@[simp] theorem complete_m : (complete s).m = s.m := rfl
@[simp] theorem complete_n : (complete s).n = s.n := rfl
@[simp] theorem complete_op : (complete s).op = s.op := rfl
@[simp] theorem complete_runVal : (complete s).runVal = s.runVal := rfl
@[simp] theorem complete_runLen : (complete s).runLen = s.runLen := rfl
@[simp] theorem complete_candOff : (complete s).candOff = s.candOff := rfl
@[simp] theorem complete_candLen : (complete s).candLen = s.candLen := rfl
@[simp] theorem complete_bestOff : (complete s).bestOff = s.bestOff := rfl
@[simp] theorem complete_bestLen : (complete s).bestLen = s.bestLen := rfl
@[simp] theorem complete_copyOff : (complete s).copyOff = s.copyOff := rfl
@[simp] theorem complete_copyRem : (complete s).copyRem = s.copyRem := rfl
@[simp] theorem complete_hist : (complete s).hist = s.hist := rfl
@[simp] theorem complete_inBuf : (complete s).inBuf = s.inBuf := rfl
@[simp] theorem complete_outBuf :
    (complete s).outBuf = s.outBuf.keepBelow s.m.toNat (s.draw + 1) := rfl
@[simp] theorem complete_draw : (complete s).draw = s.draw + 1 := rfl
@[simp] theorem complete_hostQueue : (complete s).hostQueue = s.hostQueue := rfl
@[simp] theorem complete_reply : (complete s).reply = s.reply := rfl

/-! ## appendByte -/

@[simp] theorem appendByte_cfg (v : Byte) : (appendByte s v).cfg = s.cfg := rfl
@[simp] theorem appendByte_phase (v : Byte) : (appendByte s v).phase = s.phase := rfl
@[simp] theorem appendByte_cmd (v : Byte) : (appendByte s v).cmd = s.cmd := rfl
@[simp] theorem appendByte_inLen (v : Byte) : (appendByte s v).inLen = s.inLen := rfl
@[simp] theorem appendByte_outLen (v : Byte) : (appendByte s v).outLen = s.outLen := rfl
@[simp] theorem appendByte_errPos (v : Byte) : (appendByte s v).errPos = s.errPos := rfl
@[simp] theorem appendByte_p (v : Byte) : (appendByte s v).p = s.p := rfl
@[simp] theorem appendByte_m (v : Byte) : (appendByte s v).m = s.m + 1 := rfl
@[simp] theorem appendByte_n (v : Byte) : (appendByte s v).n = s.n := rfl
@[simp] theorem appendByte_op (v : Byte) : (appendByte s v).op = s.op := rfl
@[simp] theorem appendByte_runVal (v : Byte) : (appendByte s v).runVal = s.runVal := rfl
@[simp] theorem appendByte_runLen (v : Byte) : (appendByte s v).runLen = s.runLen := rfl
@[simp] theorem appendByte_candOff (v : Byte) : (appendByte s v).candOff = s.candOff := rfl
@[simp] theorem appendByte_candLen (v : Byte) : (appendByte s v).candLen = s.candLen := rfl
@[simp] theorem appendByte_bestOff (v : Byte) : (appendByte s v).bestOff = s.bestOff := rfl
@[simp] theorem appendByte_bestLen (v : Byte) : (appendByte s v).bestLen = s.bestLen := rfl
@[simp] theorem appendByte_copyOff (v : Byte) : (appendByte s v).copyOff = s.copyOff := rfl
@[simp] theorem appendByte_copyRem (v : Byte) : (appendByte s v).copyRem = s.copyRem := rfl
@[simp] theorem appendByte_hist (v : Byte) : (appendByte s v).hist = if s.op = opWinCompress then s.hist
      else s.hist.write (s.m.toNat % s.cfg.histDepth) v := rfl
@[simp] theorem appendByte_inBuf (v : Byte) : (appendByte s v).inBuf = s.inBuf := rfl
@[simp] theorem appendByte_outBuf (v : Byte) :
    (appendByte s v).outBuf = s.outBuf.write s.m.toNat v := rfl
@[simp] theorem appendByte_draw (v : Byte) : (appendByte s v).draw = s.draw := rfl
@[simp] theorem appendByte_hostQueue (v : Byte) : (appendByte s v).hostQueue = s.hostQueue := rfl
@[simp] theorem appendByte_reply (v : Byte) : (appendByte s v).reply = s.reply := rfl

/-! ## advance -/

@[simp] theorem advance_cfg (k : Word) : (advance s k).cfg = s.cfg := rfl
@[simp] theorem advance_phase (k : Word) : (advance s k).phase = s.phase := rfl
@[simp] theorem advance_cmd (k : Word) : (advance s k).cmd = s.cmd := rfl
@[simp] theorem advance_inLen (k : Word) : (advance s k).inLen = s.inLen := rfl
@[simp] theorem advance_outLen (k : Word) : (advance s k).outLen = s.outLen := rfl
@[simp] theorem advance_errPos (k : Word) : (advance s k).errPos = s.errPos := rfl
@[simp] theorem advance_p (k : Word) : (advance s k).p = s.p + k := rfl
@[simp] theorem advance_m (k : Word) : (advance s k).m = s.m := rfl
@[simp] theorem advance_n (k : Word) : (advance s k).n = s.n := rfl
@[simp] theorem advance_op (k : Word) : (advance s k).op = s.op := rfl
@[simp] theorem advance_runVal (k : Word) : (advance s k).runVal = s.runVal := rfl
@[simp] theorem advance_runLen (k : Word) : (advance s k).runLen = s.runLen := rfl
@[simp] theorem advance_candOff (k : Word) : (advance s k).candOff = s.candOff := rfl
@[simp] theorem advance_candLen (k : Word) : (advance s k).candLen = s.candLen := rfl
@[simp] theorem advance_bestOff (k : Word) : (advance s k).bestOff = s.bestOff := rfl
@[simp] theorem advance_bestLen (k : Word) : (advance s k).bestLen = s.bestLen := rfl
@[simp] theorem advance_copyOff (k : Word) : (advance s k).copyOff = s.copyOff := rfl
@[simp] theorem advance_copyRem (k : Word) : (advance s k).copyRem = s.copyRem := rfl
@[simp] theorem advance_hist (k : Word) : (advance s k).hist = s.hist := rfl
@[simp] theorem advance_inBuf (k : Word) : (advance s k).inBuf = s.inBuf := rfl
@[simp] theorem advance_outBuf (k : Word) : (advance s k).outBuf = s.outBuf := rfl
@[simp] theorem advance_draw (k : Word) : (advance s k).draw = s.draw := rfl
@[simp] theorem advance_hostQueue (k : Word) : (advance s k).hostQueue = s.hostQueue := rfl
@[simp] theorem advance_reply (k : Word) : (advance s k).reply = s.reply := rfl

/-! ## loadRun -/

@[simp] theorem loadRun_cfg (v : Byte) (len : Word) : (loadRun s v len).cfg = s.cfg := rfl
@[simp] theorem loadRun_phase (v : Byte) (len : Word) : (loadRun s v len).phase = s.phase := rfl
@[simp] theorem loadRun_cmd (v : Byte) (len : Word) : (loadRun s v len).cmd = s.cmd := rfl
@[simp] theorem loadRun_inLen (v : Byte) (len : Word) : (loadRun s v len).inLen = s.inLen := rfl
@[simp] theorem loadRun_outLen (v : Byte) (len : Word) : (loadRun s v len).outLen = s.outLen := rfl
@[simp] theorem loadRun_errPos (v : Byte) (len : Word) : (loadRun s v len).errPos = s.errPos := rfl
@[simp] theorem loadRun_p (v : Byte) (len : Word) : (loadRun s v len).p = s.p := rfl
@[simp] theorem loadRun_m (v : Byte) (len : Word) : (loadRun s v len).m = s.m := rfl
@[simp] theorem loadRun_n (v : Byte) (len : Word) : (loadRun s v len).n = s.n := rfl
@[simp] theorem loadRun_op (v : Byte) (len : Word) : (loadRun s v len).op = s.op := rfl
@[simp] theorem loadRun_runVal (v : Byte) (len : Word) : (loadRun s v len).runVal = v := rfl
@[simp] theorem loadRun_runLen (v : Byte) (len : Word) : (loadRun s v len).runLen = len := rfl
@[simp] theorem loadRun_candOff (v : Byte) (len : Word) :
    (loadRun s v len).candOff = s.candOff := rfl
@[simp] theorem loadRun_candLen (v : Byte) (len : Word) :
    (loadRun s v len).candLen = s.candLen := rfl
@[simp] theorem loadRun_bestOff (v : Byte) (len : Word) :
    (loadRun s v len).bestOff = s.bestOff := rfl
@[simp] theorem loadRun_bestLen (v : Byte) (len : Word) :
    (loadRun s v len).bestLen = s.bestLen := rfl
@[simp] theorem loadRun_copyOff (v : Byte) (len : Word) :
    (loadRun s v len).copyOff = s.copyOff := rfl
@[simp] theorem loadRun_copyRem (v : Byte) (len : Word) :
    (loadRun s v len).copyRem = s.copyRem := rfl
@[simp] theorem loadRun_hist (v : Byte) (len : Word) : (loadRun s v len).hist = s.hist := rfl
@[simp] theorem loadRun_inBuf (v : Byte) (len : Word) : (loadRun s v len).inBuf = s.inBuf := rfl
@[simp] theorem loadRun_outBuf (v : Byte) (len : Word) : (loadRun s v len).outBuf = s.outBuf := rfl
@[simp] theorem loadRun_draw (v : Byte) (len : Word) : (loadRun s v len).draw = s.draw := rfl
@[simp] theorem loadRun_hostQueue (v : Byte) (len : Word) :
    (loadRun s v len).hostQueue = s.hostQueue := rfl
@[simp] theorem loadRun_reply (v : Byte) (len : Word) : (loadRun s v len).reply = s.reply := rfl

/-! ## takeFromRun -/

@[simp] theorem takeFromRun_cfg (k : Word) : (takeFromRun s k).cfg = s.cfg := rfl
@[simp] theorem takeFromRun_phase (k : Word) : (takeFromRun s k).phase = s.phase := rfl
@[simp] theorem takeFromRun_cmd (k : Word) : (takeFromRun s k).cmd = s.cmd := rfl
@[simp] theorem takeFromRun_inLen (k : Word) : (takeFromRun s k).inLen = s.inLen := rfl
@[simp] theorem takeFromRun_outLen (k : Word) : (takeFromRun s k).outLen = s.outLen := rfl
@[simp] theorem takeFromRun_errPos (k : Word) : (takeFromRun s k).errPos = s.errPos := rfl
@[simp] theorem takeFromRun_p (k : Word) : (takeFromRun s k).p = s.p := rfl
@[simp] theorem takeFromRun_m (k : Word) : (takeFromRun s k).m = s.m := rfl
@[simp] theorem takeFromRun_n (k : Word) : (takeFromRun s k).n = s.n := rfl
@[simp] theorem takeFromRun_op (k : Word) : (takeFromRun s k).op = s.op := rfl
@[simp] theorem takeFromRun_runVal (k : Word) : (takeFromRun s k).runVal = s.runVal := rfl
@[simp] theorem takeFromRun_runLen (k : Word) : (takeFromRun s k).runLen = s.runLen - k := rfl
@[simp] theorem takeFromRun_candOff (k : Word) : (takeFromRun s k).candOff = s.candOff := rfl
@[simp] theorem takeFromRun_candLen (k : Word) : (takeFromRun s k).candLen = s.candLen := rfl
@[simp] theorem takeFromRun_bestOff (k : Word) : (takeFromRun s k).bestOff = s.bestOff := rfl
@[simp] theorem takeFromRun_bestLen (k : Word) : (takeFromRun s k).bestLen = s.bestLen := rfl
@[simp] theorem takeFromRun_copyOff (k : Word) : (takeFromRun s k).copyOff = s.copyOff := rfl
@[simp] theorem takeFromRun_copyRem (k : Word) : (takeFromRun s k).copyRem = s.copyRem := rfl
@[simp] theorem takeFromRun_hist (k : Word) : (takeFromRun s k).hist = s.hist := rfl
@[simp] theorem takeFromRun_inBuf (k : Word) : (takeFromRun s k).inBuf = s.inBuf := rfl
@[simp] theorem takeFromRun_outBuf (k : Word) : (takeFromRun s k).outBuf = s.outBuf := rfl
@[simp] theorem takeFromRun_draw (k : Word) : (takeFromRun s k).draw = s.draw := rfl
@[simp] theorem takeFromRun_hostQueue (k : Word) : (takeFromRun s k).hostQueue = s.hostQueue := rfl
@[simp] theorem takeFromRun_reply (k : Word) : (takeFromRun s k).reply = s.reply := rfl

/-! ## countCopied -/

@[simp] theorem countCopied_cfg : (countCopied s).cfg = s.cfg := rfl
@[simp] theorem countCopied_phase : (countCopied s).phase = s.phase := rfl
@[simp] theorem countCopied_cmd : (countCopied s).cmd = s.cmd := rfl
@[simp] theorem countCopied_inLen : (countCopied s).inLen = s.inLen := rfl
@[simp] theorem countCopied_outLen : (countCopied s).outLen = s.outLen := rfl
@[simp] theorem countCopied_errPos : (countCopied s).errPos = s.errPos := rfl
@[simp] theorem countCopied_p : (countCopied s).p = s.p := rfl
@[simp] theorem countCopied_m : (countCopied s).m = s.m := rfl
@[simp] theorem countCopied_n : (countCopied s).n = s.n := rfl
@[simp] theorem countCopied_op : (countCopied s).op = s.op := rfl
@[simp] theorem countCopied_runVal : (countCopied s).runVal = s.runVal := rfl
@[simp] theorem countCopied_runLen : (countCopied s).runLen = s.runLen := rfl
@[simp] theorem countCopied_candOff : (countCopied s).candOff = s.candOff := rfl
@[simp] theorem countCopied_candLen : (countCopied s).candLen = s.candLen := rfl
@[simp] theorem countCopied_bestOff : (countCopied s).bestOff = s.bestOff := rfl
@[simp] theorem countCopied_bestLen : (countCopied s).bestLen = s.bestLen := rfl
@[simp] theorem countCopied_copyOff : (countCopied s).copyOff = s.copyOff := rfl
@[simp] theorem countCopied_copyRem : (countCopied s).copyRem = s.copyRem - 1 := rfl
@[simp] theorem countCopied_hist : (countCopied s).hist = s.hist := rfl
@[simp] theorem countCopied_inBuf : (countCopied s).inBuf = s.inBuf := rfl
@[simp] theorem countCopied_outBuf : (countCopied s).outBuf = s.outBuf := rfl
@[simp] theorem countCopied_draw : (countCopied s).draw = s.draw := rfl
@[simp] theorem countCopied_hostQueue : (countCopied s).hostQueue = s.hostQueue := rfl
@[simp] theorem countCopied_reply : (countCopied s).reply = s.reply := rfl

/-! ## unpackMatch -/

@[simp] theorem unpackMatch_cfg (o l : Byte) : (unpackMatch s o l).cfg = s.cfg := rfl
@[simp] theorem unpackMatch_phase (o l : Byte) : (unpackMatch s o l).phase = s.phase := rfl
@[simp] theorem unpackMatch_cmd (o l : Byte) : (unpackMatch s o l).cmd = s.cmd := rfl
@[simp] theorem unpackMatch_inLen (o l : Byte) : (unpackMatch s o l).inLen = s.inLen := rfl
@[simp] theorem unpackMatch_outLen (o l : Byte) : (unpackMatch s o l).outLen = s.outLen := rfl
@[simp] theorem unpackMatch_errPos (o l : Byte) : (unpackMatch s o l).errPos = s.errPos := rfl
@[simp] theorem unpackMatch_p (o l : Byte) : (unpackMatch s o l).p = s.p := rfl
@[simp] theorem unpackMatch_m (o l : Byte) : (unpackMatch s o l).m = s.m := rfl
@[simp] theorem unpackMatch_n (o l : Byte) : (unpackMatch s o l).n = s.n := rfl
@[simp] theorem unpackMatch_op (o l : Byte) : (unpackMatch s o l).op = s.op := rfl
@[simp] theorem unpackMatch_runVal (o l : Byte) : (unpackMatch s o l).runVal = s.runVal := rfl
@[simp] theorem unpackMatch_runLen (o l : Byte) : (unpackMatch s o l).runLen = s.runLen := rfl
@[simp] theorem unpackMatch_candOff (o l : Byte) : (unpackMatch s o l).candOff = s.candOff := rfl
@[simp] theorem unpackMatch_candLen (o l : Byte) : (unpackMatch s o l).candLen = s.candLen := rfl
@[simp] theorem unpackMatch_bestOff (o l : Byte) : (unpackMatch s o l).bestOff = s.bestOff := rfl
@[simp] theorem unpackMatch_bestLen (o l : Byte) : (unpackMatch s o l).bestLen = s.bestLen := rfl
@[simp] theorem unpackMatch_copyOff (o l : Byte) : (unpackMatch s o l).copyOff = o := rfl
@[simp] theorem unpackMatch_copyRem (o l : Byte) : (unpackMatch s o l).copyRem = l := rfl
@[simp] theorem unpackMatch_hist (o l : Byte) : (unpackMatch s o l).hist = s.hist := rfl
@[simp] theorem unpackMatch_inBuf (o l : Byte) : (unpackMatch s o l).inBuf = s.inBuf := rfl
@[simp] theorem unpackMatch_outBuf (o l : Byte) : (unpackMatch s o l).outBuf = s.outBuf := rfl
@[simp] theorem unpackMatch_draw (o l : Byte) : (unpackMatch s o l).draw = s.draw := rfl
@[simp] theorem unpackMatch_hostQueue (o l : Byte) :
    (unpackMatch s o l).hostQueue = s.hostQueue := rfl
@[simp] theorem unpackMatch_reply (o l : Byte) : (unpackMatch s o l).reply = s.reply := rfl

/-! ## hardReset -/

@[simp] theorem hardReset_cfg : (hardReset s).cfg = s.cfg := rfl
@[simp] theorem hardReset_phase : (hardReset s).phase = .idle := rfl
@[simp] theorem hardReset_cmd : (hardReset s).cmd = 0 := rfl
@[simp] theorem hardReset_inLen : (hardReset s).inLen = 0 := rfl
@[simp] theorem hardReset_outLen : (hardReset s).outLen = 0 := rfl
@[simp] theorem hardReset_errPos : (hardReset s).errPos = 0 := rfl
@[simp] theorem hardReset_p : (hardReset s).p = 0 := rfl
@[simp] theorem hardReset_m : (hardReset s).m = 0 := rfl
@[simp] theorem hardReset_n : (hardReset s).n = 0 := rfl
@[simp] theorem hardReset_op : (hardReset s).op = 0 := rfl
@[simp] theorem hardReset_runVal : (hardReset s).runVal = 0 := rfl
@[simp] theorem hardReset_runLen : (hardReset s).runLen = 0 := rfl
@[simp] theorem hardReset_candOff : (hardReset s).candOff = 0 := rfl
@[simp] theorem hardReset_candLen : (hardReset s).candLen = 0 := rfl
@[simp] theorem hardReset_bestOff : (hardReset s).bestOff = 0 := rfl
@[simp] theorem hardReset_bestLen : (hardReset s).bestLen = 0 := rfl
@[simp] theorem hardReset_copyOff : (hardReset s).copyOff = 0 := rfl
@[simp] theorem hardReset_copyRem : (hardReset s).copyRem = 0 := rfl
@[simp] theorem hardReset_hist : (hardReset s).hist = s.hist.forget (s.draw + 1) := rfl
@[simp] theorem hardReset_inBuf : (hardReset s).inBuf = s.inBuf.forget (s.draw + 1) := rfl
@[simp] theorem hardReset_outBuf : (hardReset s).outBuf = s.outBuf.forget (s.draw + 1) := rfl
@[simp] theorem hardReset_draw : (hardReset s).draw = s.draw + 1 := rfl
@[simp] theorem hardReset_hostQueue : (hardReset s).hostQueue = s.hostQueue := rfl
@[simp] theorem hardReset_reply : (hardReset s).reply = s.reply := rfl

/-! ## runFinder -/

@[simp] theorem runFinder_cfg : (runFinder s).cfg = s.cfg := rfl
@[simp] theorem runFinder_phase : (runFinder s).phase = s.phase := rfl
@[simp] theorem runFinder_cmd : (runFinder s).cmd = s.cmd := rfl
@[simp] theorem runFinder_inLen : (runFinder s).inLen = s.inLen := rfl
@[simp] theorem runFinder_outLen : (runFinder s).outLen = s.outLen := rfl
@[simp] theorem runFinder_errPos : (runFinder s).errPos = s.errPos := rfl
@[simp] theorem runFinder_p : (runFinder s).p = s.p := rfl
@[simp] theorem runFinder_m : (runFinder s).m = s.m := rfl
@[simp] theorem runFinder_n : (runFinder s).n = s.n := rfl
@[simp] theorem runFinder_op : (runFinder s).op = s.op := rfl
@[simp] theorem runFinder_runVal : (runFinder s).runVal = s.runVal := rfl
@[simp] theorem runFinder_runLen : (runFinder s).runLen = s.runLen := rfl
@[simp] theorem runFinder_bestOff : (runFinder s).bestOff = BitVec.ofNat 8 (find s).1 := rfl
@[simp] theorem runFinder_bestLen : (runFinder s).bestLen = BitVec.ofNat 8 (find s).2 := rfl
@[simp] theorem runFinder_copyOff : (runFinder s).copyOff = s.copyOff := rfl
@[simp] theorem runFinder_copyRem : (runFinder s).copyRem = s.copyRem := rfl
@[simp] theorem runFinder_hist : (runFinder s).hist = s.hist := rfl
@[simp] theorem runFinder_inBuf : (runFinder s).inBuf = s.inBuf := rfl
@[simp] theorem runFinder_outBuf : (runFinder s).outBuf = s.outBuf := rfl
@[simp] theorem runFinder_draw : (runFinder s).draw = s.draw := rfl
@[simp] theorem runFinder_hostQueue : (runFinder s).hostQueue = s.hostQueue := rfl
@[simp] theorem runFinder_reply : (runFinder s).reply = s.reply := rfl

/-! ## start -/

theorem start_of_long (o : Op) (h : s.cfg.inCap < s.inLen.toNat) :
    start s o = failStart { s with cmd := o } .badLength := if_pos h

theorem start_of_fits (o : Op) (h : s.inLen.toNat ≤ s.cfg.inCap) :
    start s o = { s with
      cmd := o, op := o, n := s.inLen, errPos := 0, phase := .busy, p := 0, m := 0
      draw := s.draw + 1 } := if_neg (Nat.not_lt.mpr h)

/-! ## The views of a state that read one field -/

theorem inByte_congr {s t : State} (h : t.inBuf = s.inBuf) (i : Nat) : t.inByte i = s.inByte i := by
  simp [State.inByte, h]

theorem outByte_congr {s t : State} (h : t.outBuf = s.outBuf) (i : Nat) :
    t.outByte i = s.outByte i := by
  simp [State.outByte, h]

theorem histByte_congr {s t : State} (h : t.hist = s.hist) (i : Nat) :
    t.histByte i = s.histByte i := by
  simp [State.histByte, h]

end Sys2Proof.Machine
end

