-- ==== Sys2Proof/Laws/Memory.lean ====
section
/-!
SUPPORT. The laws of the byte-addressed spaces: read after write, what a write leaves alone, and that
every memory operation keeps the canonical form.
-/

namespace Sys2Proof.Machine

/-! ## Cell lists -/

@[simp] theorem cellLookup_insert_same (cells : List Host.Cell) (i : Nat) (b : Byte) :
    cellLookup (cellInsert cells i b) i = some b := by
  induction cells with
  | nil => simp [cellInsert, cellLookup]
  | cons c rest ih =>
    obtain ⟨j, v⟩ := c
    simp only [cellInsert]
    split
    · simp [cellLookup]
    · split
      · simp [cellLookup]
      · have : j ≠ i := by omega
        simp [cellLookup, this, ih]

theorem cellLookup_insert_other (cells : List Host.Cell) {i k : Nat} (b : Byte) (h : k ≠ i) :
    cellLookup (cellInsert cells i b) k = cellLookup cells k := by
  induction cells with
  | nil => simp [cellInsert, cellLookup, h.symm]
  | cons c rest ih =>
    obtain ⟨j, v⟩ := c
    simp only [cellInsert]
    split
    · simp [cellLookup, h.symm]
    · split
      · rename_i hij
        subst hij
        simp [cellLookup, h.symm]
      · simp only [cellLookup, ih]

theorem mem_cellInsert {cells : List Host.Cell} {i : Nat} {b : Byte} {c : Host.Cell}
    (h : c ∈ cellInsert cells i b) : c = (i, b) ∨ c ∈ cells := by
  induction cells with
  | nil => simpa [cellInsert] using h
  | cons d rest ih =>
    obtain ⟨j, v⟩ := d
    simp only [cellInsert] at h
    split at h
    · simpa using h
    · split at h
      · rcases List.mem_cons.mp h with h | h
        · exact .inl h
        · exact .inr (List.mem_cons_of_mem _ h)
      · rcases List.mem_cons.mp h with h | h
        · exact .inr (by simp [h])
        · exact (ih h).imp_right (List.mem_cons_of_mem _)

theorem pairwise_cellInsert {cells : List Host.Cell} (i : Nat) (b : Byte)
    (h : cells.Pairwise fun a c => a.1 < c.1) :
    (cellInsert cells i b).Pairwise fun a c => a.1 < c.1 := by
  induction cells with
  | nil => simp [cellInsert]
  | cons d rest ih =>
    obtain ⟨j, v⟩ := d
    obtain ⟨hj, hrest⟩ := List.pairwise_cons.mp h
    simp only [cellInsert]
    split
    · rename_i hij
      refine List.pairwise_cons.mpr ⟨fun c hc => ?_, h⟩
      rcases List.mem_cons.mp hc with rfl | hc
      · exact hij
      · exact Nat.lt_trans hij (hj c hc)
    · split
      · rename_i hij
        subst hij
        exact List.pairwise_cons.mpr ⟨hj, hrest⟩
      · refine List.pairwise_cons.mpr ⟨fun c hc => ?_, ih hrest⟩
        rcases mem_cellInsert hc with rfl | hc
        · simp only; omega
        · exact hj c hc

theorem cellLookup_filter_below (cells : List Host.Cell) {i k : Nat} (h : i < k) :
    cellLookup (cells.filter fun c => c.1 < k) i = cellLookup cells i := by
  induction cells with
  | nil => rfl
  | cons d rest ih =>
    obtain ⟨j, v⟩ := d
    by_cases hj : j < k
    · simp [hj, cellLookup, ih]
    · have : j ≠ i := by omega
      simp [hj, cellLookup, this, ih]

theorem cellLookup_filter_above (cells : List Host.Cell) {i k : Nat} (h : k ≤ i) :
    cellLookup (cells.filter fun c => c.1 < k) i = none := by
  induction cells with
  | nil => rfl
  | cons d rest ih =>
    obtain ⟨j, v⟩ := d
    by_cases hj : j < k
    · have : j ≠ i := by omega
      simp [hj, cellLookup, this, ih]
    · simp [hj, ih]

/-! ## Spaces -/

variable (mem : Memory) (space : Space)

@[simp] theorem Memory.write_epoch (i : Nat) (b : Byte) : (mem.write i b).epoch = mem.epoch := rfl

@[simp] theorem Memory.find?_write_same (i : Nat) (b : Byte) : (mem.write i b).find? i = some b :=
  cellLookup_insert_same _ _ _

theorem Memory.find?_write_other {i k : Nat} (b : Byte) (h : k ≠ i) :
    (mem.write i b).find? k = mem.find? k := cellLookup_insert_other _ _ h

@[simp] theorem Memory.read_write_same (i : Nat) (b : Byte) : (mem.write i b).read space i = b := by
  simp [Memory.read]

theorem Memory.read_write_other {i k : Nat} (b : Byte) (h : k ≠ i) :
    (mem.write i b).read space k = mem.read space k := by
  simp [Memory.read, Memory.find?_write_other mem b h, unlisted]

theorem Memory.read_of_find? {mem : Memory} {i : Nat} {b : Byte} (h : mem.find? i = some b) :
    mem.read space i = b := by
  simp [Memory.read, h]

@[simp] theorem Memory.find?_forget (e i : Nat) : (mem.forget e).find? i = none := rfl

theorem Memory.find?_keepBelow {i k : Nat} (e : Nat) (h : i < k) :
    (mem.keepBelow k e).find? i = mem.find? i := cellLookup_filter_below _ h

theorem Memory.find?_keepBelow_above {i k : Nat} (e : Nat) (h : k ≤ i) :
    (mem.keepBelow k e).find? i = none := cellLookup_filter_above _ h

theorem Memory.find?_isSome_write {i k : Nat} (b : Byte) (h : (mem.find? k).isSome) :
    ((mem.write i b).find? k).isSome := by
  by_cases hk : k = i
  · simp [hk]
  · rwa [Memory.find?_write_other mem b hk]

/-! ## The canonical form is kept by every memory operation -/

theorem Memory.Wf.write {mem : Memory} (h : mem.Wf) (i : Nat) (b : Byte) : (mem.write i b).Wf :=
  pairwise_cellInsert i b h

theorem Memory.Wf.forget (mem : Memory) (e : Nat) : (mem.forget e).Wf := List.Pairwise.nil

theorem Memory.Wf.keepBelow {mem : Memory} (h : mem.Wf) (k e : Nat) : (mem.keepBelow k e).Wf :=
  List.Pairwise.filter _ h

theorem Memory.Wf.loadInput {bytes : List Byte} {mem : Memory} (h : mem.Wf) (i : Nat) :
    (Sys2Proof.Machine.loadInput mem i bytes).Wf := by
  induction bytes generalizing mem i with
  | nil => exact h
  | cons b rest ih => exact ih (h.write i b) (i + 1)

theorem Memory.WfBelow.write {mem : Memory} {size i : Nat} (h : mem.WfBelow size) (hi : i < size)
    (b : Byte) : (mem.write i b).WfBelow size := by
  refine ⟨h.1.write i b, fun c hc => ?_⟩
  rcases mem_cellInsert hc with rfl | hc
  · exact hi
  · exact h.2 c hc

theorem Memory.WfBelow.forget (mem : Memory) (size e : Nat) : (mem.forget e).WfBelow size :=
  ⟨Memory.Wf.forget mem e, fun c hc => by simp [Memory.forget] at hc⟩

theorem Memory.WfBelow.keepBelow {mem : Memory} {size : Nat} (h : mem.WfBelow size) (k e : Nat) :
    (mem.keepBelow k e).WfBelow size :=
  ⟨h.1.keepBelow k e, fun c hc => h.2 c (List.mem_filter.mp hc).1⟩

theorem reset_memory_wf :
    State.reset.inBuf.Wf ∧ State.reset.outBuf.Wf ∧ State.reset.hist.Wf := by
  decide

/-! ## Reading after writing, in equal memories -/

/-- Two canonical spaces with the same epoch and the same known bytes are the same data. -/
theorem cells_ext {a b : List Host.Cell} (ha : a.Pairwise fun x y => x.1 < y.1)
    (hb : b.Pairwise fun x y => x.1 < y.1) (h : ∀ i, cellLookup a i = cellLookup b i) : a = b := by
  induction a generalizing b with
  | nil =>
    cases b with
    | nil => rfl
    | cons d rest => have := h d.1; simp [cellLookup] at this
  | cons c as ih =>
    have none_below : ∀ (l : List Host.Cell) (k : Nat), (∀ x ∈ l, k < x.1) →
        cellLookup l k = none := by
      intro l k hl
      induction l with
      | nil => rfl
      | cons d rest ih =>
        have hd := hl d (by simp)
        have hne : d.1 ≠ k := by omega
        simp [cellLookup, hne, ih fun x hx => hl x (by simp [hx])]
    cases b with
    | nil => have := h c.1; simp [cellLookup] at this
    | cons d bs =>
      obtain ⟨hc, has⟩ := List.pairwise_cons.mp ha
      obtain ⟨hd, hbs⟩ := List.pairwise_cons.mp hb
      obtain ⟨i, u⟩ := c
      obtain ⟨j, v⟩ := d
      simp only at hc hd
      have hij : i = j := by
        rcases Nat.lt_trichotomy i j with hlt | heq | hgt
        · have h1 := h i
          rw [none_below ((j, v) :: bs) i (by
            intro x hx
            rcases List.mem_cons.mp hx with rfl | hx
            · exact hlt
            · exact Nat.lt_trans hlt (hd x hx))] at h1
          simp [cellLookup] at h1
        · exact heq
        · have h1 := h j
          rw [none_below ((i, u) :: as) j (by
            intro x hx
            rcases List.mem_cons.mp hx with rfl | hx
            · exact hgt
            · exact Nat.lt_trans hgt (hc x hx))] at h1
          simp [cellLookup] at h1
      subst hij
      have huv : u = v := by simpa [cellLookup] using h i
      subst huv
      have : as = bs := ih has hbs fun k => by
        by_cases hk : i = k
        · subst hk; rw [none_below as i hc, none_below bs i hd]
        · simpa [cellLookup, hk] using h k
      rw [this]

end Sys2Proof.Machine
end

