-- ==== Sys2Proof/Laws/Ops.lean ====
section
/-!
SUPPORT. What each shared operation can do, said once: emit and its lists, the two byte loops of the
decoders, start, and the fields no running algorithm touches.
-/

namespace Sys2Proof.Machine

/-! ## emit -/

theorem emit_of_room {s : State} (v : Byte) (h : s.m.toNat < s.cfg.outCap) :
    emit s v = .ok (appendByte s v) := if_neg (Nat.not_le.mpr h)

theorem emit_of_full {s : State} (v : Byte) (h : s.cfg.outCap ≤ s.m.toNat) :
    emit s v = .error (raise s .outCapacity s.p) := if_pos h

theorem emit_cases {s : State} {v : Byte} {r : Run} (h : emit s v = r) :
    (s.m.toNat < s.cfg.outCap ∧ r = .ok (appendByte s v)) ∨
      (s.cfg.outCap ≤ s.m.toNat ∧ r = .error (raise s .outCapacity s.p)) := by
  by_cases hroom : s.m.toNat < s.cfg.outCap
  · exact .inl ⟨hroom, by rw [← h, emit_of_room v hroom]⟩
  · exact .inr ⟨by omega, by rw [← h, emit_of_full v (by omega)]⟩

theorem appendByte_count {s : State} (v : Byte) (h : s.m.toNat < 2 ^ 32 - 1) :
    (appendByte s v).m.toNat = s.m.toNat + 1 := by
  simp [BitVec.toNat_add]; omega

/-- The state after all of a list of bytes has been stored. -/
def appendBytes (s : State) (bytes : List Byte) : State := bytes.foldl appendByte s

@[simp] theorem appendBytes_nil (s : State) : appendBytes s [] = s := rfl

@[simp] theorem appendBytes_cons (s : State) (v : Byte) (rest : List Byte) :
    appendBytes s (v :: rest) = appendBytes (appendByte s v) rest := rfl

/-- Storing bytes changes OUT, HIST and m alone. -/
theorem appendBytes_frame (s : State) (bytes : List Byte) :
    appendBytes s bytes = { s with
      outBuf := (appendBytes s bytes).outBuf
      hist := (appendBytes s bytes).hist
      m := (appendBytes s bytes).m } := by
  induction bytes generalizing s with
  | nil => rfl
  | cons v rest ih => rw [appendBytes_cons, ih]; rfl

theorem appendBytes_count {s : State} {bytes : List Byte}
    (h : s.m.toNat + bytes.length < 2 ^ 32) :
    (appendBytes s bytes).m.toNat = s.m.toNat + bytes.length := by
  induction bytes generalizing s with
  | nil => rfl
  | cons v rest ih =>
    simp only [List.length_cons] at h
    have hm := appendByte_count (s := s) v (by omega)
    rw [appendBytes_cons, ih (by omega), hm, List.length_cons]
    omega

/-- What storing bytes leaves in OUT and m. -/
theorem appendBytes_appendsOut {s : State} {bytes : List Byte}
    (h : s.m.toNat + bytes.length < 2 ^ 32) : AppendsOut s (appendBytes s bytes) bytes := by
  induction bytes generalizing s with
  | nil => exact ⟨by simp, by simp, fun _ _ => rfl⟩
  | cons v rest ih =>
    simp only [List.length_cons] at h
    have hm := appendByte_count (s := s) v (by omega)
    have hr := ih (s := appendByte s v) (by omega)
    have hread : ∀ j, j ≠ s.m.toNat → (appendByte s v).outByte j = s.outByte j := fun j hj => by
      simp [State.outByte, Memory.read_write_other _ _ _ hj]
    refine ⟨?_, fun i b hb => ?_, fun j hj => ?_⟩
    · rw [appendBytes_cons, hr.count, appendByte_m, List.length_cons, Nat.add_comm, BitVec.ofNat_add,
        BitVec.add_assoc]
      rfl
    · cases i with
      | zero =>
        obtain rfl : v = b := by simpa using hb
        rw [appendBytes_cons, hr.kept _ (.inl (by omega))]
        simp [State.outByte]
      | succ i =>
        have := hr.written i b (by simpa using hb)
        rwa [hm, Nat.add_assoc, Nat.add_comm 1 i] at this
    · rw [List.length_cons] at hj
      rw [appendBytes_cons, hr.kept j (by omega), hread j (by omega)]

theorem appendBytes_known {s : State} {bytes : List Byte}
    (h : s.m.toNat + bytes.length < 2 ^ 32)
    (hk : ∀ j, j < s.m.toNat → (s.outBuf.find? j).isSome) :
    ∀ j, j < s.m.toNat + bytes.length → ((appendBytes s bytes).outBuf.find? j).isSome := by
  induction bytes generalizing s with
  | nil => simpa using hk
  | cons v rest ih =>
    simp only [List.length_cons] at h ⊢
    have hm := appendByte_count (s := s) v (by omega)
    intro j hj
    refine ih (s := appendByte s v) (by omega) (fun i hi => ?_) j (by omega)
    rw [hm] at hi
    by_cases hi' : i = s.m.toNat
    · simp [hi']
    · rw [appendByte_outBuf]
      exact Memory.find?_isSome_write _ _ (hk i (by omega))

theorem appendBytes_outWf {s : State} {bytes : List Byte} (hw : s.outBuf.WfBelow s.cfg.outCap)
    (h : s.m.toNat + bytes.length ≤ s.cfg.outCap) (hc : s.cfg.outCap < 2 ^ 32) :
    (appendBytes s bytes).outBuf.WfBelow s.cfg.outCap := by
  induction bytes generalizing s with
  | nil => exact hw
  | cons v rest ih =>
    simp only [List.length_cons] at h
    have hm := appendByte_count (s := s) v (by omega)
    exact ih (s := appendByte s v) (hw.write (by omega) v) (by simp only [hm, appendByte_cfg]; omega)
      hc

theorem appendBytes_histWf {s : State} {bytes : List Byte}
    (hw : s.hist.WfBelow s.cfg.histDepth) (hd : 0 < s.cfg.histDepth) :
    (appendBytes s bytes).hist.WfBelow s.cfg.histDepth := by
  induction bytes generalizing s with
  | nil => exact hw
  | cons v rest ih =>
    refine ih (s := appendByte s v) ?_ hd
    rw [appendByte_hist]
    split
    · exact hw
    · exact hw.write (Nat.mod_lt _ hd) v

/-! ## Lists of bytes -/

/-- A list that fits is stored whole. -/
theorem emitAll_of_room {s : State} {bytes : List Byte}
    (h : s.m.toNat + bytes.length ≤ s.cfg.outCap) (hc : s.cfg.outCap < 2 ^ 32) :
    emitAll s bytes = .ok (appendBytes s bytes) := by
  induction bytes generalizing s with
  | nil => rfl
  | cons v rest ih =>
    simp only [List.length_cons] at h
    have hm := appendByte_count (s := s) v (by omega)
    rw [emitAll, emit_of_room v (by omega)]
    exact ih (s := appendByte s v) (by simp only [hm, appendByte_cfg]; omega) hc

/-- A list that does not fit is stored up to the capacity, and then OutputCapacity is raised at p. -/
theorem emitAll_of_overflow {s : State} {bytes : List Byte} (hm0 : s.m.toNat ≤ s.cfg.outCap)
    (h : s.cfg.outCap < s.m.toNat + bytes.length) (hc : s.cfg.outCap < 2 ^ 32) :
    emitAll s bytes =
      .error (raise (appendBytes s (bytes.take (s.cfg.outCap - s.m.toNat))) .outCapacity s.p) := by
  induction bytes generalizing s with
  | nil => simp at h; omega
  | cons v rest ih =>
    simp only [List.length_cons] at h
    rw [emitAll]
    by_cases hroom : s.m.toNat < s.cfg.outCap
    · have hm := appendByte_count (s := s) v (by omega)
      have hk : s.cfg.outCap - s.m.toNat = (s.cfg.outCap - (s.m.toNat + 1)) + 1 := by omega
      rw [emit_of_room v hroom, hk, List.take_succ_cons, appendBytes_cons]
      have := ih (s := appendByte s v) (by simp only [hm, appendByte_cfg]; omega)
        (by simp only [hm, appendByte_cfg]; omega) hc
      rw [hm, appendByte_cfg, appendByte_p] at this
      exact this
    · have hk : s.cfg.outCap - s.m.toNat = 0 := by omega
      simp [emit_of_full v (Nat.not_lt.mp hroom), hk, Except.bind]

/-! ## The byte loop of RUN -/

/-- emit reads neither the run registers nor the copy registers, so counting commutes with it. -/
theorem appendBytes_takeFromRun (s : State) (k : Word) (bytes : List Byte) :
    appendBytes (takeFromRun s k) bytes = takeFromRun (appendBytes s bytes) k := by
  induction bytes generalizing s with
  | nil => rfl
  | cons v rest ih => exact ih (appendByte s v)

theorem appendBytes_countCopied (s : State) (bytes : List Byte) :
    appendBytes (countCopied s) bytes = countCopied (appendBytes s bytes) := by
  induction bytes generalizing s with
  | nil => rfl
  | cons v rest ih => exact ih (appendByte s v)

theorem takeFromRun_takeFromRun (s : State) (j k : Word) :
    takeFromRun (takeFromRun s j) k = takeFromRun s (j + k) := by
  have h : s.runLen - j - k = s.runLen - (j + k) := by bv_omega
  simp only [takeFromRun, h]

/-- A run that fits is expanded whole (R107). -/
theorem expandRun_of_room {s : State} {k : Nat} (h : s.m.toNat + k ≤ s.cfg.outCap)
    (hc : s.cfg.outCap < 2 ^ 32) :
    expandRun k s =
      .ok (takeFromRun (appendBytes s (List.replicate k s.runVal)) (BitVec.ofNat 32 k)) := by
  induction k generalizing s with
  | zero => simp [expandRun, takeFromRun]
  | succ k ih =>
    have hm := appendByte_count (s := s) s.runVal (by omega)
    rw [expandRun, emit_of_room _ (by omega)]
    have := ih (s := takeFromRun (appendByte s s.runVal) 1)
      (by simp only [takeFromRun_m, takeFromRun_cfg, hm, appendByte_cfg]; omega) hc
    simp only [Except.bind, this, takeFromRun_runVal, appendByte_runVal, appendBytes_takeFromRun,
      takeFromRun_takeFromRun, List.replicate_succ, appendBytes_cons]
    rw [Nat.add_comm k 1, BitVec.ofNat_add]
    rfl

/-- A run that does not fit raises OutputCapacity at p after the bytes that do (R107). -/
theorem expandRun_of_overflow {s : State} {k : Nat} (hm0 : s.m.toNat ≤ s.cfg.outCap)
    (h : s.cfg.outCap < s.m.toNat + k) (hc : s.cfg.outCap < 2 ^ 32) :
    ∃ t, expandRun k s = .error (raise t .outCapacity s.p) := by
  induction k generalizing s with
  | zero => omega
  | succ k ih =>
    rw [expandRun]
    by_cases hroom : s.m.toNat < s.cfg.outCap
    · have hm := appendByte_count (s := s) s.runVal (by omega)
      rw [emit_of_room _ hroom]
      exact ih (s := takeFromRun (appendByte s s.runVal) 1)
        (by simp only [takeFromRun_m, takeFromRun_cfg, hm, appendByte_cfg]; omega)
        (by simp only [takeFromRun_m, takeFromRun_cfg, hm, appendByte_cfg]; omega) hc
    · exact ⟨s, by rw [emit_of_full _ (Nat.not_lt.mp hroom)]; rfl⟩

/-! ## The byte loop of MATCH -/

/-- A copy that fits runs to its end; a copy that does not raises OutputCapacity at p (R156). -/
theorem copyLoop_of_room {s : State} {base k i : Nat} (h : s.m.toNat + k ≤ s.cfg.outCap)
    (hc : s.cfg.outCap < 2 ^ 32) :
    ∃ bytes : List Byte, bytes.length = k ∧ ∃ w : Byte,
      copyLoop base k i s = .ok { appendBytes s bytes with copyRem := w } := by
  induction k generalizing i s with
  | zero => exact ⟨[], rfl, s.copyRem, rfl⟩
  | succ k ih =>
    have hm := appendByte_count (s := s) (s.outByte (base + i)) (by omega)
    obtain ⟨bytes, hlen, w, hrun⟩ :=
      ih (s := countCopied (appendByte s (s.outByte (base + i)))) (i := i + 1)
        (by simp only [countCopied_m, countCopied_cfg, hm, appendByte_cfg]; omega) hc
    refine ⟨s.outByte (base + i) :: bytes, by simp [hlen], w, ?_⟩
    rw [copyLoop, emit_of_room _ (by omega)]
    simp only [Except.bind, hrun, appendBytes_countCopied, appendBytes_cons]
    rfl

theorem copyLoop_of_overflow {s : State} {base k i : Nat} (hm0 : s.m.toNat ≤ s.cfg.outCap)
    (h : s.cfg.outCap < s.m.toNat + k) (hc : s.cfg.outCap < 2 ^ 32) :
    ∃ t, copyLoop base k i s = .error (raise t .outCapacity s.p) := by
  induction k generalizing i s with
  | zero => omega
  | succ k ih =>
    rw [copyLoop]
    by_cases hroom : s.m.toNat < s.cfg.outCap
    · have hm := appendByte_count (s := s) (s.outByte (base + i)) (by omega)
      rw [emit_of_room _ hroom]
      exact ih (s := countCopied (appendByte s (s.outByte (base + i)))) (i := i + 1)
        (by simp only [countCopied_m, countCopied_cfg, hm, appendByte_cfg]; omega)
        (by simp only [countCopied_m, countCopied_cfg, hm, appendByte_cfg]; omega) hc
    · exact ⟨s, by rw [emit_of_full _ (Nat.not_lt.mp hroom)]; rfl⟩

/-! ## settle, start, raise -/

theorem settle_next (r : Run) : ∃ t, settle r = .next t := by
  cases r <;> exact ⟨_, rfl⟩

theorem settle_eq_next {r : Run} {t : State} (h : settle r = .next t) :
    r = .ok t ∨ r = .error t := by
  cases r <;> simp_all [settle]

/-- A start either runs or reports BAD_LENGTH (R181, R186). -/
theorem start_cases (s : State) (o : Op) :
    (s.cfg.inCap < s.inLen.toNat ∧
        start s o = failStart { s with cmd := o } .badLength) ∨
      (s.inLen.toNat ≤ s.cfg.inCap ∧ start s o = { s with
        cmd := o, op := o, n := s.inLen, errPos := 0, phase := .busy, p := 0, m := 0
        draw := s.draw + 1 }) := by
  by_cases h : s.cfg.inCap < s.inLen.toNat
  · exact .inl ⟨h, start_of_long s o h⟩
  · exact .inr ⟨by omega, start_of_fits s o (by omega)⟩

theorem raise_faulted (s : State) (c : Cause) (pos : Word) : Faulted s (raise s c pos) c pos := rfl

/-! ## The fields no running algorithm touches -/

/-- What every run of an algorithm's piece keeps: the part, the command registers, IN and the host's
side. -/
structure SameInput (s t : State) : Prop where
  cfg : t.cfg = s.cfg
  cmd : t.cmd = s.cmd
  inLen : t.inLen = s.inLen
  n : t.n = s.n
  op : t.op = s.op
  inBuf : t.inBuf = s.inBuf
  hostQueue : t.hostQueue = s.hostQueue
  reply : t.reply = s.reply

theorem SameInput.refl (s : State) : SameInput s s := ⟨rfl, rfl, rfl, rfl, rfl, rfl, rfl, rfl⟩

theorem SameInput.trans {s t u : State} (h : SameInput s t) (g : SameInput t u) : SameInput s u :=
  ⟨g.cfg.trans h.cfg, g.cmd.trans h.cmd, g.inLen.trans h.inLen, g.n.trans h.n, g.op.trans h.op,
    g.inBuf.trans h.inBuf, g.hostQueue.trans h.hostQueue, g.reply.trans h.reply⟩

/-- A run's state, whether it went on or was ended by a raise. -/
def Run.state : Run → State
  | .ok t => t
  | .error t => t

theorem settle_state (r : Run) : settle r = .next r.state := by cases r <;> rfl

theorem emit_sameInput (s : State) (v : Byte) : SameInput s (emit s v).state := by
  rcases emit_cases (s := s) (v := v) rfl with ⟨-, h⟩ | ⟨-, h⟩ <;> rw [h] <;>
    exact ⟨rfl, rfl, rfl, rfl, rfl, rfl, rfl, rfl⟩

/-- Going on from a run keeps what both parts keep. -/
theorem SameInput.bind {s : State} {r : Run} {f : State → Run} (h : SameInput s r.state)
    (hf : ∀ t, SameInput t (f t).state) : SameInput s (Run.state (r.bind f)) := by
  cases r with
  | ok t => exact h.trans (hf t)
  | error t => exact h

theorem emitAll_sameInput (s : State) (bytes : List Byte) :
    SameInput s (emitAll s bytes).state := by
  induction bytes generalizing s with
  | nil => exact SameInput.refl s
  | cons v rest ih => exact (emit_sameInput s v).bind ih

theorem expandRun_sameInput (k : Nat) (s : State) : SameInput s (expandRun k s).state := by
  induction k generalizing s with
  | zero => exact SameInput.refl s
  | succ k ih =>
    exact (emit_sameInput s s.runVal).bind fun t =>
      SameInput.trans (t := takeFromRun t 1) ⟨rfl, rfl, rfl, rfl, rfl, rfl, rfl, rfl⟩ (ih _)

theorem copyLoop_sameInput (base k i : Nat) (s : State) :
    SameInput s (copyLoop base k i s).state := by
  induction k generalizing i s with
  | zero => exact SameInput.refl s
  | succ k ih =>
    exact (emit_sameInput s _).bind fun t =>
      SameInput.trans (t := countCopied t) ⟨rfl, rfl, rfl, rfl, rfl, rfl, rfl, rfl⟩
        (ih (i + 1) _)

theorem emitRun_sameInput (fuel : Nat) (s : State) : SameInput s (emitRun fuel s).state := by
  induction fuel generalizing s with
  | zero => exact SameInput.refl s
  | succ fuel ih =>
    rw [emitRun]
    split
    · exact (emitAll_sameInput s _).bind fun t =>
        SameInput.trans
          (t := advance (takeFromRun t (BitVec.ofNat 32 t.cfg.rleMax)) (BitVec.ofNat 32 t.cfg.rleMax))
          ⟨rfl, rfl, rfl, rfl, rfl, rfl, rfl, rfl⟩ (ih _)
    · exact (emitAll_sameInput s _).bind fun t => ⟨rfl, rfl, rfl, rfl, rfl, rfl, rfl, rfl⟩

/-- Taking consumed bytes into HIST changes HIST alone. -/
theorem consumeToHist_frame (s : State) (k : Nat) :
    consumeToHist s k = { s with hist := (consumeToHist s k).hist } := by
  induction k with
  | zero => rfl
  | succ k ih => rw [consumeToHist, ih]; rfl

end Sys2Proof.Machine
end

