-- ==== Sys2Proof/Laws/PerInstr.lean ====
section
/-!
SUPPORT. Statements about every instruction as syntax, one lemma per constructor.

The family EncodedLength: an instruction's encoding takes as many stream bytes as the column
length_bytes of spec/opcode_table.json gives its row; a command takes none.
-/

/-- The bytes of the instruction's row in the table; a truncated match has one byte or two. -/
def Sys2Proof.Laws.EncodedLength.rowLength : Sys2Proof.Instr → Nat
  | .rleCompress => 0
  | .rleDecompress => 0
  | .winCompress => 0
  | .winDecompress => 0
  | .cmdReserved _ => 0
  | .run _ _ => 2
  | .rleZeroCount _ => 2
  | .rleTrailingByte _ => 1
  | .lit _ => 2
  | .matchTok _ _ => 3
  | .winIllegalTag _ => 1
  | .winLitTruncated => 1
  | .winMatchTruncated none => 1
  | .winMatchTruncated (some _) => 2

/-- The encoding of `i` has the length of its row. -/
def Sys2Proof.Laws.EncodedLength.Statement (i : Sys2Proof.Instr) : Prop :=
  (Sys2Proof.encode i).streamBytes.length = Sys2Proof.Laws.EncodedLength.rowLength i

namespace Sys2Proof.Laws.EncodedLength

theorem rleCompress : Statement .rleCompress := rfl
theorem rleDecompress : Statement .rleDecompress := rfl
theorem winCompress : Statement .winCompress := rfl
theorem winDecompress : Statement .winDecompress := rfl
theorem cmdReserved (op : Op) : Statement (.cmdReserved op) := rfl
theorem run (count value : Byte) : Statement (.run count value) := rfl
theorem rleZeroCount (value : Byte) : Statement (.rleZeroCount value) := rfl
theorem rleTrailingByte (last : Byte) : Statement (.rleTrailingByte last) := rfl
theorem lit (value : Byte) : Statement (.lit value) := rfl
theorem matchTok (offset length : Byte) : Statement (.matchTok offset length) := rfl
theorem winIllegalTag (tag : Byte) : Statement (.winIllegalTag tag) := rfl
theorem winLitTruncated : Statement .winLitTruncated := rfl
theorem winMatchTruncated (offset : Option Byte) : Statement (.winMatchTruncated offset) := by
  cases offset <;> rfl

end Sys2Proof.Laws.EncodedLength
end

