-- ==== Sys2Proof/Laws/Step.lean ====
section
/-!
SUPPORT. What a step is, said once: the engine's move with the host silent, the host's access at the
head of the queue, and the instruction the engine takes at the cursor.
-/

namespace Sys2Proof.Machine

/-! ## Which action a step takes -/

theorem step_of_invalid {s : State} (h : ¬ s.cfg.Valid) : step s = .refused .badConfiguration := by
  rw [step, nextAction, if_neg h]

/-- With the host silent and an operation running, the engine executes its next instruction. -/
theorem step_of_busy {s : State} (hv : s.cfg.Valid) (hq : s.hostQueue = []) (hb : s.phase = .busy) :
    step s = exec (engineFetch s) s := by
  rw [step, nextAction, if_pos hv, hq]
  simp only [engineAction, if_pos hb]

/-- With the host silent and nothing running, the engine waits. -/
theorem step_of_waiting {s : State} (hv : s.cfg.Valid) (hq : s.hostQueue = [])
    (hb : s.phase ≠ .busy) : step s = .next s := by
  rw [step, nextAction, if_pos hv, hq]
  simp only [engineAction, if_neg hb]

/-- The outcome of an action: the instruction's, or the access's own. -/
def Action.outcome : Action → Host.Outcome State Fault Refusal
  | .run i t => exec i t
  | .done o => o

/-- A host access other than a poll is taken from the queue and done. -/
theorem step_of_access {s : State} {h : HostOp} {rest : List HostOp} (hv : s.cfg.Valid)
    (hq : s.hostQueue = h :: rest) (hl : leavesQueue s h = true) :
    step s = (hostAction { s with hostQueue := rest } h).outcome := by
  rw [step, nextAction, if_pos hv, hq]
  simp only [hl, if_true]
  rfl

/-- A poll that finds DONE = 0 stays, and the engine moves. -/
theorem step_of_pending {s : State} {h : HostOp} {rest : List HostOp} (hv : s.cfg.Valid)
    (hq : s.hostQueue = h :: rest) (hl : leavesQueue s h = false) :
    step s = (hostAction s h).outcome := by
  rw [step, nextAction, if_pos hv, hq]
  simp only [hl, if_neg Bool.false_ne_true]
  rfl

/-- A step that answers a next state ran on a part that R7 allows. -/
theorem valid_of_step {s t : State} (h : step s = .next t) : s.cfg.Valid := by
  by_cases hv : s.cfg.Valid
  · exact hv
  · rw [step_of_invalid hv] at h
    cases h

/-! ## What the engine takes at the cursor -/

theorem rleDecompress_ne : opRleDecompress ≠ opRleCompress ∧ opRleDecompress ≠ opWinCompress := by
  decide

theorem winDecompress_ne : opWinDecompress ≠ opRleCompress ∧ opWinDecompress ≠ opWinCompress ∧
    opWinDecompress ≠ opRleDecompress := by
  decide

theorem engineFetch_rleCompress {s : State} (h : s.op = opRleCompress) :
    engineFetch s = .rleCompress := by
  rw [engineFetch, if_pos h]

theorem engineFetch_winCompress {s : State} (h : s.op = opWinCompress) :
    engineFetch s = .winCompress := by
  rw [engineFetch, if_neg (by rw [h]; decide), if_pos h]

theorem engineFetch_odd {s : State} (h : s.op = opRleDecompress) (hn : s.n.toNat % 2 = 1) :
    engineFetch s = .rleTrailingByte (s.inByte (s.n.toNat - 1)) := by
  rw [engineFetch, if_neg (by rw [h]; decide), if_neg (by rw [h]; decide), if_pos h, if_pos hn]

theorem engineFetch_rle {s : State} {i : Instr} {rest : List Byte} (h : s.op = opRleDecompress)
    (hn : s.n.toNat % 2 = 0) (hd : decodeRle (streamAtCursor s) = .ok (i, rest)) :
    engineFetch s = i := by
  simp [engineFetch, h, hn, hd, rleDecompress_ne]

theorem engineFetch_rle_end {s : State} (h : s.op = opRleDecompress) (hn : s.n.toNat % 2 = 0)
    (hd : decodeRle (streamAtCursor s) = .error .endOfStream) : engineFetch s = .rleDecompress := by
  simp [engineFetch, h, hn, hd, rleDecompress_ne]

theorem engineFetch_window {s : State} {i : Instr} {rest : List Byte} (h : s.op = opWinDecompress)
    (hd : decodeWindow (streamAtCursor s) = .ok (i, rest)) : engineFetch s = i := by
  simp [engineFetch, h, hd, winDecompress_ne]

theorem engineFetch_window_end {s : State} (h : s.op = opWinDecompress)
    (hd : decodeWindow (streamAtCursor s) = .error .endOfStream) :
    engineFetch s = .winDecompress := by
  simp [engineFetch, h, hd, winDecompress_ne]

/-- The stream at the cursor, by how many bytes are left before n. -/
theorem streamAtCursor_nil {s : State} (h : s.n.toNat ≤ s.p.toNat) : streamAtCursor s = [] := by
  rw [streamAtCursor, streamFrom, if_neg (by omega)]

theorem streamAtCursor_one {s : State} (h : s.n.toNat = s.p.toNat + 1) :
    streamAtCursor s = [s.inByte s.p.toNat] := by
  rw [streamAtCursor, streamFrom, if_pos (by omega), streamFrom, if_neg (by omega)]

theorem streamAtCursor_two {s : State} (h : s.n.toNat = s.p.toNat + 2) :
    streamAtCursor s = [s.inByte s.p.toNat, s.inByte (s.p.toNat + 1)] := by
  rw [streamAtCursor, streamFrom, if_pos (by omega), streamFrom, if_pos (by omega), streamFrom,
    if_neg (by omega)]

theorem streamAtCursor_three {s : State} (h : s.p.toNat + 2 < s.n.toNat) :
    streamAtCursor s =
      [s.inByte s.p.toNat, s.inByte (s.p.toNat + 1), s.inByte (s.p.toNat + 2)] := by
  rw [streamAtCursor, streamFrom, if_pos (by omega), streamFrom, if_pos (by omega), streamFrom,
    if_pos (by omega), streamFrom]

end Sys2Proof.Machine
end

