-- ==== Sys2Proof/Tests/Slice0.lean ====
section
/-!
SUPPORT. The model's own tests: well-formedness, decoding of words written out from the encodings, one
or two steps per instruction with results taken from spec/95_test_vectors.md or worked by hand from the
rule named, and a witness that meets the hypotheses of each statement of
Certificates/Slice0/Obligations.lean.
-/

namespace Sys2Proof.Tests

open Sys2Proof Sys2Proof.Machine

/-! ## Well-formedness: an ill-formed term for each check is refused -/

theorem test_wf_reserved_op_legal : Instr.wf (.cmdReserved 3) = false := by decide
theorem test_wf_run_zero_count : Instr.wf (.run 0 0x41) = false := by decide
theorem test_wf_illegal_tag_zero : Instr.wf (.winIllegalTag 0) = false := by decide
theorem test_wf_illegal_tag_one : Instr.wf (.winIllegalTag 1) = false := by decide
theorem test_wf_good : (Instr.cmdReserved 7).wf && (Instr.run 255 0).wf &&
    (Instr.winIllegalTag 2).wf && (Instr.matchTok 0 0).wf = true := by decide

/-! ## Decoding: words written out bit by bit from 30_encoding.md -/

/-- R71, pattern 001. -/
theorem test_decode_rleCompress :
    decode (.command 0b00000000000000000000000000000001#32) = .ok .rleCompress := by decide
/-- R71, pattern 010. -/
theorem test_decode_rleDecompress :
    decode (.command 0b00000000000000000000000000000010#32) = .ok .rleDecompress := by decide
/-- R71 and the vector "write CMD = 0x0000000B" of 95 section 4. -/
theorem test_decode_winCompress :
    decode (.command 0b00000000000000000000000000001011#32) = .ok .winCompress := by decide
/-- R71, pattern 100. -/
theorem test_decode_winDecompress :
    decode (.command 0b00000000000000000000000000000100#32) = .ok .winDecompress := by decide
/-- R71, patterns 000, 101, 110, 111. -/
theorem test_decode_cmdReserved :
    [0b000#32, 0b101#32, 0b110#32, 0b111#32].map decodeCommand =
      [.cmdReserved 0, .cmdReserved 5, .cmdReserved 6, .cmdReserved 7] := by decide
/-- R73, ccccccccvvvvvvvv. -/
theorem test_decode_run :
    decodeRle [0b00000011, 0b01000001, 0b00000001] = .ok (.run 3 0x41, [1]) := by decide
/-- R75 (b). -/
theorem test_decode_rleZeroCount :
    decode (.rle [0b00000000, 0b01000010]) = .ok (.rleZeroCount 0x42) := by decide
/-- R75 (a). -/
theorem test_decode_rleTrailingByte :
    decode (.rle [0b00000101]) = .ok (.rleTrailingByte 5) := by decide
/-- R76, 00000000bbbbbbbb: the byte after tag 0x00 is data, 0x01 too. -/
theorem test_decode_lit :
    decodeWindow [0b00000000, 0b00000001, 0b00000000] = .ok (.lit 1, [0]) := by decide
/-- R77, 00000001oooooooollllllll: offset first. -/
theorem test_decode_match :
    decode (.window [0b00000001, 0b00000010, 0b00000101]) = .ok (.matchTok 2 5) := by decide
/-- R81 (a): the ends of 0x02..=0xFF. -/
theorem test_decode_winIllegalTag :
    decode (.window [0b00000010]) = .ok (.winIllegalTag 2) ∧
      decode (.window [0b11111111, 0]) = .ok (.winIllegalTag 255) := by decide
/-- R159. -/
theorem test_decode_winLitTruncated :
    decode (.window [0b00000000]) = .ok .winLitTruncated := by decide
/-- R159: no byte, or one byte, after tag 0x01. -/
theorem test_decode_winMatchTruncated :
    decode (.window [0b00000001]) = .ok (.winMatchTruncated none) ∧
      decode (.window [0b00000001, 0b00000101]) = .ok (.winMatchTruncated (some 5)) := by decide
/-- The empty stream holds no token (R74, R78). -/
theorem test_decode_empty :
    decode (.rle []) = .error .endOfStream ∧ decode (.window []) = .error .endOfStream := by decide

/-! ## States for the tests -/

/-- A part with small buffers. -/
def small : Config := { Config.standard with inCap := 16, outCap := 40 }

/-- Operation `op` just started on `bytes`, on the small part. -/
def begun (op : Op) (bytes : List Byte) : State :=
  { State.resetOf small with
    phase := .busy
    cmd := op
    op := op
    inLen := BitVec.ofNat 32 bytes.length
    n := BitVec.ofNat 32 bytes.length
    inBuf := loadInput ⟨[], 0⟩ 0 bytes }

/-- The same, with the output `out` already there and the cursor at `p`. -/
def going (op : Op) (bytes out : List Byte) (p : Word) : State :=
  { begun op bytes with
    p := p
    m := BitVec.ofNat 32 out.length
    outBuf := loadInput ⟨[], 0⟩ 0 out
    hist := loadInput ⟨[], 0⟩ 0 out }

/-- The same with OUT full up to `m` as far as the count goes. -/
def countAt (s : State) (m : Word) : State := { s with m := m }

/-- The outcome is a next state that passes the check. -/
def nextIs (o : Host.Outcome State Fault Refusal) (check : State → Bool) : Bool :=
  match o with
  | .next t => check t
  | .fault _ => false
  | .refused _ => false

/-- Phase, p, m and the first bytes of OUT of a state. -/
def view (t : State) (k : Nat) : Word × Word × Word × List (Option Byte) :=
  (t.statusWord, t.p, t.m, (List.range k).map t.outBuf.find?)

/-- R6: the value column of the parameters that have one. -/
theorem test_parameters :
    Config.standard.windowSize = 20 ∧ Config.standard.maxOffset = 20 ∧
      Config.standard.minMatch = 3 ∧ Config.standard.maxMatch = 255 ∧
      Config.standard.rleMax = 255 ∧ Config.standard.histDepth = 256 ∧
      Config.standard.regWidth = 32 := by decide

/-! ## One step per instruction -/

/-- 95 section 4, "reset; write CMD = 1": the start. -/
theorem test_start_rleCompress :
    nextIs (step { State.reset with hostQueue := [.writeReg 0 1] })
      (fun t => t.statusWord == 1 && t.op == 1 && t.cmd == 1 && t.n == 0 && t.hostQueue == [])
      = true := by decide

/-- R102: the run 41 41 41 of 41 41 41 42 becomes 03 41. -/
theorem test_rleCompress_run :
    nextIs (step (begun 1 [0x41, 0x41, 0x41, 0x42]))
      (fun t => view t 3 == (1, 3, 2, [some 3, some 0x41, none])) = true := by decide

/-- R105: at p = n the empty stream completes Ok with OUT_LEN 0 (95 section 3.1). -/
theorem test_rleDecompress_empty :
    nextIs (step (begun 2 [])) (fun t => t.statusWord == 2 && t.outLen == 0) = true := by decide

/-- 95 section 4: IN_LEN = IN_CAP + 1, then CMD = 2. -/
theorem test_start_bad_length :
    nextIs (exec .rleDecompress { State.resetOf small with inLen := 17 })
      (fun t => t.statusWord == 0x00000D06 && t.cmd == 2) = true := by decide

/-- R129: at p = 0 of "AAAAB" a literal. -/
theorem test_winCompress_literal :
    nextIs (step (begun 3 [0x41, 0x41, 0x41, 0x41, 0x42]))
      (fun t => view t 3 == (1, 1, 2, [some 0, some 0x41, none]) &&
        t.hist.find? 0 == some 0x41) = true := by decide

/-- 95 section 2.2, tie: at p = 8 of "ABCxABCyABC" offset 4 wins, 01 04 03. -/
theorem test_winCompress_tie :
    nextIs (step (going 3
        [0x41, 0x42, 0x43, 0x78, 0x41, 0x42, 0x43, 0x79, 0x41, 0x42, 0x43] [] 8))
      (fun t => view t 4 == (1, 11, 3, [some 1, some 4, some 3, none])) = true := by decide

/-- 95 section 2.3: find(1) of "AAA" is (1, 2), below MIN. -/
theorem test_find_short : find (going 3 [0x41, 0x41, 0x41] [] 1) = (1, 2) := by decide

/-- R160: at p = n the decoder completes with OUT_LEN = m. -/
theorem test_winDecompress_end :
    nextIs (step (going 4 [0, 0x41] [0x41] 2))
      (fun t => t.statusWord == 2 && t.outLen == 1 && t.outBuf.find? 0 == some 0x41)
      = true := by decide

/-- 95 section 4: write CMD = 7 gives STATUS 0x00000E06, with a long IN_LEN too. -/
theorem test_cmdReserved :
    nextIs (step { State.resetOf small with inLen := 17, hostQueue := [.writeReg 0 7] })
      (fun t => t.statusWord == 0x00000E06 && t.errPos == 0 && t.cmd == 7) = true := by decide

/-- 95 section 3.1: RUN 3, 41 of 03 41 01 42. -/
theorem test_run :
    nextIs (step (begun 2 [3, 0x41, 1, 0x42]))
      (fun t => view t 4 == (1, 2, 3, [some 0x41, some 0x41, some 0x41, none])) = true := by decide

/-- R107, R203: 41 copies on a part of 40 bytes, fault at the count byte. -/
theorem test_run_overflow :
    nextIs (step (begun 2 [41, 0x41]))
      (fun t => t.statusWord == 0x00000C06 && t.errPos == 0) = true := by decide

/-- 95 section 3.1: 02 41 00 42 faults at 2. -/
theorem test_rleZeroCount :
    nextIs (step (going 2 [2, 0x41, 0, 0x42] [0x41, 0x41] 2))
      (fun t => t.statusWord == 0x0000020E && t.errPos == 2) = true := by decide

/-- 95 section 3.1: 00 41 07 reports the odd length at 2, not the zero count at 0. -/
theorem test_rleTrailingByte :
    nextIs (step (begun 2 [0, 0x41, 7]))
      (fun t => t.statusWord == 0x0000010E && t.errPos == 2) = true := by decide

/-- 95 section 3.2: 00 01 00 00, a literal equal to a tag. -/
theorem test_lit :
    nextIs (step (begun 4 [0, 1, 0, 0])) (fun t => view t 2 == (1, 2, 1, [some 1, none]))
      = true := by decide

/-- 95 section 3.2: offset 2, length 5 after "AB" gives "ABABABA". -/
theorem test_match_overlap :
    nextIs (step (going 4 [0, 0x41, 0, 0x42, 1, 2, 5] [0x41, 0x42] 4))
      (fun t => view t 8 == (1, 7, 7, [some 0x41, some 0x42, some 0x41, some 0x42, some 0x41,
        some 0x42, some 0x41, none])) = true := by decide

/-- 95 section 3.2 and Program 5: offset m + 1 faults at the tag. -/
theorem test_match_bad_offset :
    nextIs (step (going 4 [0, 0x41, 1, 2, 3] [0x41] 2))
      (fun t => t.statusWord == 0x0000050E && t.errPos == 2) = true := by decide

/-- 95 section 3.2: FF 00. -/
theorem test_winIllegalTag :
    nextIs (step (begun 4 [0xFF, 0])) (fun t => t.statusWord == 0x0000040E && t.errPos == 0)
      = true := by decide

/-- 95 section 3.2: 00. -/
theorem test_winLitTruncated :
    nextIs (step (begun 4 [0])) (fun t => t.statusWord == 0x0000030E && t.errPos == 0)
      = true := by decide

/-- 95 section 3.2: 00 41 01 05 is truncated at 2. -/
theorem test_winMatchTruncated :
    nextIs (step (going 4 [0, 0x41, 1, 5] [0x41] 2))
      (fun t => t.statusWord == 0x0000030E && t.errPos == 2) = true := by decide

/-! ## Placing a word of the opcode table -/

theorem test_fetchWord_command :
    nextIs (step (State.reset.withFetchWord 8 4)) (fun t => t.statusWord == 1 && t.op == 4)
      = true := by decide

theorem test_fetchWord_token :
    nextIs (step (State.reset.withFetchWord 8 0x80))
      (fun t => t.statusWord == 0x0000040E && t.hostQueue == []) = true := by decide

/-! ## The reference functions, on vectors of 95 section 2 -/

theorem test_ref_rleCompress :
    refRleCompress small [0xFF, 0xFF, 0x00] = [2, 0xFF, 1, 0x00] ∧
      splitRun 255 (510, 0) = [(255, 0), (255, 0)] := by decide

theorem test_ref_winCompress :
    refWinCompress { small with maxMatch := 8 } [0x41, 0x42, 0x41, 0x42, 0x41, 0x42] =
      [0, 0x41, 0, 0x42, 1, 2, 4] := by decide

theorem test_ref_decompress :
    refRleDecompress small [2, 0x41, 0, 0x42] = .fault .rleZeroCount 2 ∧
      refWinDecompress small [0, 0x41, 1, 0, 5] = .fault .winZeroOffset 2 ∧
      refWinDecompress small [0, 0x61, 1, 1, 3] = .ok [0x61, 0x61, 0x61, 0x61] := by decide

/-- R85: RUNS 256, 7 is RUN 255, 7 then RUN 1, 7; LITS "AB" is two LIT. -/
theorem test_pseudo :
    assemble (pseudoRuns 256 7) = [255, 7, 1, 7] ∧
      assemble (pseudoLits ['A', 'B']) = [0, 0x41, 0, 0x42] := by decide

/-! ## Witnesses of the statements' hypotheses -/

theorem small_valid : small.Valid := by decide

/-- What the engine's statements ask of a state: a valid part, a silent host, `op` running. -/
abbrev Running (op : Op) (s : State) : Prop :=
  s.cfg.Valid ∧ s.hostQueue = [] ∧ s.phase = .busy ∧ s.op = op

/-- The small part after reset, with one host access pending. -/
def asked (h : HostOp) : State := { State.resetOf small with hostQueue := [h] }

/-- The same while an operation runs. -/
def askedBusy (h : HostOp) : State := { begun 1 [0x41] with hostQueue := [h] }

/-- The invariant of a just-started operation. -/
theorem begun_inv (op : Op) (hop : Op.legal op = true) (bytes : List Byte)
    (hin : (begun op bytes).inBuf.WfBelow small.inCap)
    (hlen : (begun op bytes).n.toNat ≤ small.inCap) : Inv (begun op bytes) where
  valid := small_valid
  inWf := hin
  outWf := ⟨List.Pairwise.nil, by intro c hc; cases hc⟩
  histWf := ⟨List.Pairwise.nil, by intro c hc; cases hc⟩
  opLegal := fun _ => hop
  lengthFits := fun _ => hlen
  cursorFits := fun _ => Nat.zero_le _
  countFits := fun _ => Nat.zero_le _
  outWritten := fun _ j hj => absurd hj (Nat.not_lt_zero j)
  rleAligned := fun _ _ => rfl
  rleSize := fun _ _ => Nat.zero_le _
  winSize := fun _ _ _ => Nat.zero_le _
  histDecoder := fun _ _ d h1 h2 _ => absurd (Nat.le_trans h1 h2) (Nat.not_succ_le_zero 0)
  histEncoder := fun _ _ d h1 h2 _ => absurd (Nat.le_trans h1 h2) (Nat.not_succ_le_zero 0)
  errPosClear := fun _ => rfl
  startFaultPos := fun h => by rcases h with h | h <;> cases h
  resultFits := fun h => by cases h
  resultWritten := fun h => by cases h

theorem begun_rle_inv : Inv (begun 1 [0x41, 0x41, 0x41, 0x42]) :=
  begun_inv 1 rfl _ (by unfold Memory.WfBelow; decide) (by decide)

theorem begun_win_inv : Inv (begun 3 [0x41, 0x41, 0x41, 0x41, 0x42]) :=
  begun_inv 3 rfl _ (by unfold Memory.WfBelow; decide) (by decide)

theorem begun_lit_inv : Inv (begun 4 [0, 1, 0, 0]) :=
  begun_inv 4 rfl _ (by unfold Memory.WfBelow; decide) (by decide)

theorem begun_run_inv : Inv (begun 2 [3, 0x41, 1, 0x42]) :=
  begun_inv 2 rfl _ (by unfold Memory.WfBelow; decide) (by decide)

/-- A step that answers a next state, as the statements' hypothesis has it. -/
theorem exists_next {s : State} {check : State → Bool} (h : nextIs (step s) check = true) :
    ∃ t, step s = .next t ∧ check t = true := by
  unfold nextIs at h
  split at h
  · exact ⟨_, by assumption, h⟩
  · cases h
  · cases h

/-- CommandWordSelectsByOp: one word per clause, with high bits set. -/
theorem witness_CommandWordSelectsByOp :
    (0xFFFFFFF9#32).toNat % 8 = 1 ∧ (0xFFFFFFFA#32).toNat % 8 = 2 ∧
      (0xFFFFFFFB#32).toNat % 8 = 3 ∧ (0xFFFFFFFC#32).toNat % 8 = 4 ∧
      (0xFFFFFFF8#32).toNat % 8 = 0 ∧ 5 ≤ (0xFFFFFFFD#32).toNat % 8 := by decide

theorem witness_DecodeOfEncodeIsIdentity :
    (Instr.matchTok 255 0).wf = true ∧ (Instr.run 1 0).wf = true := by decide

theorem witness_StreamDecodeConsumesTheEncoding : ([0xFF] : List Byte) ≠ [] := by decide

/-- StepRunsDecodedInstruction: a state for each clause. -/
theorem witness_StepRunsDecodedInstruction :
    Running opRleCompress (begun 1 [0x41]) ∧ Running opWinCompress (begun 3 [0x41]) ∧
      (Running opRleDecompress (begun 2 [0x41]) ∧ (begun 2 [0x41]).n.toNat % 2 = 1) ∧
      (Running opRleDecompress (begun 2 [1, 0x41]) ∧ (begun 2 [1, 0x41]).n.toNat % 2 = 0 ∧
        decodeRle (streamAtCursor (begun 2 [1, 0x41])) = .ok (.run 1 0x41, [])) ∧
      (Running opRleDecompress (begun 2 []) ∧ (begun 2 []).n.toNat % 2 = 0 ∧
        (begun 2 []).n.toNat ≤ (begun 2 []).p.toNat) ∧
      (Running opWinDecompress (begun 4 [0, 0x41, 1]) ∧
        decodeWindow (streamAtCursor (begun 4 [0, 0x41, 1])) = .ok (.lit 0x41, [1])) ∧
      (Running opWinDecompress (begun 4 []) ∧ (begun 4 []).n.toNat ≤ (begun 4 []).p.toNat) ∧
      ((asked (.writeReg cmdOffset 9)).cfg.Valid ∧
        (asked (.writeReg cmdOffset 9)).hostQueue = .writeReg cmdOffset 9 :: [] ∧
        (asked (.writeReg cmdOffset 9)).phase ≠ .busy) := by
  refine ⟨?_, ?_, ?_, ?_, ?_, ?_, ?_, ?_⟩ <;> decide

/-- FetchReadsTokenAtCursor: the last token of each stream, and each kind of truncation. -/
theorem witness_FetchReadsTokenAtCursor :
    (Running opRleDecompress (begun 2 [0, 7]) ∧ (begun 2 [0, 7]).n.toNat % 2 = 0 ∧
        (begun 2 [0, 7]).p.toNat + 1 < (begun 2 [0, 7]).n.toNat ∧ (begun 2 [0, 7]).inByte 0 = 0) ∧
      (Running opRleDecompress (begun 2 [1, 7]) ∧ (begun 2 [1, 7]).n.toNat % 2 = 0 ∧
        (begun 2 [1, 7]).p.toNat + 1 < (begun 2 [1, 7]).n.toNat ∧ (begun 2 [1, 7]).inByte 0 ≠ 0) ∧
      (Running opWinDecompress (begun 4 [0, 7]) ∧ (begun 4 [0, 7]).inByte 0 = 0 ∧
        (begun 4 [0, 7]).p.toNat + 1 < (begun 4 [0, 7]).n.toNat) ∧
      (Running opWinDecompress (begun 4 [0]) ∧ (begun 4 [0]).p.toNat < (begun 4 [0]).n.toNat ∧
        (begun 4 [0]).inByte 0 = 0 ∧ (begun 4 [0]).n.toNat ≤ (begun 4 [0]).p.toNat + 1) ∧
      (Running opWinDecompress (begun 4 [1, 1, 1]) ∧ (begun 4 [1, 1, 1]).inByte 0 = 1 ∧
        (begun 4 [1, 1, 1]).p.toNat + 2 < (begun 4 [1, 1, 1]).n.toNat) ∧
      (Running opWinDecompress (begun 4 [1, 1]) ∧ (begun 4 [1, 1]).inByte 0 = 1 ∧
        (begun 4 [1, 1]).n.toNat = (begun 4 [1, 1]).p.toNat + 2) ∧
      (Running opWinDecompress (begun 4 [1]) ∧ (begun 4 [1]).inByte 0 = 1 ∧
        (begun 4 [1]).n.toNat = (begun 4 [1]).p.toNat + 1) ∧
      (Running opWinDecompress (begun 4 [2]) ∧ (begun 4 [2]).inByte 0 ≠ 0 ∧
        (begun 4 [2]).inByte 0 ≠ 1) ∧
      (Running opWinDecompress (begun 4 [255]) ∧ (begun 4 [255]).inByte 0 ≠ 0 ∧
        (begun 4 [255]).inByte 0 ≠ 1) := by
  refine ⟨?_, ?_, ?_, ?_, ?_, ?_, ?_, ?_, ?_⟩ <;> decide

/-- PhaseTransitions and CausesOfEachCommand: a step from BUSY to a fault, and a start. -/
theorem witness_PhaseTransitions :
    (∃ t, step (begun 4 [0xFF, 0]) = .next t ∧ t.phase = .doneFault .winBadTag) ∧
      (∃ t, step { State.resetOf small with hostQueue := [.writeReg 0 1] } = .next t ∧
        t.phase = .busy) ∧
      (∃ t, step { begun 1 [0x41] with hostQueue := [.reset] } = .next t ∧ t.phase = .idle) := by
  refine ⟨?_, ?_, ?_⟩
  · obtain ⟨t, h, hc⟩ := exists_next (s := begun 4 [0xFF, 0])
      (check := fun t => t.phase == .doneFault .winBadTag) (by decide)
    exact ⟨t, h, by simpa using hc⟩
  · obtain ⟨t, h, hc⟩ := exists_next
      (s := { State.resetOf small with hostQueue := [.writeReg 0 1] })
      (check := fun t => t.phase == .busy) (by decide)
    exact ⟨t, h, by simpa using hc⟩
  · obtain ⟨t, h, hc⟩ := exists_next (s := { begun 1 [0x41] with hostQueue := [.reset] })
      (check := fun t => t.phase == .idle) (by decide)
    exact ⟨t, h, by simpa using hc⟩

theorem witness_CausesOfEachCommand :
    Running opRleDecompress (begun 2 [0, 0x41]) ∧ Running opRleCompress (countAt (begun 1 [0x41]) 40) ∧
      (∃ t, step (begun 2 [0, 0x41]) = .next t ∧ t.phase = .doneFault .rleZeroCount) ∧
      (∃ t, step (countAt (begun 1 [0x41]) 40) = .next t ∧ t.phase = .doneFault .outCapacity) ∧
      (∃ t, step { State.resetOf small with hostQueue := [.writeReg 0 0] } = .next t ∧
        t.phase = .doneFault .badCommand) := by
  refine ⟨by decide, by decide, ?_, ?_, ?_⟩
  · obtain ⟨t, h, hc⟩ := exists_next (s := begun 2 [0, 0x41])
      (check := fun t => t.phase == .doneFault .rleZeroCount) (by decide)
    exact ⟨t, h, by simpa using hc⟩
  · obtain ⟨t, h, hc⟩ := exists_next (s := countAt (begun 1 [0x41]) 40)
      (check := fun t => t.phase == .doneFault .outCapacity) (by decide)
    exact ⟨t, h, by simpa using hc⟩
  · obtain ⟨t, h, hc⟩ := exists_next
      (s := { State.resetOf small with hostQueue := [.writeReg 0 0] })
      (check := fun t => t.phase == .doneFault .badCommand) (by decide)
    exact ⟨t, h, by simpa using hc⟩

/-- RegisterReads: offsets just past the map and unaligned ones inside it. -/
theorem witness_RegisterReads :
    ((asked (.readReg 0x1C)).cfg.Valid ∧
        (asked (.readReg 0x1C)).hostQueue = .readReg 0x1C :: []) ∧
      (asked (.readReg 0x0C)).phase ≠ .busy ∧ 0x1C < (0x20#32).toNat ∧ 0x1C < (0x1D#32).toNat ∧
      (0x1B#32).toNat % 4 ≠ 0 := by decide

/-- RegisterWrites: IN_LEN, its neighbours and an unaligned offset. -/
theorem witness_RegisterWrites :
    ((asked (.writeReg 0x08 5)).cfg.Valid ∧
        (asked (.writeReg 0x08 5)).hostQueue = .writeReg 0x08 5 :: [] ∧
        (asked (.writeReg 0x08 5)).phase ≠ .busy) ∧
      ((askedBusy (.writeReg 0x04 5)).cfg.Valid ∧
        (askedBusy (.writeReg 0x04 5)).hostQueue = .writeReg 0x04 5 :: [] ∧
        (0x04#32) ≠ 0x00 ∧ (0x04#32) ≠ 0x08) ∧
      ((asked (.writeReg 0x09 5)).hostQueue = .writeReg 0x09 5 :: [] ∧ (0x09#32) ≠ 0x00 ∧
        (0x09#32) ≠ 0x08) := by decide

theorem witness_StatusWordByPhase :
    State.reset.phase = .idle ∧ (begun 1 []).phase = .busy ∧ (complete (begun 1 [])).phase = .doneOk ∧
      (raise (begun 1 []) .badCommand 0).phase = .doneFault .badCommand := by decide

theorem witness_ConfigRegisterFields : Config.standard.Valid ∧
    ({ Config.standard with windowSize := 255, maxOffset := 255, minMatch := 1, maxMatch := 1 } : Config).Valid := by
  decide

/-- LegalStartRuns: IN_LEN = IN_CAP, the boundary, from DONE_FAULT. -/
theorem witness_LegalStartRuns :
    ({ State.resetOf small with inLen := 16, phase := .doneFault .winBadTag } : State).phase ≠ .busy ∧
      ({ State.resetOf small with inLen := 16, phase := .doneFault .winBadTag } : State).inLen.toNat ≤
        ({ State.resetOf small with
            inLen := 16, phase := .doneFault .winBadTag } : State).cfg.inCap ∧
      (Instr.winDecompress, opWinDecompress) ∈ [(Instr.rleCompress, opRleCompress),
        (.rleDecompress, opRleDecompress), (.winCompress, opWinCompress),
        (.winDecompress, opWinDecompress)] := by decide

/-- LongInputFailsStart and ReservedCommandFails: IN_LEN = IN_CAP + 1. -/
theorem witness_LongInputFailsStart :
    ({ State.resetOf small with inLen := 17 } : State).phase ≠ .busy ∧
      ({ State.resetOf small with inLen := 17 } : State).cfg.inCap <
        ({ State.resetOf small with inLen := 17 } : State).inLen.toNat ∧
      Op.legal 0 = false ∧ Op.legal 5 = false ∧ Op.legal 6 = false ∧ Op.legal 7 = false := by decide

/-- OperationCompletes: one byte written, and it is known. -/
theorem witness_OperationCompletes :
    (going 4 [0, 0x41] [0x41] 2).phase = .busy ∧
      (going 4 [0, 0x41] [0x41] 2).n.toNat ≤ (going 4 [0, 0x41] [0x41] 2).p.toNat ∧
      (going 4 [0, 0x41] [0x41] 2).op = opWinDecompress ∧
      (going 4 [0, 0x41] [0x41] 2).outBuf.find? 0 = some 0x41 ∧
      0 < (going 4 [0, 0x41] [0x41] 2).m.toNat := by decide

theorem witness_CommandsWhileRunning :
    ((begun 2 [1, 2]).phase = .busy ∧ (begun 2 [1, 2]).op = opRleDecompress ∧
        (begun 2 [1, 2]).p.toNat < (begun 2 [1, 2]).n.toNat) ∧
      ((begun 4 [0, 2]).phase = .busy ∧ (begun 4 [0, 2]).op = opWinDecompress ∧
        (begun 4 [0, 2]).p.toNat < (begun 4 [0, 2]).n.toNat) ∧
      (begun 4 [0, 2]).op ≠ opRleCompress := by decide

/-- RunAppendsCopies and OverflowFaultsAtToken: a count that just fits and one that just does not. -/
theorem witness_RunAppendsCopies :
    (begun 2 []).cfg.Valid ∧
      ((40#8) ≠ 0 ∧ (begun 2 []).m.toNat + (40#8).toNat ≤ (begun 2 []).cfg.outCap ∧
        (begun 2 []).op ≠ opWinCompress ∧ (begun 3 []).op = opWinCompress) ∧
      ((41#8) ≠ 0 ∧ (begun 2 []).m.toNat ≤ (begun 2 []).cfg.outCap ∧
        (begun 2 []).cfg.outCap < (begun 2 []).m.toNat + (41#8).toNat) := by decide

theorem witness_ZeroCountFaults :
    Running opRleDecompress (begun 2 [0, 9]) ∧ (begun 2 [0, 9]).n.toNat % 2 = 0 ∧
      (begun 2 [0, 9]).p.toNat + 1 < (begun 2 [0, 9]).n.toNat ∧
      (begun 2 [0, 9]).inByte (begun 2 [0, 9]).p.toNat = 0 := by decide

theorem witness_OddLengthFaults :
    Running opRleDecompress (begun 2 [5]) ∧ (begun 2 [5]).n.toNat % 2 = 1 := by decide

/-- LitAppendsByte: the last byte that fits, and OUT full. -/
theorem witness_LitAppendsByte :
    (begun 4 []).cfg.Valid ∧
      (countAt (begun 4 []) 39).m.toNat < (countAt (begun 4 []) 39).cfg.outCap ∧
      (countAt (begun 4 []) 39).op ≠ opWinCompress ∧ (countAt (begun 3 []) 39).op = opWinCompress ∧
      (countAt (begun 4 []) 40).cfg.outCap ≤ (countAt (begun 4 []) 40).m.toNat := by decide

/-- MatchCopiesOverlapping and OverflowFaultsAtToken: offset m, the longest copy that fits and the
shortest that does not. -/
theorem witness_MatchCopiesOverlapping :
    (going 4 [] [0x41] 0).cfg.Valid ∧
      ((1#8) ≠ 0 ∧ (1#8).toNat ≤ (going 4 [] [0x41] 0).m.toNat ∧
        (going 4 [] [0x41] 0).m.toNat + (39#8).toNat ≤ (going 4 [] [0x41] 0).cfg.outCap ∧
        (going 4 [] [0x41] 0).op ≠ opWinCompress ∧ (going 3 [] [0x41] 0).op = opWinCompress) ∧
      ((going 4 [] [0x41] 0).m.toNat ≤ (going 4 [] [0x41] 0).cfg.outCap ∧
        (going 4 [] [0x41] 0).cfg.outCap < (going 4 [] [0x41] 0).m.toNat + (40#8).toNat) := by decide

theorem witness_ZeroOffsetFaults :
    Running opWinDecompress (begun 4 [1, 0, 0]) ∧
      (begun 4 [1, 0, 0]).p.toNat + 2 < (begun 4 [1, 0, 0]).n.toNat ∧
      (begun 4 [1, 0, 0]).inByte 0 = 1 ∧ (begun 4 [1, 0, 0]).inByte 1 = 0 := by decide

/-- FarOffsetFaults: offset m + 1, and offset m with the longest copy that fits. -/
theorem witness_FarOffsetFaults :
    (Running opWinDecompress (going 4 [1, 2, 3] [0x41] 0) ∧
        (going 4 [1, 2, 3] [0x41] 0).p.toNat + 2 < (going 4 [1, 2, 3] [0x41] 0).n.toNat ∧
        (going 4 [1, 2, 3] [0x41] 0).inByte 0 = 1 ∧ (going 4 [1, 2, 3] [0x41] 0).inByte 1 ≠ 0 ∧
        (going 4 [1, 2, 3] [0x41] 0).m.toNat < ((going 4 [1, 2, 3] [0x41] 0).inByte 1).toNat) ∧
      (Running opWinDecompress (going 4 [1, 1, 39] [0x41] 0) ∧
        (going 4 [1, 1, 39] [0x41] 0).p.toNat + 2 < (going 4 [1, 1, 39] [0x41] 0).n.toNat ∧
        (going 4 [1, 1, 39] [0x41] 0).inByte 0 = 1 ∧ (going 4 [1, 1, 39] [0x41] 0).inByte 1 ≠ 0 ∧
        ((going 4 [1, 1, 39] [0x41] 0).inByte 1).toNat ≤ (going 4 [1, 1, 39] [0x41] 0).m.toNat ∧
        (going 4 [1, 1, 39] [0x41] 0).m.toNat + ((going 4 [1, 1, 39] [0x41] 0).inByte 2).toNat ≤
          (going 4 [1, 1, 39] [0x41] 0).cfg.outCap) := by decide

/-- IllegalTagFaults: the least and the greatest illegal tag, as the last byte. -/
theorem witness_IllegalTagFaults :
    (Running opWinDecompress (begun 4 [2]) ∧ (begun 4 [2]).p.toNat < (begun 4 [2]).n.toNat ∧
        (begun 4 [2]).inByte 0 ≠ 0 ∧ (begun 4 [2]).inByte 0 ≠ 1) ∧
      (Running opWinDecompress (begun 4 [255]) ∧ (begun 4 [255]).p.toNat < (begun 4 [255]).n.toNat ∧
        (begun 4 [255]).inByte 0 ≠ 0 ∧ (begun 4 [255]).inByte 0 ≠ 1) := by decide

theorem witness_TruncationFaults :
    (Running opWinDecompress (begun 4 [0]) ∧ (begun 4 [0]).p.toNat < (begun 4 [0]).n.toNat ∧
        (begun 4 [0]).inByte 0 = 0 ∧ (begun 4 [0]).n.toNat ≤ (begun 4 [0]).p.toNat + 1) ∧
      (Running opWinDecompress (begun 4 [1, 9]) ∧
        (begun 4 [1, 9]).p.toNat < (begun 4 [1, 9]).n.toNat ∧ (begun 4 [1, 9]).inByte 0 = 1 ∧
        (begun 4 [1, 9]).n.toNat ≤ (begun 4 [1, 9]).p.toNat + 2) := by decide

theorem witness_RleCompressEncodesRun :
    Running opRleCompress (begun 1 [0x41, 0x41, 0x41, 0x42]) ∧
      RunAt (begun 1 [0x41, 0x41, 0x41, 0x42]) 3 ∧
      (begun 1 [0x41, 0x41, 0x41, 0x42]).m.toNat + 2 * ((3 - 1) / 255 + 1) ≤
        (begun 1 [0x41, 0x41, 0x41, 0x42]).cfg.outCap :=
  ⟨by decide, ⟨by decide, by decide, by decide, by decide⟩, by decide⟩

theorem witness_WinCompressEncodesToken :
    (Running opWinCompress (begun 3 [0x41]) ∧ (begun 3 [0x41]).p.toNat < (begun 3 [0x41]).n.toNat ∧
        (find (begun 3 [0x41])).2 < (begun 3 [0x41]).cfg.minMatch ∧
        (begun 3 [0x41]).m.toNat + 2 ≤ (begun 3 [0x41]).cfg.outCap) ∧
      (Running opWinCompress (going 3 [0x41, 0x41, 0x41, 0x41] [0, 0x41] 1) ∧
        (going 3 [0x41, 0x41, 0x41, 0x41] [0, 0x41] 1).p.toNat <
          (going 3 [0x41, 0x41, 0x41, 0x41] [0, 0x41] 1).n.toNat ∧
        (going 3 [0x41, 0x41, 0x41, 0x41] [0, 0x41] 1).cfg.minMatch ≤
          (find (going 3 [0x41, 0x41, 0x41, 0x41] [0, 0x41] 1)).2 ∧
        (going 3 [0x41, 0x41, 0x41, 0x41] [0, 0x41] 1).m.toNat + 3 ≤
          (going 3 [0x41, 0x41, 0x41, 0x41] [0, 0x41] 1).cfg.outCap) := by decide

/-- MatchLengthIsLargest: offset 1, with a common slice of length 1 up to the end of the input. -/
theorem witness_MatchLengthIsLargest :
    1 ≤ 1 ∧ 1 ≤ (going 3 [0x41, 0x41] [] 1).p.toNat ∧
      (going 3 [0x41, 0x41] [] 1).p.toNat ≤ (going 3 [0x41, 0x41] [] 1).n.toNat ∧
      1 ≤ (going 3 [0x41, 0x41] [] 1).cfg.maxMatch ∧
      (going 3 [0x41, 0x41] [] 1).p.toNat + 1 ≤ (going 3 [0x41, 0x41] [] 1).n.toNat ∧
      ∀ i, i < 1 → (going 3 [0x41, 0x41] [] 1).inByte ((going 3 [0x41, 0x41] [] 1).p.toNat + i) =
        (going 3 [0x41, 0x41] [] 1).inByte ((going 3 [0x41, 0x41] [] 1).p.toNat - 1 + i) := by decide

theorem witness_FinderPicksNearestLongest :
    0 < (find (going 3 [0x41, 0x41] [] 1)).2 ∧ (find (begun 3 [0x41])).2 = 0 ∧
      small.Valid ∧ 1 ≤ min small.windowSize (going 3 [0x41, 0x41] [] 1).p.toNat := by decide

theorem witness_ExecKeepsInput : ∃ t, exec .winLitTruncated (begun 4 [0]) = .next t := ⟨_, rfl⟩

theorem witness_OutputIsAppendOnly :
    Inv (begun 4 [0, 1, 0, 0]) ∧ (begun 4 [0, 1, 0, 0]).phase = .busy ∧
      ∃ t, step (begun 4 [0, 1, 0, 0]) = .next t ∧ t.phase = .busy := by
  refine ⟨begun_lit_inv, rfl, ?_⟩
  obtain ⟨t, h, hc⟩ := exists_next (s := begun 4 [0, 1, 0, 0])
    (check := fun t => t.phase == .busy) (by decide)
  exact ⟨t, h, by simpa using hc⟩

theorem witness_CanonicalMemoryKept :
    (begun 1 [0x41]).inBuf.Wf ∧ (begun 1 [0x41]).outBuf.Wf ∧ (begun 1 [0x41]).hist.Wf ∧
      ∃ t, step (begun 1 [0x41]) = .next t :=
  ⟨by decide, by decide, by decide, by
    obtain ⟨t, h, -⟩ := exists_next (s := begun 1 [0x41]) (check := fun _ => true) (by decide)
    exact ⟨t, h⟩⟩

theorem witness_InvariantKeptByStep :
    Inv (begun 2 [3, 0x41, 1, 0x42]) ∧ ∃ t, step (begun 2 [3, 0x41, 1, 0x42]) = .next t :=
  ⟨begun_run_inv, by
    obtain ⟨t, h, -⟩ := exists_next (s := begun 2 [3, 0x41, 1, 0x42]) (check := fun _ => true)
      (by decide)
    exact ⟨t, h⟩⟩

theorem witness_CompressionNeverFaults :
    (Inv (begun 1 [0x41, 0x41, 0x41, 0x42]) ∧ (begun 1 [0x41, 0x41, 0x41, 0x42]).phase = .busy ∧
        (begun 1 [0x41, 0x41, 0x41, 0x42]).op = opRleCompress) ∧
      (Inv (begun 3 [0x41, 0x41, 0x41, 0x41, 0x42]) ∧
        (begun 3 [0x41, 0x41, 0x41, 0x41, 0x42]).phase = .busy ∧
        (begun 3 [0x41, 0x41, 0x41, 0x41, 0x42]).op = opWinCompress ∧ 2 ≤ small.minMatch) ∧
      ∃ t, step (begun 3 [0x41, 0x41, 0x41, 0x41, 0x42]) = .next t :=
  ⟨⟨begun_rle_inv, rfl, rfl⟩, ⟨begun_win_inv, rfl, rfl, by decide⟩, by
    obtain ⟨t, h, -⟩ := exists_next (s := begun 3 [0x41, 0x41, 0x41, 0x41, 0x42])
      (check := fun _ => true) (by decide)
    exact ⟨t, h⟩⟩

theorem witness_OperationEnds :
    Inv (begun 4 [0, 1, 0, 0]) ∧ (begun 4 [0, 1, 0, 0]).phase = .busy ∧
      (begun 4 [0, 1, 0, 0]).hostQueue = [] := ⟨begun_lit_inv, rfl, rfl⟩

/-- A just-started operation, for the four Computes statements. -/
theorem begun_started (op : Op) (bytes : List Byte)
    (h : (begun op bytes).n.toNat ≤ small.inCap) : Started op (begun op bytes) :=
  ⟨small_valid, rfl, rfl, rfl, rfl, rfl, h, rfl⟩

theorem witness_Computes :
    Started opRleCompress (begun 1 [0x41, 0x41]) ∧ Started opRleDecompress (begun 2 [2, 0x41]) ∧
      Started opWinCompress (begun 3 [0x41]) ∧ Started opWinDecompress (begun 4 [0, 0x41]) ∧
      2 ≤ small.minMatch :=
  ⟨begun_started 1 _ (by decide), begun_started 2 _ (by decide), begun_started 3 _ (by decide),
    begun_started 4 _ (by decide), by decide⟩

theorem witness_SizesAndListRoundTrips :
    small.Valid ∧ 2 ≤ small.minMatch ∧ ([0x41, 0x42] : List Byte).length ≤ small.outCap ∧
      1 ≤ (1 : Nat) := by decide

/-- RleRoundTrip, OperationsAreIndependent: the empty input, compressed in one step. -/
theorem witness_RleRoundTrip :
    Started opRleCompress (begun 1 []) ∧ Reaches 1 (begun 1 []) (complete (begun 1 [])) ∧
      (complete (begun 1 [])).phase = .doneOk ∧ Started opRleDecompress (begun 2 []) ∧
      (begun 2 []).inputBytes =
        (complete (begun 1 [])).outputBytes (complete (begun 1 [])).outLen.toNat ∧
      (begun 1 []).n.toNat ≤ small.outCap :=
  ⟨begun_started 1 _ (by decide), rfl, rfl, begun_started 2 _ (by decide), rfl, by decide⟩

theorem witness_WinRoundTrip :
    Started opWinCompress (begun 3 []) ∧ 2 ≤ small.minMatch ∧
      Reaches 1 (begun 3 []) (complete (begun 3 [])) ∧
      (complete (begun 3 [])).phase = .doneOk ∧ Started opWinDecompress (begun 4 []) ∧
      (begun 4 []).inputBytes =
        (complete (begun 3 [])).outputBytes (complete (begun 3 [])).outLen.toNat ∧
      (begun 3 []).n.toNat ≤ small.outCap :=
  ⟨begun_started 3 _ (by decide), by decide, rfl, rfl, begun_started 4 _ (by decide), rfl,
    by decide⟩

/-- OperationsAreIndependent: two starts that differ in what a register and HIST hold. -/
theorem witness_OperationsAreIndependent :
    Started opRleCompress (begun 1 []) ∧
      Started opRleCompress { begun 1 [] with runVal := 7, hist := ⟨[(0, 9)], 3⟩ } ∧
      (begun 1 []).inputBytes =
        ({ begun 1 [] with runVal := 7, hist := ⟨[(0, 9)], 3⟩ } : State).inputBytes ∧
      Reaches 1 (begun 1 []) (complete (begun 1 [])) ∧ (complete (begun 1 [])).phase ≠ .busy :=
  ⟨begun_started 1 _ (by decide), ⟨small_valid, rfl, rfl, rfl, rfl, rfl, by decide, rfl⟩, rfl, rfl,
    by decide⟩

theorem witness_ResetSignal :
    (askedBusy .reset).cfg.Valid ∧ (askedBusy .reset).hostQueue = .reset :: [] := by decide

theorem witness_BusyDutiesRefused :
    (askedBusy (.writeReg 0x00 1)).cfg.Valid ∧ (askedBusy (.writeReg 0x00 1)).phase = .busy ∧
      (askedBusy (.writeReg 0x00 1)).hostQueue = .writeReg 0x00 1 :: [] ∧
      (askedBusy (.writeReg 0x08 1)).hostQueue = .writeReg 0x08 1 :: [] ∧
      (askedBusy (.writeIn 0 1)).hostQueue = .writeIn 0 1 :: [] ∧
      (askedBusy (.readOut 0)).hostQueue = .readOut 0 :: [] ∧
      (askedBusy (.writeOut 0 1)).hostQueue = .writeOut 0 1 :: [] := by decide

/-- HostByteAccesses: the last index of each buffer and the first beyond it. -/
theorem witness_HostByteAccesses :
    ((asked (.writeIn 15 1)).cfg.Valid ∧ (asked (.writeIn 15 1)).phase ≠ .busy ∧
        (asked (.writeIn 15 1)).hostQueue = .writeIn 15 1 :: [] ∧ 15 < small.inCap) ∧
      ((asked (.writeOut 39 1)).hostQueue = .writeOut 39 1 :: [] ∧ 39 < small.outCap) ∧
      ((asked (.readIn 16)).hostQueue = .readIn 16 :: [] ∧ small.inCap ≤ 16) ∧
      ((asked (.readOut 40)).hostQueue = .readOut 40 :: [] ∧ small.outCap ≤ 40) := by decide

/-- PollWaitsForDone: done, idle, busy. -/
theorem witness_PollWaitsForDone :
    ({ complete (begun 1 []) with hostQueue := [.poll] } : State).phase ≠ .idle ∧
      ({ complete (begun 1 []) with hostQueue := [.poll] } : State).phase ≠ .busy ∧
      ({ complete (begun 1 []) with hostQueue := [.poll] } : State).cfg.Valid ∧
      ({ complete (begun 1 []) with hostQueue := [.poll] } : State).hostQueue = .poll :: [] ∧
      ((asked .poll).cfg.Valid ∧ (asked .poll).hostQueue = .poll :: [] ∧
        (asked .poll).phase = .idle) ∧
      ((askedBusy .poll).cfg.Valid ∧ (askedBusy .poll).hostQueue = .poll :: [] ∧
        (askedBusy .poll).phase = .busy) := by decide

theorem witness_BadConfigurationRefused :
    ¬ (State.resetOf { small with histDepth := 254 }).cfg.Valid ∧
      ¬ (State.resetOf { small with outCap := 31 }).cfg.Valid ∧
      ¬ (State.resetOf { small with maxOffset := 21 }).cfg.Valid ∧
      ¬ (State.resetOf { small with regWidth := 16 }).cfg.Valid := by decide

end Sys2Proof.Tests
end

section
/-!
PROOFS. The scope family (00_scope.md): R7's refusal of a bad configuration, and R10's OutputCapacity
for a RUN or MATCH that does not fit. Laws/Ops.lean says that the two byte loops raise at p; what they
leave unchanged up to that raise is said here once per loop.
-/

namespace Sys2Proof.Machine

/-! ## What a byte loop leaves unchanged -/

/-- From `s` to `t` only what `emit` writes may have changed, its fault included: the fault record, OUT
and OUT_LEN, HIST, m and the draw counter (R10, R204). -/
def EmitFrame (s t : State) : Prop :=
  t = { s with
    phase := t.phase, errPos := t.errPos, outLen := t.outLen, outBuf := t.outBuf
    draw := t.draw, hist := t.hist, m := t.m }

theorem raise_emitFrame (s : State) (c : Cause) (pos : Word) : EmitFrame s (raise s c pos) := rfl

/-- RUN's loop changes run_len besides what `emit` changes (R107). -/
theorem expandRun_emitFrame (k : Nat) (s : State) :
    EmitFrame { s with runLen := (expandRun k s).state.runLen } (expandRun k s).state := by
  induction k generalizing s with
  | zero => rfl
  | succ k ih =>
    rw [expandRun]
    rcases emit_cases (s := s) (v := s.runVal) rfl with ⟨-, h⟩ | ⟨-, h⟩ <;> rw [h]
    · exact ih (takeFromRun (appendByte s s.runVal) 1)
    · exact raise_emitFrame s .outCapacity s.p

/-- MATCH's loop changes copy_rem besides what `emit` changes (R156). -/
theorem copyLoop_emitFrame (base k i : Nat) (s : State) :
    EmitFrame { s with copyRem := (copyLoop base k i s).state.copyRem }
      (copyLoop base k i s).state := by
  induction k generalizing i s with
  | zero => rfl
  | succ k ih =>
    rw [copyLoop]
    rcases emit_cases (s := s) (v := s.outByte (base + i)) rfl with ⟨-, h⟩ | ⟨-, h⟩ <;> rw [h]
    · exact ih (i + 1) (countCopied (appendByte s (s.outByte (base + i))))
    · exact raise_emitFrame s .outCapacity s.p

/-! ## The tokens that do not fit -/

theorem raise_outCapacity_statusWord (s : State) (pos : Word) :
    (raise s .outCapacity pos).statusWord = 0x00000C06 := by
  rw [State.statusWord, raise_phase]
  decide

theorem outCap_lt_of_valid {c : Config} (h : c.Valid) : c.outCap < 2 ^ 32 := by
  obtain ⟨-, -, -, -, -, -, hcap, -, -⟩ := h
  omega

/-- A RUN that does not fit ends in OutputCapacity at p; the raise is taken in a state that differs
from the one with the token loaded by what the loop changes alone. -/
theorem exec_run_of_overflow {s : State} {count : Byte} (value : Byte) (hv : s.cfg.Valid)
    (hcount : count ≠ 0) (hm : s.m.toNat ≤ s.cfg.outCap)
    (hover : s.cfg.outCap < s.m.toNat + count.toNat) :
    ∃ u, exec (.run count value) s = .next (raise u .outCapacity s.p) ∧
      EmitFrame { loadRun s value (zext count) with runLen := u.runLen }
        (raise u .outCapacity s.p) := by
  have hframe := expandRun_emitFrame count.toNat (loadRun s value (zext count))
  obtain ⟨u, hu⟩ := expandRun_of_overflow (s := loadRun s value (zext count)) hm hover
    (outCap_lt_of_valid hv)
  rw [hu] at hframe
  refine ⟨u, ?_, hframe⟩
  rw [exec, execRun, runToken, if_neg hcount, hu]
  rfl

/-- A MATCH with a legal offset that does not fit ends in OutputCapacity at p, likewise. -/
theorem exec_matchTok_of_overflow {s : State} {offset length : Byte} (hv : s.cfg.Valid)
    (hzero : offset ≠ 0) (hfar : offset.toNat ≤ s.m.toNat) (hm : s.m.toNat ≤ s.cfg.outCap)
    (hover : s.cfg.outCap < s.m.toNat + length.toNat) :
    ∃ u, exec (.matchTok offset length) s = .next (raise u .outCapacity s.p) ∧
      EmitFrame { unpackMatch s offset length with copyRem := u.copyRem }
        (raise u .outCapacity s.p) := by
  have hframe := copyLoop_emitFrame (s.m.toNat - offset.toNat) length.toNat 0
    (unpackMatch s offset length)
  obtain ⟨u, hu⟩ := copyLoop_of_overflow (s := unpackMatch s offset length)
    (base := s.m.toNat - offset.toNat) (i := 0) hm hover (outCap_lt_of_valid hv)
  rw [hu] at hframe
  refine ⟨u, ?_, hframe⟩
  rw [exec, execMatchTok, matchToken, if_neg hzero, if_neg (Nat.not_lt.mpr hfar), hu]
  rfl

/-! ## The obligations -/

/-- Settles O24: each byte loop raises at p, and changes nothing but its own counter and what `emit`
writes. -/
theorem overflowFaultsAtToken : Obligations.OverflowFaultsAtToken := by
  unfold Obligations.OverflowFaultsAtToken
  constructor
  · intro s count value hv hcount hm hover
    obtain ⟨u, hexec, hframe⟩ := exec_run_of_overflow value hv hcount hm hover
    exact ⟨_, hexec, raise_outCapacity_statusWord u s.p, hframe⟩
  · intro s offset length hv hzero hfar hm hover
    obtain ⟨u, hexec, hframe⟩ := exec_matchTok_of_overflow hv hzero hfar hm hover
    exact ⟨_, hexec, raise_outCapacity_statusWord u s.p, hframe⟩

/-- Settles O60: the validity test is the first thing a step does. -/
theorem badConfigurationRefused : Obligations.BadConfigurationRefused := by
  unfold Obligations.BadConfigurationRefused
  exact fun _ h => step_of_invalid h

end Sys2Proof.Machine
end

section
/-!
PROOFS. What a step can do, said once: the inversion of a step into the host's accesses, a start and a
running instruction, and of a running instruction into going on, completing and raising. `Grown` is what
every piece of a running algorithm keeps, on any part R7 allows and without the invariant.
-/

namespace Sys2Proof.Machine

/-! ## HIST as the last bytes of a sequence -/

/-- A circular buffer of `depth` cells holds the last bytes of the sequence `f` of length `k` (R35). -/
def Follows (mem : Memory) (depth : Nat) (f : Nat → Byte) (k : Nat) : Prop :=
  ∀ d, 1 ≤ d → d ≤ k → d ≤ depth → mem.read .history ((k - d) % depth) = f (k - d)

/-- Two indices less than `depth` apart have different cells. -/
theorem sub_mod_ne {k d depth : Nat} (h1 : 0 < d) (hk : d ≤ k) (hd : d < depth) :
    (k - d) % depth ≠ k % depth := by
  intro h
  have h0 := Nat.sub_mod_eq_zero_of_mod_eq h.symm
  rw [Nat.sub_sub_self hk, Nat.mod_eq_of_lt hd] at h0
  omega

theorem Follows.congr {mem : Memory} {depth k : Nat} {f g : Nat → Byte} (h : Follows mem depth f k)
    (hfg : ∀ j, j < k → g j = f j) : Follows mem depth g k := fun d h1 hk hd => by
  rw [h d h1 hk hd, hfg _ (by omega)]

/-- Writing the sequence's next byte at its cell makes the buffer follow one byte more. -/
theorem Follows.write {mem : Memory} {depth k : Nat} {f : Nat → Byte} (h : Follows mem depth f k) :
    Follows (mem.write (k % depth) (f k)) depth f (k + 1) := by
  intro d h1 hk hd
  rcases Nat.lt_or_ge 1 d with hlt | hle
  · have hidx : k + 1 - d = k - (d - 1) := by omega
    rw [hidx, Memory.read_write_other _ _ _ (sub_mod_ne (by omega) (by omega) (by omega))]
    exact h (d - 1) (by omega) (by omega) (by omega)
  · obtain rfl : d = 1 := by omega
    simp

/-! ## What a piece of a running algorithm keeps -/

/-- OUT[0..m] holds known bytes (R57). -/
def OutKnown (s : State) : Prop := ∀ j, j < s.m.toNat → (s.outBuf.find? j).isSome

/-- HIST holds the last bytes of OUT (R35, R157). -/
def HistFollowsOut (s : State) : Prop := Follows s.hist s.cfg.histDepth s.outByte s.m.toNat

/-- From `s` to `t` an algorithm has at most appended to OUT and moved its own registers: R10's emit is
all it does to the buffers, R131's history of WIN_COMPRESS apart. -/
structure Grown (s t : State) : Prop where
  same : SameInput s t
  phase : t.phase = s.phase
  errPos : t.errPos = s.errPos
  count : s.m.toNat ≤ t.m.toNat
  capped : s.m.toNat ≤ s.cfg.outCap → t.m.toNat ≤ s.cfg.outCap
  outWf : s.outBuf.WfBelow s.cfg.outCap → t.outBuf.WfBelow s.cfg.outCap
  histWf : s.hist.WfBelow s.cfg.histDepth → t.hist.WfBelow s.cfg.histDepth
  kept : ∀ j, j < s.m.toNat → t.outByte j = s.outByte j
  known : OutKnown s → OutKnown t
  window : s.op ≠ opWinCompress → HistFollowsOut s → HistFollowsOut t

/-- Moving registers other than m leaves the buffers as they are. -/
theorem Grown.of_registers {s t : State} (hsame : SameInput s t) (hphase : t.phase = s.phase)
    (herr : t.errPos = s.errPos) (hm : t.m = s.m) (hout : t.outBuf = s.outBuf)
    (hhist : t.hist = s.hist) : Grown s t where
  same := hsame
  phase := hphase
  errPos := herr
  count := by rw [hm]
  capped := by rw [hm]; exact id
  outWf := by rw [hout]; exact id
  histWf := by rw [hhist]; exact id
  kept := fun j _ => outByte_congr hout j
  known := by simp only [OutKnown, hm, hout]; exact id
  window := by
    have hread : t.outByte = s.outByte := funext (outByte_congr hout)
    simp only [HistFollowsOut, hm, hhist, hread, hsame.cfg]; exact fun _ h => h

theorem Grown.refl (s : State) : Grown s s := .of_registers (.refl s) rfl rfl rfl rfl rfl

theorem Grown.trans {s t u : State} (h : Grown s t) (g : Grown t u) : Grown s u := by
  have hcfg := h.same.cfg
  have hop := h.same.op
  have gcap := g.capped
  have gout := g.outWf
  have ghist := g.histWf
  have gwin := g.window
  rw [hcfg] at gcap gout ghist
  rw [hop] at gwin
  exact {
    same := h.same.trans g.same
    phase := g.phase.trans h.phase
    errPos := g.errPos.trans h.errPos
    count := Nat.le_trans h.count g.count
    capped := fun hs => gcap (h.capped hs)
    outWf := fun hs => gout (h.outWf hs)
    histWf := fun hs => ghist (h.histWf hs)
    kept := fun j hj => (g.kept j (Nat.lt_of_lt_of_le hj h.count)).trans (h.kept j hj)
    known := fun hs => g.known (h.known hs)
    window := fun hne hs => gwin hne (h.window hne hs) }

theorem histDepth_pos_of_valid {c : Config} (h : c.Valid) : 0 < c.histDepth := by
  obtain ⟨-, -, -, -, hdepth, -⟩ := h
  omega

theorem appendByte_grown {s : State} (v : Byte) (hv : s.cfg.Valid)
    (hroom : s.m.toNat < s.cfg.outCap) : Grown s (appendByte s v) := by
  have hcap := outCap_lt_of_valid hv
  have hm := appendByte_count (s := s) v (by omega)
  have hkept : ∀ j, j < s.m.toNat → (appendByte s v).outByte j = s.outByte j := fun j hj =>
    Memory.read_write_other _ _ _ (by omega)
  have hlast : (appendByte s v).outByte s.m.toNat = v := Memory.read_write_same _ _ _ _
  exact {
    same := ⟨rfl, rfl, rfl, rfl, rfl, rfl, rfl, rfl⟩
    phase := rfl
    errPos := rfl
    count := by omega
    capped := fun _ => by omega
    outWf := fun h => h.write hroom v
    histWf := fun h => appendBytes_histWf (bytes := [v]) h (histDepth_pos_of_valid hv)
    kept := hkept
    known := fun h j hj => by
      have hlen : (appendByte s v).m.toNat = s.m.toNat + [v].length := hm
      exact appendBytes_known (bytes := [v]) (by simp; omega) h j (hlen ▸ hj)
    window := fun hne h => by
      rw [HistFollowsOut, hm, appendByte_hist, if_neg hne]
      have := (Follows.congr h hkept).write
      rwa [hlast] at this }

/-- The causes a running algorithm raises: not those of a start (R201). -/
abbrev RunningCause (c : Cause) : Prop := c ≠ .badLength ∧ c ≠ .badCommand

/-- A run out of `s` goes on in a grown state, or is ended by a raise in one. -/
def Run.GrownFrom (s : State) : Run → Prop
  | .ok t => Grown s t
  | .error t => ∃ u c pos, Grown s u ∧ RunningCause c ∧ t = raise u c pos

theorem Run.GrownFrom.of_grown {s t : State} {r : Run} (h : Grown s t) (hr : r.GrownFrom t) :
    r.GrownFrom s := by
  cases r with
  | ok u => exact h.trans hr
  | error u =>
    obtain ⟨w, c, pos, hw, hc, hu⟩ := hr
    exact ⟨w, c, pos, h.trans hw, hc, hu⟩

theorem Run.GrownFrom.bind {s : State} {r : Run} {f : State → Run} (hv : s.cfg.Valid)
    (h : r.GrownFrom s) (hf : ∀ t, t.cfg.Valid → (f t).GrownFrom t) :
    Run.GrownFrom s (r.bind f) := by
  cases r with
  | ok t =>
    have ht : Grown s t := h
    exact (hf t (by rw [ht.same.cfg]; exact hv)).of_grown ht
  | error t => exact h

theorem raise_grownFrom (s : State) {c : Cause} (pos : Word) (h : RunningCause c) :
    Run.GrownFrom s (.error (raise s c pos)) := ⟨s, c, pos, .refl s, h, rfl⟩

theorem emit_grownFrom {s : State} (v : Byte) (hv : s.cfg.Valid) : (emit s v).GrownFrom s := by
  rcases emit_cases (s := s) (v := v) rfl with ⟨hroom, h⟩ | ⟨-, h⟩ <;> rw [h]
  · exact appendByte_grown v hv hroom
  · exact raise_grownFrom s s.p (by decide)

theorem loadRun_grown (s : State) (v : Byte) (len : Word) : Grown s (loadRun s v len) :=
  .of_registers ⟨rfl, rfl, rfl, rfl, rfl, rfl, rfl, rfl⟩ rfl rfl rfl rfl rfl

theorem takeFromRun_grown (s : State) (k : Word) : Grown s (takeFromRun s k) :=
  .of_registers ⟨rfl, rfl, rfl, rfl, rfl, rfl, rfl, rfl⟩ rfl rfl rfl rfl rfl

theorem advance_grown (s : State) (k : Word) : Grown s (advance s k) :=
  .of_registers ⟨rfl, rfl, rfl, rfl, rfl, rfl, rfl, rfl⟩ rfl rfl rfl rfl rfl

theorem countCopied_grown (s : State) : Grown s (countCopied s) :=
  .of_registers ⟨rfl, rfl, rfl, rfl, rfl, rfl, rfl, rfl⟩ rfl rfl rfl rfl rfl

theorem unpackMatch_grown (s : State) (o l : Byte) : Grown s (unpackMatch s o l) :=
  .of_registers ⟨rfl, rfl, rfl, rfl, rfl, rfl, rfl, rfl⟩ rfl rfl rfl rfl rfl

theorem runFinder_grown (s : State) : Grown s (runFinder s) :=
  .of_registers ⟨rfl, rfl, rfl, rfl, rfl, rfl, rfl, rfl⟩ rfl rfl rfl rfl rfl

/-! ## The loops -/

theorem emitAll_grownFrom (bytes : List Byte) {s : State} (hv : s.cfg.Valid) :
    (emitAll s bytes).GrownFrom s := by
  induction bytes generalizing s with
  | nil => exact Grown.refl s
  | cons v rest ih => exact (emit_grownFrom v hv).bind hv fun t ht => ih ht

theorem expandRun_grownFrom (k : Nat) {s : State} (hv : s.cfg.Valid) :
    (expandRun k s).GrownFrom s := by
  induction k generalizing s with
  | zero => exact Grown.refl s
  | succ k ih =>
    exact (emit_grownFrom s.runVal hv).bind hv fun t ht =>
      (ih (s := takeFromRun t 1) ht).of_grown (takeFromRun_grown t 1)

theorem copyLoop_grownFrom (base k i : Nat) {s : State} (hv : s.cfg.Valid) :
    (copyLoop base k i s).GrownFrom s := by
  induction k generalizing i s with
  | zero => exact Grown.refl s
  | succ k ih =>
    exact (emit_grownFrom (s.outByte (base + i)) hv).bind hv fun t ht =>
      (ih (i + 1) (s := countCopied t) ht).of_grown (countCopied_grown t)

theorem emitRun_grownFrom (fuel : Nat) {s : State} (hv : s.cfg.Valid) :
    (emitRun fuel s).GrownFrom s := by
  induction fuel generalizing s with
  | zero => exact Grown.refl s
  | succ fuel ih =>
    rw [emitRun]
    split
    · exact (emitAll_grownFrom _ hv).bind hv fun t ht =>
        (ih (s := advance (takeFromRun t (BitVec.ofNat 32 t.cfg.rleMax))
          (BitVec.ofNat 32 t.cfg.rleMax)) ht).of_grown
            ((takeFromRun_grown t _).trans (advance_grown _ _))
    · exact (emitAll_grownFrom _ hv).bind hv fun t _ => advance_grown t t.runLen

/-! ## The tokens -/

theorem rleEncodeRun_grownFrom {s : State} (hv : s.cfg.Valid) : (rleEncodeRun s).GrownFrom s :=
  Run.GrownFrom.of_grown (loadRun_grown s (s.inByte s.p.toNat) (BitVec.ofNat 32 (runLength s)))
    (emitRun_grownFrom (runLength s) hv)

theorem runToken_grownFrom {s : State} (count value : Byte) (hv : s.cfg.Valid) :
    (runToken s count value).GrownFrom s := by
  rw [runToken]
  split
  · exact raise_grownFrom s s.p (by decide)
  · have hload := loadRun_grown s value (zext count)
    exact (Run.GrownFrom.of_grown hload (expandRun_grownFrom count.toNat hv)).bind
      hv fun t _ => advance_grown t 2

theorem litToken_grownFrom {s : State} (value : Byte) (hv : s.cfg.Valid) :
    (litToken s value).GrownFrom s :=
  (emit_grownFrom value hv).bind hv fun t _ => advance_grown t 2

theorem matchToken_grownFrom {s : State} (offset length : Byte) (hv : s.cfg.Valid) :
    (matchToken s offset length).GrownFrom s := by
  have hunpack := unpackMatch_grown s offset length
  rw [matchToken]
  split
  · exact (raise_grownFrom _ s.p (by decide)).of_grown hunpack
  · split
    · exact (raise_grownFrom _ s.p (by decide)).of_grown hunpack
    · exact (Run.GrownFrom.of_grown hunpack (copyLoop_grownFrom _ length.toNat 0 hv)).bind
        hv fun t _ => advance_grown t 3

/-- In WIN_COMPRESS HIST may take any byte: it follows the input there (R35, R131). -/
theorem consumeToHist_grown {s : State} (k : Nat) (hv : s.cfg.Valid) (hop : s.op = opWinCompress) :
    Grown s (consumeToHist s k) := by
  induction k with
  | zero => exact .refl s
  | succ k ih =>
    refine ih.trans { Grown.refl (consumeToHist s k) with
      same := ⟨rfl, rfl, rfl, rfl, rfl, rfl, rfl, rfl⟩
      histWf := fun h => h.write (Nat.mod_lt _ (histDepth_pos_of_valid ?_)) _
      window := fun hne => absurd (ih.same.op.trans hop) hne }
    rw [ih.same.cfg]
    exact hv

theorem emitLiteral_grownFrom {s : State} (hv : s.cfg.Valid) : (emitLiteral s).GrownFrom s :=
  (emitAll_grownFrom _ hv).bind hv fun t _ => advance_grown t 1

theorem emitMatch_grownFrom {s : State} (hv : s.cfg.Valid) : (emitMatch s).GrownFrom s :=
  (emitAll_grownFrom _ hv).bind hv fun t _ => advance_grown t (zext t.bestLen)

theorem winEncodeToken_grownFrom {s : State} (hv : s.cfg.Valid) (hop : s.op = opWinCompress) :
    (winEncodeToken s).GrownFrom s := by
  have hconsume : ∀ k, Grown s (consumeToHist (runFinder s) k) := fun k =>
    (runFinder_grown s).trans (consumeToHist_grown k hv hop)
  have hvalid : ∀ k, (consumeToHist (runFinder s) k).cfg.Valid := fun k => by
    rw [(hconsume k).same.cfg]; exact hv
  rw [winEncodeToken]
  split
  · exact (emitMatch_grownFrom (hvalid _)).of_grown (hconsume _)
  · exact (emitLiteral_grownFrom (hvalid _)).of_grown (hconsume _)

/-! ## What a running instruction can do -/

/-- The next states of a running operation's instruction: it goes on, completes at p = n (R182), or
raises (R204). -/
inductive RunsTo (s : State) : State → Prop where
  | goesOn {t : State} (h : Grown s t) : RunsTo s t
  | completes (h : s.n.toNat ≤ s.p.toNat) : RunsTo s (complete s)
  | raises {u : State} {c : Cause} (pos : Word) (h : Grown s u) (hc : RunningCause c) :
      RunsTo s (raise u c pos)

theorem Run.GrownFrom.runsTo {s t : State} {r : Run} (hr : r.GrownFrom s)
    (h : settle r = .next t) : RunsTo s t := by
  rcases settle_eq_next h with rfl | rfl
  · exact .goesOn hr
  · obtain ⟨u, c, pos, hu, hc, rfl⟩ := hr
    exact .raises pos hu hc

/-- A run that leaves the operation running has not been ended by a raise. -/
theorem Run.GrownFrom.ok_of_busy {s t : State} {r : Run} (hr : r.GrownFrom s)
    (h : settle r = .next t) (hb : t.phase = .busy) : r = .ok t := by
  rcases settle_eq_next h with rfl | rfl
  · rfl
  · obtain ⟨u, c, pos, -, -, rfl⟩ := hr
    cases hb

theorem exec_raise_runsTo {s t : State} {c : Cause} {pos : Word} (hc : RunningCause c)
    (h : Host.Outcome.next (φ := Fault) (ρ := Refusal) (raise s c pos) = .next t) : RunsTo s t := by
  cases h
  exact .raises pos (.refl s) hc

/-- The shape the four command instructions share, `going` being the iteration: while their operation
runs they go on at p < n and complete at p = n; with none running they start; otherwise they are refused
(R181, R182, R187). -/
def commandOutcome (s : State) (o : Op) (going : Host.Outcome State Fault Refusal) :
    Host.Outcome State Fault Refusal :=
  if s.phase = .busy then
    if s.op = o then
      if s.p.toNat < s.n.toNat then going else .next (complete s)
    else .refused .cmdWriteWhileBusy
  else .next (start s o)

theorem exec_rleCompress (s : State) :
    exec .rleCompress s = commandOutcome s opRleCompress (settle (rleEncodeRun s)) := rfl

theorem exec_rleDecompress (s : State) :
    exec .rleDecompress s = commandOutcome s opRleDecompress (.next s) := rfl

theorem exec_winCompress (s : State) :
    exec .winCompress s = commandOutcome s opWinCompress (settle (winEncodeToken s)) := rfl

theorem exec_winDecompress (s : State) :
    exec .winDecompress s = commandOutcome s opWinDecompress (.next s) := rfl

theorem command_cases {s t : State} {o : Op} {going : Host.Outcome State Fault Refusal}
    (h : commandOutcome s o going = .next t) :
    (s.phase = .busy ∧ s.op = o ∧ s.p.toNat < s.n.toNat ∧ going = .next t) ∨
      (s.phase = .busy ∧ s.n.toNat ≤ s.p.toNat ∧ t = complete s) ∨
      (s.phase ≠ .busy ∧ t = start s o) := by
  unfold commandOutcome at h
  split at h
  · next hb =>
    split at h
    · next ho =>
      split at h
      · next hlt => exact .inl ⟨hb, ho, hlt, h⟩
      · next hge => cases h; exact .inr (.inl ⟨hb, Nat.not_lt.mp hge, rfl⟩)
    · cases h
  · next hnb => cases h; exact .inr (.inr ⟨hnb, rfl⟩)

/-- A command executed while an operation runs, whose iteration can do no more than a running
instruction. -/
theorem command_runsTo {s t : State} {o : Op} {going : Host.Outcome State Fault Refusal}
    (hb : s.phase = .busy) (hgoing : s.op = o → going = .next t → RunsTo s t)
    (h : commandOutcome s o going = .next t) : RunsTo s t := by
  rcases command_cases h with ⟨-, ho, -, h⟩ | ⟨-, hend, rfl⟩ | ⟨hnb, -⟩
  · exact hgoing ho h
  · exact .completes hend
  · exact absurd hb hnb

theorem next_self_runsTo {s t : State}
    (h : Host.Outcome.next (φ := Fault) (ρ := Refusal) s = .next t) : RunsTo s t := by
  cases h
  exact .goesOn (.refl s)

/-- Inversion of an instruction executed while an operation runs. -/
theorem exec_runsTo {i : Instr} {s t : State} (hv : s.cfg.Valid) (hb : s.phase = .busy)
    (h : exec i s = .next t) : RunsTo s t := by
  cases i with
  | rleCompress => exact command_runsTo hb (fun _ => (rleEncodeRun_grownFrom hv).runsTo) h
  | rleDecompress => exact command_runsTo hb (fun _ => next_self_runsTo) h
  | winCompress => exact command_runsTo hb (fun ho => (winEncodeToken_grownFrom hv ho).runsTo) h
  | winDecompress => exact command_runsTo hb (fun _ => next_self_runsTo) h
  | cmdReserved op =>
    rw [exec, execCmdReserved, if_pos hb] at h
    cases h
  | run count value => exact (runToken_grownFrom count value hv).runsTo h
  | rleZeroCount value => exact exec_raise_runsTo (by decide) h
  | rleTrailingByte last => exact exec_raise_runsTo (by decide) h
  | lit value => exact (litToken_grownFrom value hv).runsTo h
  | matchTok offset length => exact (matchToken_grownFrom offset length hv).runsTo h
  | winIllegalTag tag => exact exec_raise_runsTo (by decide) h
  | winLitTruncated => exact exec_raise_runsTo (by decide) h
  | winMatchTruncated offset => exact exec_raise_runsTo (by decide) h

end Sys2Proof.Machine
end

section
/-!
PROOFS. The inversion of a step: which of the host's accesses was taken, or which instruction the engine
or a CMD write executed. With it the phase transitions of R30, and the fields no instruction writes (R38).
-/

namespace Sys2Proof.Machine

/-! ## What a step can do -/

/-- The state with the host's own side as an access leaves it. -/
def withHost (s : State) (queue : List HostOp) (reply : Option Word) : State :=
  { s with hostQueue := queue, reply := reply }

/-- The next states of a step: the engine's move while BUSY, the host's side alone (a read, an ignored
write, or an engine that waits), a host write that stores, a start (R181), a reserved command (R185), or
reset (R230). -/
inductive StepsTo (s : State) : State → Prop where
  | engine {t : State} (queue : List HostOp) (reply : Option Word) (hb : s.phase = .busy)
      (h : exec (engineFetch s) (withHost s queue reply) = .next t) : StepsTo s t
  | hostSide (queue : List HostOp) (reply : Option Word) : StepsTo s (withHost s queue reply)
  | storeInLen (queue : List HostOp) (value : Word) (hb : s.phase ≠ .busy) :
      StepsTo s { s with hostQueue := queue, inLen := value }
  | storeIn (queue : List HostOp) {i : Nat} (b : Byte) (hb : s.phase ≠ .busy) (hi : i < s.cfg.inCap) :
      StepsTo s { s with hostQueue := queue, inBuf := s.inBuf.write i b }
  | storeOut (queue : List HostOp) {i : Nat} (b : Byte) (hb : s.phase ≠ .busy)
      (hi : i < s.cfg.outCap) :
      StepsTo s { s with hostQueue := queue, outBuf := s.outBuf.write i b }
  | starts {w : Word} {rest : List HostOp} (hq : s.hostQueue = .writeReg cmdOffset w :: rest)
      (hb : s.phase ≠ .busy) {o : Op} (ho : o.legal = true) :
      StepsTo s (start (withHost s rest s.reply) o)
  | rejects {w : Word} {rest : List HostOp} (hq : s.hostQueue = .writeReg cmdOffset w :: rest)
      (hb : s.phase ≠ .busy) (o : Op) : StepsTo s (rejectCommand (withHost s rest s.reply) o)
  | resets {rest : List HostOp} (hq : s.hostQueue = .reset :: rest) :
      StepsTo s (hardReset (withHost s rest s.reply))

/-- A command met with no operation running starts, or is rejected (R71, R181, R185). -/
theorem exec_decodeCommand {s : State} (w : Word) (hb : s.phase ≠ .busy) :
    (∃ o : Op, o.legal = true ∧ exec (decodeCommand w) s = .next (start s o)) ∨
      ∃ o : Op, exec (decodeCommand w) s = .next (rejectCommand s o) := by
  unfold decodeCommand
  split
  · exact .inl ⟨opRleCompress, by decide, if_neg hb⟩
  split
  · exact .inl ⟨opRleDecompress, by decide, if_neg hb⟩
  split
  · exact .inl ⟨opWinCompress, by decide, if_neg hb⟩
  split
  · exact .inl ⟨opWinDecompress, by decide, if_neg hb⟩
  · exact .inr ⟨opField w, if_neg hb⟩

/-- What the engine takes at the cursor does not depend on the host's own side. -/
theorem engineFetch_withHost (s : State) (queue : List HostOp) (reply : Option Word) :
    engineFetch (withHost s queue reply) = engineFetch s := rfl

/-- The engine's move: its instruction while BUSY, else nothing (R230). -/
theorem engineAction_stepsTo {s t : State} {queue : List HostOp} {reply : Option Word}
    (h : (engineAction (withHost s queue reply)).outcome = .next t) : StepsTo s t := by
  by_cases hb : s.phase = .busy
  · rw [engineAction, if_pos (show (withHost s queue reply).phase = .busy from hb),
      engineFetch_withHost] at h
    exact .engine queue reply hb h
  · rw [engineAction, if_neg (show (withHost s queue reply).phase ≠ .busy from hb)] at h
    cases h
    exact .hostSide queue reply

theorem hostWriteReg_stepsTo {s t : State} {offset value : Word} {rest : List HostOp}
    (hq : s.hostQueue = .writeReg offset value :: rest)
    (h : (hostWriteReg (withHost s rest s.reply) offset value).outcome = .next t) : StepsTo s t := by
  unfold hostWriteReg at h
  split at h
  · next hoff =>
    subst hoff
    split at h
    · cases h
    · next hb =>
      rcases exec_decodeCommand (s := withHost s rest s.reply) value hb with ⟨o, ho, he⟩ | ⟨o, he⟩
      · rw [Action.outcome, he] at h
        cases h
        exact .starts hq hb ho
      · rw [Action.outcome, he] at h
        cases h
        exact .rejects hq hb o
  split at h
  · split at h
    · cases h
    · next hb =>
      cases h
      exact .storeInLen rest value hb
  · cases h
    exact .hostSide rest s.reply

/-- A host access that has been taken from the queue. -/
theorem hostAction_stepsTo {s t : State} {access : HostOp} {rest : List HostOp}
    (hq : s.hostQueue = access :: rest)
    (h : (hostAction (withHost s rest s.reply) access).outcome = .next t) : StepsTo s t := by
  cases access with
  | readReg offset => cases h; exact .hostSide rest _
  | writeReg offset value => exact hostWriteReg_stepsTo hq h
  | readIn i =>
    simp only [hostAction, hostReadIn] at h
    split at h
    · cases h; exact .hostSide rest _
    · cases h
  | writeIn i b =>
    simp only [hostAction, hostWriteIn] at h
    split at h
    · cases h
    · next hb =>
      split at h
      · next hi => cases h; exact .storeIn rest b hb hi
      · cases h
  | readOut i =>
    simp only [hostAction, hostReadOut] at h
    split at h
    · cases h
    · split at h
      · cases h; exact .hostSide rest _
      · cases h
  | writeOut i b =>
    simp only [hostAction, hostWriteOut] at h
    split at h
    · cases h
    · next hb =>
      split at h
      · next hi => cases h; exact .storeOut rest b hb hi
      · cases h
  | reset => cases h; exact .resets hq
  | wait => exact engineAction_stepsTo h
  | poll => exact engineAction_stepsTo (reply := some s.statusWord) h

/-- Inversion of a step. -/
theorem step_stepsTo {s t : State} (h : step s = .next t) : StepsTo s t := by
  have hv := valid_of_step h
  cases hq : s.hostQueue with
  | nil =>
    rw [step, nextAction, if_pos hv, hq] at h
    exact engineAction_stepsTo (queue := s.hostQueue) (reply := s.reply) h
  | cons access rest =>
    by_cases hl : leavesQueue s access = true
    · rw [step_of_access hv hq hl] at h
      exact hostAction_stepsTo hq h
    · rw [step_of_pending hv hq (by simpa using hl)] at h
      cases access with
      | poll =>
        exact engineAction_stepsTo (queue := s.hostQueue) (reply := some s.statusWord) h
      | readReg | writeReg | readIn | writeIn | readOut | writeOut | reset | wait =>
        exact absurd rfl hl

/-! ## The phase transitions -/

theorem RunsTo.phase {s t : State} (h : RunsTo s t) (hb : s.phase = .busy) :
    t.phase = .busy ∨ t.phase = .doneOk ∨
      ∃ c, t.phase = .doneFault c ∧ c ≠ .badLength ∧ c ≠ .badCommand := by
  cases h with
  | goesOn h => exact .inl (h.phase.trans hb)
  | completes => exact .inr (.inl rfl)
  | raises pos _ hc => exact .inr (.inr ⟨_, rfl, hc⟩)

theorem start_phase (s : State) (o : Op) :
    (start s o).phase = .busy ∨ (start s o).phase = .doneFault .badLength := by
  rcases start_cases s o with ⟨-, h⟩ | ⟨-, h⟩ <;> rw [h]
  · exact .inr rfl
  · exact .inl rfl

/-- Settles O7: each way a step can go makes one of the transitions of R30. -/
theorem phaseTransitions : Obligations.PhaseTransitions := by
  unfold Obligations.PhaseTransitions
  intro s t hstep
  have hv := valid_of_step hstep
  cases step_stepsTo hstep with
  | engine queue reply hb h =>
    refine ⟨fun _ => .inr ?_, fun hnb => absurd hb hnb⟩
    exact (exec_runsTo (s := withHost s queue reply) hv hb h).phase hb
  | hostSide queue reply => exact ⟨fun hb => .inr (.inl hb), fun _ => .inr (.inl rfl)⟩
  | storeInLen queue value hnb => exact ⟨fun hb => absurd hb hnb, fun _ => .inr (.inl rfl)⟩
  | storeIn queue b hnb hi => exact ⟨fun hb => absurd hb hnb, fun _ => .inr (.inl rfl)⟩
  | storeOut queue b hnb hi => exact ⟨fun hb => absurd hb hnb, fun _ => .inr (.inl rfl)⟩
  | @starts w rest hq hnb o ho =>
    refine ⟨fun hb => absurd hb hnb, fun _ => .inr (.inr ⟨w, rest, hq, ?_⟩)⟩
    exact (start_phase (withHost s rest s.reply) o).imp_right .inl
  | @rejects w rest hq hnb o =>
    exact ⟨fun hb => absurd hb hnb, fun _ => .inr (.inr ⟨w, rest, hq, .inr (.inr rfl)⟩)⟩
  | @resets rest hq => exact ⟨fun _ => .inl ⟨rest, hq, rfl⟩, fun _ => .inl ⟨rest, hq, rfl⟩⟩

/-! ## What no instruction writes -/

/-- IN, IN_LEN, the part and the host's side are the same. -/
def KeepsInput (s t : State) : Prop :=
  t.inBuf = s.inBuf ∧ t.inLen = s.inLen ∧ t.cfg = s.cfg ∧ t.hostQueue = s.hostQueue ∧
    t.reply = s.reply

theorem SameInput.keepsInput {s t : State} (h : SameInput s t) : KeepsInput s t :=
  ⟨h.inBuf, h.inLen, h.cfg, h.hostQueue, h.reply⟩

theorem start_keepsInput (s : State) (o : Op) : KeepsInput s (start s o) := by
  rcases start_cases s o with ⟨-, h⟩ | ⟨-, h⟩ <;> rw [h] <;> exact ⟨rfl, rfl, rfl, rfl, rfl⟩

theorem advance_sameInput (s : State) (k : Word) : SameInput s (advance s k) :=
  (advance_grown s k).same

theorem rleEncodeRun_sameInput (s : State) : SameInput s (rleEncodeRun s).state :=
  (loadRun_grown s _ _).same.trans (emitRun_sameInput _ _)

theorem runToken_sameInput (s : State) (count value : Byte) :
    SameInput s (runToken s count value).state := by
  rw [runToken]
  split
  · exact ⟨rfl, rfl, rfl, rfl, rfl, rfl, rfl, rfl⟩
  · exact SameInput.bind ((loadRun_grown s value (zext count)).same.trans (expandRun_sameInput _ _))
      fun t => advance_sameInput t 2

theorem litToken_sameInput (s : State) (value : Byte) : SameInput s (litToken s value).state :=
  (emit_sameInput s value).bind (f := fun t => .ok (advance t 2)) fun t => advance_sameInput t 2

theorem matchToken_sameInput (s : State) (offset length : Byte) :
    SameInput s (matchToken s offset length).state := by
  rw [matchToken]
  split
  · exact ⟨rfl, rfl, rfl, rfl, rfl, rfl, rfl, rfl⟩
  · split
    · exact ⟨rfl, rfl, rfl, rfl, rfl, rfl, rfl, rfl⟩
    · exact SameInput.bind ((unpackMatch_grown s offset length).same.trans
        (copyLoop_sameInput _ _ _ _)) fun t => advance_sameInput t 3

theorem consumeToHist_sameInput (s : State) (k : Nat) : SameInput s (consumeToHist s k) := by
  rw [consumeToHist_frame]
  exact ⟨rfl, rfl, rfl, rfl, rfl, rfl, rfl, rfl⟩

theorem winEncodeToken_sameInput (s : State) : SameInput s (winEncodeToken s).state := by
  have hconsume : ∀ k, SameInput s (consumeToHist (runFinder s) k) := fun k =>
    (runFinder_grown s).same.trans (consumeToHist_sameInput _ k)
  rw [winEncodeToken]
  split
  · exact ((hconsume _).trans (emitAll_sameInput _ _)).bind fun t => advance_sameInput t _
  · exact ((hconsume _).trans (emitAll_sameInput _ _)).bind fun t => advance_sameInput t _

theorem settle_keepsInput {s t : State} {r : Run} (hr : SameInput s r.state)
    (h : settle r = .next t) : KeepsInput s t := by
  rw [settle_state] at h
  cases h
  exact hr.keepsInput

theorem raise_keepsInput {s t : State} {c : Cause} {pos : Word}
    (h : Host.Outcome.next (φ := Fault) (ρ := Refusal) (raise s c pos) = .next t) :
    KeepsInput s t := by
  cases h
  exact ⟨rfl, rfl, rfl, rfl, rfl⟩

theorem next_self_keepsInput {s t : State}
    (h : Host.Outcome.next (φ := Fault) (ρ := Refusal) s = .next t) : KeepsInput s t := by
  cases h
  exact ⟨rfl, rfl, rfl, rfl, rfl⟩

/-- A command's start and completion keep the input; so does the command if its iteration does. -/
theorem command_keepsInput {s t : State} {o : Op} {going : Host.Outcome State Fault Refusal}
    (hgoing : going = .next t → KeepsInput s t)
    (h : commandOutcome s o going = .next t) : KeepsInput s t := by
  rcases command_cases h with ⟨-, -, -, h⟩ | ⟨-, -, rfl⟩ | ⟨-, rfl⟩
  · exact hgoing h
  · exact ⟨rfl, rfl, rfl, rfl, rfl⟩
  · exact start_keepsInput s o

theorem exec_keepsInput {i : Instr} {s t : State} (h : exec i s = .next t) : KeepsInput s t := by
  cases i with
  | rleCompress => exact command_keepsInput (settle_keepsInput (rleEncodeRun_sameInput s)) h
  | rleDecompress => exact command_keepsInput next_self_keepsInput h
  | winCompress => exact command_keepsInput (settle_keepsInput (winEncodeToken_sameInput s)) h
  | winDecompress => exact command_keepsInput next_self_keepsInput h
  | cmdReserved op =>
    rw [exec, execCmdReserved] at h
    split at h
    · cases h
    · cases h
      exact ⟨rfl, rfl, rfl, rfl, rfl⟩
  | run count value => exact settle_keepsInput (runToken_sameInput s count value) h
  | lit value => exact settle_keepsInput (litToken_sameInput s value) h
  | matchTok offset length => exact settle_keepsInput (matchToken_sameInput s offset length) h
  | rleZeroCount value => exact raise_keepsInput h
  | rleTrailingByte last => exact raise_keepsInput h
  | winIllegalTag tag => exact raise_keepsInput h
  | winLitTruncated => exact raise_keepsInput h
  | winMatchTruncated offset => exact raise_keepsInput h

/-- Settles O34: `KeepsInput` is its statement. -/
theorem execKeepsInput : Obligations.ExecKeepsInput := by
  unfold Obligations.ExecKeepsInput
  exact fun _ _ _ h => exec_keepsInput h

end Sys2Proof.Machine
end

section
/-!
PROOFS. The invariant `Inv` is kept by every step. `Grown` gives the buffers' part of it; the rest is
where each token leaves the cursor: on a token boundary, not past n, far enough for the bytes emitted
(R104, R132), and with HIST following the consumed input in the Window encoder (R131).
-/

namespace Sys2Proof.Machine

/-! ## Where a token leaves the cursor -/

/-- From `s` to `t` the cursor has moved as the invariant wants it: forward, not past n, by whole RLE
tokens, and with the encoders' bounds and history kept. -/
structure CursorMoves (s t : State) : Prop where
  forward : s.p.toNat ≤ t.p.toNat
  fits : t.p.toNat ≤ s.n.toNat
  aligned : s.op = opRleDecompress → s.p.toNat % 2 = 0 → t.p.toNat % 2 = 0
  rleSize : s.op = opRleCompress → s.m.toNat ≤ 2 * s.p.toNat → t.m.toNat ≤ 2 * t.p.toNat
  winSize : s.op = opWinCompress → 2 ≤ s.cfg.minMatch → s.m.toNat ≤ 2 * s.p.toNat →
    t.m.toNat ≤ 2 * t.p.toNat
  window : s.op = opWinCompress → Follows s.hist s.cfg.histDepth s.inByte s.p.toNat →
    Follows t.hist s.cfg.histDepth s.inByte t.p.toNat

theorem advance_toNat {p k : Word} {n : Nat} (h : p.toNat + k.toNat ≤ n) (hn : n < 2 ^ 32) :
    (p + k).toNat = p.toNat + k.toNat :=
  BitVec.toNat_add_of_lt (by omega)

/-- A decoder's token moves the cursor over its own bytes; the encoders' clauses do not concern it. -/
theorem CursorMoves.of_decoder {s t : State} {k : Word} (hrle : s.op ≠ opRleCompress)
    (hwin : s.op ≠ opWinCompress) (hp : t.p = s.p + k) (hfits : s.p.toNat + k.toNat ≤ s.n.toNat)
    (heven : s.op = opRleDecompress → k.toNat % 2 = 0) : CursorMoves s t := by
  have hmoved : t.p.toNat = s.p.toNat + k.toNat := by
    rw [hp]; exact advance_toNat hfits s.n.isLt
  exact {
    forward := by omega
    fits := by omega
    aligned := fun ho h => by have := heven ho; omega
    rleSize := fun ho => absurd ho hrle
    winSize := fun ho => absurd ho hwin
    window := fun ho => absurd ho hwin }

theorem rleMax_of_valid {c : Config} (h : c.Valid) : c.rleMax = 255 := by
  obtain ⟨-, -, -, hmax, -⟩ := h
  exact hmax

theorem maxMatch_le_of_valid {c : Config} (h : c.Valid) : c.maxMatch ≤ 255 := by
  obtain ⟨-, -, ⟨-, -, hmax⟩, -⟩ := h
  exact hmax

theorem bind_eq_ok {r : Run} {f : State → Run} {t : State} (h : r.bind f = .ok t) :
    ∃ u, r = .ok u ∧ f u = .ok t := by
  cases r with
  | ok u => exact ⟨u, rfl, h⟩
  | error u => cases h

/-! ## The decoders' tokens -/

theorem runToken_moves {s t : State} {count value : Byte} (h : runToken s count value = .ok t) :
    t.p = s.p + 2 := by
  rw [runToken] at h
  split at h
  · cases h
  · obtain ⟨u, hu, ht⟩ := bind_eq_ok h
    cases ht
    have hframe := congrArg State.p
      (expandRun_emitFrame count.toNat (loadRun s value (zext count)))
    rw [hu] at hframe
    exact congrArg (· + 2) hframe

theorem litToken_moves {s t : State} {value : Byte} (h : litToken s value = .ok t) :
    t.p = s.p + 2 := by
  obtain ⟨u, hu, ht⟩ := bind_eq_ok h
  cases ht
  rcases emit_cases hu with ⟨-, hok⟩ | ⟨-, herr⟩
  · cases hok; rfl
  · cases herr

theorem matchToken_moves {s t : State} {offset length : Byte}
    (h : matchToken s offset length = .ok t) : t.p = s.p + 3 := by
  rw [matchToken] at h
  split at h
  · cases h
  · split at h
    · cases h
    · obtain ⟨u, hu, ht⟩ := bind_eq_ok h
      cases ht
      have hframe := congrArg State.p (copyLoop_emitFrame (s.m.toNat - offset.toNat) length.toNat 0
        (unpackMatch s offset length))
      rw [hu] at hframe
      exact congrArg (· + 3) hframe

/-! ## The RLE encoder -/

theorem emitAll_eq_ok {s t : State} {bytes : List Byte} (hcap : s.cfg.outCap < 2 ^ 32)
    (h : emitAll s bytes = .ok t) :
    t = appendBytes s bytes ∧ t.m.toNat = s.m.toNat + bytes.length := by
  induction bytes generalizing s with
  | nil => cases h; exact ⟨rfl, rfl⟩
  | cons v rest ih =>
    obtain ⟨u, hu, hrest⟩ := bind_eq_ok h
    rcases emit_cases hu with ⟨hroom, hok⟩ | ⟨-, herr⟩
    · cases hok
      have hm := appendByte_count (s := s) v (by omega)
      obtain ⟨ht, hcount⟩ := ih (s := appendByte s v) hcap hrest
      exact ⟨ht, by rw [hcount, hm, List.length_cons]; omega⟩
    · cases herr

theorem scanRun_bounds {s : State} (v : Byte) (fuel : Nat) {len : Nat}
    (h : s.p.toNat + len ≤ s.n.toNat) :
    len ≤ scanRun s v fuel len ∧ s.p.toNat + scanRun s v fuel len ≤ s.n.toNat := by
  induction fuel generalizing len with
  | zero => exact ⟨Nat.le_refl len, h⟩
  | succ fuel ih =>
    rw [scanRun]
    split
    · next hnext =>
      obtain ⟨hlo, hhi⟩ := ih (len := len + 1) (by omega)
      exact ⟨by omega, hhi⟩
    · exact ⟨Nat.le_refl len, h⟩

theorem runLength_bounds {s : State} (h : s.p.toNat < s.n.toNat) :
    1 ≤ runLength s ∧ s.p.toNat + runLength s ≤ s.n.toNat :=
  scanRun_bounds _ _ h

/-- The packer emits two bytes per token and moves the cursor by at least one (R102, R104). -/
theorem emitRun_moves {fuel : Nat} {s t : State} (hv : s.cfg.Valid) (hpos : 1 ≤ s.runLen.toNat)
    (hfits : s.p.toNat + s.runLen.toNat ≤ s.n.toNat) (h : emitRun fuel s = .ok t) :
    s.p.toNat ≤ t.p.toNat ∧ t.p.toNat ≤ s.n.toNat ∧
      (s.m.toNat ≤ 2 * s.p.toNat → t.m.toNat ≤ 2 * t.p.toNat) := by
  induction fuel generalizing s with
  | zero => cases h; exact ⟨Nat.le_refl _, by omega, id⟩
  | succ fuel ih =>
    have hmax := rleMax_of_valid hv
    have hn := s.n.isLt
    rw [emitRun] at h
    split at h
    · next hlong =>
      obtain ⟨u, hu, hrest⟩ := bind_eq_ok h
      obtain ⟨rfl, hm⟩ := emitAll_eq_ok (outCap_lt_of_valid hv) hu
      simp only [appendBytes_cons, appendBytes_nil, appendByte_cfg, hmax] at hrest hm
      have hp : (s.p + 255#32).toNat = s.p.toNat + 255 := advance_toNat (by simp; omega) hn
      have hlen : (s.runLen - 255#32).toNat = s.runLen.toNat - 255 := by bv_omega
      obtain ⟨hforward, hfits', hsize⟩ := ih
        (s := advance (takeFromRun (appendByte (appendByte s 255#8) s.runVal) 255#32) 255#32)
        hv (by simp; omega) (by simp; omega) hrest
      simp only [advance_p, advance_m, advance_n, takeFromRun_p, takeFromRun_m, takeFromRun_n,
        appendByte_p, appendByte_n, hp, hm, List.length_cons, List.length_nil] at hforward hfits' hsize
      exact ⟨by omega, hfits', fun h => hsize (by omega)⟩
    · obtain ⟨u, hu, hrest⟩ := bind_eq_ok h
      obtain ⟨rfl, hm⟩ := emitAll_eq_ok (outCap_lt_of_valid hv) hu
      cases hrest
      have hp := advance_toNat hfits hn
      simp only [appendBytes_cons, appendBytes_nil, advance_p, advance_m, appendByte_p,
        appendByte_runLen, hp, List.length_cons, List.length_nil] at hm ⊢
      omega

theorem rleEncodeRun_moves {s t : State} (hv : s.cfg.Valid) (ho : s.op = opRleCompress)
    (hlt : s.p.toNat < s.n.toNat) (h : rleEncodeRun s = .ok t) : CursorMoves s t := by
  obtain ⟨hpos, hfits⟩ := runLength_bounds hlt
  have hn := s.n.isLt
  have hlen : (BitVec.ofNat 32 (runLength s)).toNat = runLength s := by
    rw [BitVec.toNat_ofNat]; exact Nat.mod_eq_of_lt (by omega)
  obtain ⟨hforward, hfits', hsize⟩ := emitRun_moves
    (s := loadRun s (s.inByte s.p.toNat) (BitVec.ofNat 32 (runLength s))) hv
    (by rw [loadRun_runLen, hlen]; exact hpos) (by rw [loadRun_runLen, hlen]; exact hfits) h
  exact {
    forward := hforward
    fits := hfits'
    aligned := fun h => absurd h (by rw [ho]; decide)
    rleSize := fun _ => hsize
    winSize := fun h => absurd h (by rw [ho]; decide)
    window := fun h => absurd h (by rw [ho]; decide) }

/-! ## The Window encoder -/

theorem matchLenFrom_bounds {s : State} (o fuel : Nat) {k : Nat} (hk : k ≤ s.cfg.maxMatch)
    (h : s.p.toNat + k ≤ s.n.toNat) :
    matchLenFrom s o fuel k ≤ s.cfg.maxMatch ∧
      s.p.toNat + matchLenFrom s o fuel k ≤ s.n.toNat := by
  induction fuel generalizing k with
  | zero => exact ⟨hk, h⟩
  | succ fuel ih =>
    rw [matchLenFrom]
    split
    · exact ih (by omega) (by omega)
    · exact ⟨hk, h⟩

theorem findUpTo_bounds {s : State} (h : s.p.toNat ≤ s.n.toNat) (k : Nat) :
    (findUpTo s k).2 ≤ s.cfg.maxMatch ∧ s.p.toNat + (findUpTo s k).2 ≤ s.n.toNat := by
  induction k with
  | zero => exact ⟨Nat.zero_le _, h⟩
  | succ k ih =>
    rw [findUpTo]
    split
    · exact matchLenFrom_bounds (k + 1) s.cfg.maxMatch (Nat.zero_le _) h
    · exact ih

/-- The best match is no longer than MAX and ends within the input (R122). -/
theorem find_bounds {s : State} (h : s.p.toNat ≤ s.n.toNat) :
    (find s).2 ≤ s.cfg.maxMatch ∧ s.p.toNat + (find s).2 ≤ s.n.toNat :=
  findUpTo_bounds h (searchRange s)

section

variable (s : State) (k : Nat)

@[simp] theorem consumeToHist_cfg : (consumeToHist s k).cfg = s.cfg := by
  rw [consumeToHist_frame]

@[simp] theorem consumeToHist_phase : (consumeToHist s k).phase = s.phase := by
  rw [consumeToHist_frame]

@[simp] theorem consumeToHist_p : (consumeToHist s k).p = s.p := by
  rw [consumeToHist_frame]

@[simp] theorem consumeToHist_m : (consumeToHist s k).m = s.m := by
  rw [consumeToHist_frame]

@[simp] theorem consumeToHist_n : (consumeToHist s k).n = s.n := by
  rw [consumeToHist_frame]

@[simp] theorem consumeToHist_bestOff : (consumeToHist s k).bestOff = s.bestOff := by
  rw [consumeToHist_frame]

@[simp] theorem consumeToHist_bestLen : (consumeToHist s k).bestLen = s.bestLen := by
  rw [consumeToHist_frame]

end

/-- Consuming `k` bytes makes HIST follow the input `k` bytes further (R131). -/
theorem consumeToHist_follows {s : State} (k : Nat)
    (h : Follows s.hist s.cfg.histDepth s.inByte s.p.toNat) :
    Follows (consumeToHist s k).hist s.cfg.histDepth s.inByte (s.p.toNat + k) := by
  induction k with
  | zero => exact h
  | succ k ih =>
    rw [consumeToHist, histWrite_hist, consumeToHist_cfg]
    exact ih.write

/-- Emitting leaves HIST alone in WIN_COMPRESS (R35). -/
theorem appendBytes_hist_of_winCompress {s : State} (ho : s.op = opWinCompress)
    (bytes : List Byte) : (appendBytes s bytes).hist = s.hist := by
  induction bytes generalizing s with
  | nil => rfl
  | cons v rest ih => 
    rw [appendBytes_cons, ih (s := appendByte s v) ho, appendByte_hist, if_pos ho]

/-- A token of the Window encoder: `bytes` are emitted for the `k` bytes consumed. -/
theorem consumed_moves {s u : State} {bytes : List Byte} {k : Nat} {w : Word} (hv : s.cfg.Valid)
    (ho : s.op = opWinCompress) (hw : w.toNat = k) (hfits : s.p.toNat + k ≤ s.n.toNat)
    (hsize : 2 ≤ s.cfg.minMatch → bytes.length ≤ 2 * k)
    (h : emitAll (consumeToHist (runFinder s) k) bytes = .ok u) : CursorMoves s (advance u w) := by
  have hop := (consumeToHist_sameInput (runFinder s) k).op.trans ho
  obtain ⟨hu, hcount⟩ := emitAll_eq_ok
    (by rw [consumeToHist_cfg]; exact outCap_lt_of_valid hv) h
  have hup : u.p = s.p := by rw [hu, appendBytes_frame]; exact consumeToHist_p (runFinder s) k
  have huhist : u.hist = (consumeToHist (runFinder s) k).hist := by
    rw [hu, appendBytes_hist_of_winCompress hop]
  have hmoved : (advance u w).p.toNat = s.p.toNat + k := by
    rw [advance_p, hup, advance_toNat (n := s.n.toNat) (by omega) s.n.isLt, hw]
  rw [consumeToHist_m, runFinder_m] at hcount
  exact {
    forward := by omega
    fits := by omega
    aligned := fun h => absurd h (by rw [ho]; decide)
    rleSize := fun h => absurd h (by rw [ho]; decide)
    winSize := fun _ hmin h => by
      have := hsize hmin
      rw [hmoved, advance_m, hcount]
      omega
    window := fun _ h => by
      rw [hmoved, advance_hist, huhist]
      exact consumeToHist_follows (s := runFinder s) k h }

theorem winEncodeToken_moves {s t : State} (hv : s.cfg.Valid) (ho : s.op = opWinCompress)
    (hlt : s.p.toNat < s.n.toNat) (h : winEncodeToken s = .ok t) : CursorMoves s t := by
  have hmax := maxMatch_le_of_valid hv
  obtain ⟨hlen, hfits⟩ := find_bounds (Nat.le_of_lt hlt)
  rw [winEncodeToken] at h
  split at h
  · next hmatch =>
    obtain ⟨u, hu, ht⟩ := bind_eq_ok h
    cases ht
    refine consumed_moves hv ho ?_ hfits (fun hmin => ?_) hu
    · obtain ⟨hu', -⟩ := emitAll_eq_ok
        (by rw [consumeToHist_cfg]; exact outCap_lt_of_valid hv) hu
      have hul : u.bestLen = BitVec.ofNat 8 (find s).2 := by
        rw [hu', appendBytes_frame]; exact consumeToHist_bestLen (runFinder s) (find s).2
      rw [hul, zext, BitVec.toNat_setWidth, BitVec.toNat_ofNat]
      omega
    · simp only [List.length_cons, List.length_nil]
      omega
  · obtain ⟨u, hu, ht⟩ := bind_eq_ok h
    cases ht
    exact consumed_moves hv ho rfl hlt (fun _ => by simp) hu

/-! ## The engine's instruction -/

theorem streamFrom_length (s : State) (i k : Nat) :
    (streamFrom s i k).length = min k (s.n.toNat - i) := by
  induction k generalizing i with
  | zero => simp [streamFrom]
  | succ k ih =>
    rw [streamFrom]
    split
    · rw [List.length_cons, ih]; omega
    · rw [List.length_nil]; omega

/-- The stream at the cursor ends at n at the latest, and is empty at n alone. -/
theorem streamAtCursor_length (s : State) :
    (streamAtCursor s).length = min 3 (s.n.toNat - s.p.toNat) := streamFrom_length s s.p.toNat 3

/-- What the engine of a running operation executes: an iteration, a token that lies before n, or an
instruction after which the operation no longer runs. -/
inductive Fetches (s : State) : Instr → Prop where
  | rleCompress (ho : s.op = opRleCompress) : Fetches s .rleCompress
  | winCompress (ho : s.op = opWinCompress) : Fetches s .winCompress
  | run (count value : Byte) (ho : s.op = opRleDecompress) (h : s.p.toNat + 1 < s.n.toNat) :
      Fetches s (.run count value)
  | lit (value : Byte) (ho : s.op = opWinDecompress) (h : s.p.toNat + 1 < s.n.toNat) :
      Fetches s (.lit value)
  | matchTok (offset length : Byte) (ho : s.op = opWinDecompress)
      (h : s.p.toNat + 2 < s.n.toNat) : Fetches s (.matchTok offset length)
  | stops {i : Instr} (h : ∀ t, exec i s = .next t → t.phase ≠ .busy) : Fetches s i

theorem Fetches.of_raise {s : State} {i : Instr} {c : Cause} {pos : Word}
    (h : exec i s = .next (raise s c pos)) : Fetches s i :=
  .stops fun t ht => by rw [h] at ht; cases ht; simp

theorem Fetches.of_end {s : State} {i : Instr} {o : Op}
    {going : Host.Outcome State Fault Refusal} (hend : s.n.toNat ≤ s.p.toNat)
    (hb : s.phase = .busy) (h : exec i s = commandOutcome s o going) : Fetches s i :=
  .stops fun t ht => by
    rw [h] at ht
    rcases command_cases ht with ⟨-, -, hlt, -⟩ | ⟨-, -, rfl⟩ | ⟨hnb, -⟩
    · omega
    · simp
    · exact absurd hb hnb

/-- A token the RLE decoder reads raises, or is a RUN of two bytes (R73, R75). -/
theorem Fetches.of_decodeRle {s : State} {bytes rest : List Byte} {i : Instr}
    (ho : s.op = opRleDecompress) (hlen : bytes.length ≤ s.n.toNat - s.p.toNat)
    (h : decodeRle bytes = .ok (i, rest)) : Fetches s i := by
  unfold decodeRle at h
  split at h
  · cases h
  · cases h; exact .of_raise rfl
  · simp only [List.length_cons] at hlen
    split at h
    · cases h; exact .of_raise rfl
    · cases h; exact .run _ _ ho (by omega)

/-- A token the Window decoder reads raises, or is a LIT of two bytes or a MATCH of three (R76, R77,
R159). -/
theorem Fetches.of_decodeWindow {s : State} {bytes rest : List Byte} {i : Instr}
    (ho : s.op = opWinDecompress) (hlen : bytes.length ≤ s.n.toNat - s.p.toNat)
    (h : decodeWindow bytes = .ok (i, rest)) : Fetches s i := by
  unfold decodeWindow at h
  split at h
  · cases h
  · simp only [List.length_cons] at hlen
    split at h
    · split at h
      · cases h; exact .of_raise rfl
      · cases h
        simp only [List.length_cons] at hlen
        exact .lit _ ho (by omega)
    · split at h
      · split at h
        · cases h; exact .of_raise rfl
        · cases h; exact .of_raise rfl
        · cases h
          simp only [List.length_cons] at hlen
          exact .matchTok _ _ ho (by omega)
      · cases h; exact .of_raise rfl

theorem decodeRle_eq_error {bytes : List Byte} (h : decodeRle bytes = .error .endOfStream) :
    bytes = [] := by
  unfold decodeRle at h
  split at h
  · rfl
  · cases h
  · split at h <;> cases h

theorem decodeWindow_eq_error {bytes : List Byte} (h : decodeWindow bytes = .error .endOfStream) :
    bytes = [] := by
  unfold decodeWindow at h
  split at h
  · rfl
  · split at h
    · split at h <;> cases h
    · split at h
      · split at h <;> cases h
      · cases h

/-- An empty stream at the cursor: p = n. -/
theorem end_of_streamAtCursor_nil {s : State} (h : streamAtCursor s = []) :
    s.n.toNat ≤ s.p.toNat := by
  have := streamAtCursor_length s
  rw [h, List.length_nil] at this
  omega

theorem engineFetch_fetches_rle {s : State} (hb : s.phase = .busy) (ho : s.op = opRleDecompress) :
    Fetches s (engineFetch s) := by
  have hlen := streamAtCursor_length s
  rcases Nat.mod_two_eq_zero_or_one s.n.toNat with heven | hodd
  · match hd : decodeRle (streamAtCursor s) with
    | .ok (i, rest) =>
      rw [engineFetch_rle ho heven hd]
      exact .of_decodeRle ho (by omega) hd
    | .error .endOfStream =>
      rw [engineFetch_rle_end ho heven hd]
      exact .of_end (end_of_streamAtCursor_nil (decodeRle_eq_error hd)) hb (exec_rleDecompress s)
  · rw [engineFetch_odd ho hodd]
    exact .of_raise rfl

theorem engineFetch_fetches_window {s : State} (hb : s.phase = .busy)
    (ho : s.op = opWinDecompress) : Fetches s (engineFetch s) := by
  have hlen := streamAtCursor_length s
  match hd : decodeWindow (streamAtCursor s) with
  | .ok (i, rest) =>
    rw [engineFetch_window ho hd]
    exact .of_decodeWindow ho (by omega) hd
  | .error .endOfStream =>
    rw [engineFetch_window_end ho hd]
    exact .of_end (end_of_streamAtCursor_nil (decodeWindow_eq_error hd)) hb (exec_winDecompress s)

theorem engineFetch_fetches {s : State} (hb : s.phase = .busy) : Fetches s (engineFetch s) := by
  by_cases h1 : s.op = opRleCompress
  · rw [engineFetch_rleCompress h1]; exact .rleCompress h1
  by_cases h2 : s.op = opWinCompress
  · rw [engineFetch_winCompress h2]; exact .winCompress h2
  by_cases h3 : s.op = opRleDecompress
  · exact engineFetch_fetches_rle hb h3
  by_cases h4 : s.op = opWinDecompress
  · exact engineFetch_fetches_window hb h4
  · rw [engineFetch, if_neg h1, if_neg h2, if_neg h3, if_neg h4]
    exact .stops fun t ht => by rw [exec, execCmdReserved, if_pos hb] at ht; cases ht

/-- While the operation goes on, the cursor moves as the invariant wants it. -/
theorem engine_moves {s t : State} (hv : s.cfg.Valid) (hb : s.phase = .busy)
    (h : exec (engineFetch s) s = .next t) (hbt : t.phase = .busy) : CursorMoves s t := by
  have hfetch := engineFetch_fetches hb
  generalize engineFetch s = i at h hfetch
  cases hfetch with
  | rleCompress ho =>
    rw [exec_rleCompress] at h
    rcases command_cases h with ⟨-, -, hlt, h⟩ | ⟨-, -, rfl⟩ | ⟨hnb, -⟩
    · exact rleEncodeRun_moves hv ho hlt ((rleEncodeRun_grownFrom hv).ok_of_busy h hbt)
    · cases hbt
    · exact absurd hb hnb
  | winCompress ho =>
    rw [exec_winCompress] at h
    rcases command_cases h with ⟨-, -, hlt, h⟩ | ⟨-, -, rfl⟩ | ⟨hnb, -⟩
    · exact winEncodeToken_moves hv ho hlt ((winEncodeToken_grownFrom hv ho).ok_of_busy h hbt)
    · cases hbt
    · exact absurd hb hnb
  | run count value ho hlt =>
    have hp := runToken_moves ((runToken_grownFrom count value hv).ok_of_busy h hbt)
    exact .of_decoder (by rw [ho]; decide) (by rw [ho]; decide) hp hlt fun _ => rfl
  | lit value ho hlt =>
    have hp := litToken_moves ((litToken_grownFrom value hv).ok_of_busy h hbt)
    exact .of_decoder (by rw [ho]; decide) (by rw [ho]; decide) hp hlt fun _ => rfl
  | matchTok offset length ho hlt =>
    have hp := matchToken_moves ((matchToken_grownFrom offset length hv).ok_of_busy h hbt)
    exact .of_decoder (by rw [ho]; decide) (by rw [ho]; decide) hp hlt
      fun hrle => absurd hrle (by rw [ho]; decide)
  | stops hstop => exact absurd hbt (hstop t h)

/-! ## The invariant -/

/-- The invariant with no operation running: the clauses that are left. -/
theorem Inv.of_not_busy {t : State} (hv : t.cfg.Valid) (hin : t.inBuf.WfBelow t.cfg.inCap)
    (hout : t.outBuf.WfBelow t.cfg.outCap) (hhist : t.hist.WfBelow t.cfg.histDepth)
    (hb : t.phase ≠ .busy) (herr : errFlag t.phase = false → t.errPos = 0)
    (hstart : t.phase = .doneFault .badLength ∨ t.phase = .doneFault .badCommand → t.errPos = 0)
    (hfits : t.phase = .doneOk → t.outLen.toNat ≤ t.cfg.outCap)
    (hknown : t.phase = .doneOk → ∀ j, j < t.outLen.toNat → (t.outBuf.find? j).isSome) :
    Inv t where
  valid := hv
  inWf := hin
  outWf := hout
  histWf := hhist
  opLegal := fun h => absurd h hb
  lengthFits := fun h => absurd h hb
  cursorFits := fun h => absurd h hb
  countFits := fun h => absurd h hb
  outWritten := fun h => absurd h hb
  rleAligned := fun h => absurd h hb
  rleSize := fun h => absurd h hb
  winSize := fun h => absurd h hb
  histDecoder := fun h => absurd h hb
  histEncoder := fun h => absurd h hb
  errPosClear := herr
  startFaultPos := hstart
  resultFits := hfits
  resultWritten := hknown

theorem Memory.WfBelow.empty (size epoch : Nat) : Memory.WfBelow ⟨[], epoch⟩ size :=
  ⟨List.Pairwise.nil, fun _ hc => absurd hc List.not_mem_nil⟩

theorem resetOf_inv {cfg : Config} (hv : cfg.Valid) : Inv (State.resetOf cfg) :=
  .of_not_busy hv (.empty _ _) (.empty _ _) (.empty _ _) (by simp [State.resetOf]) (fun _ => rfl)
    (fun _ => rfl) (fun _ => Nat.zero_le _) fun _ j hj => absurd hj (Nat.not_lt_zero j)

theorem hardReset_inv {s : State} (hv : s.cfg.Valid) : Inv (hardReset s) :=
  .of_not_busy hv (.empty _ _) (.empty _ _) (.empty _ _) (by simp) (fun _ => rfl) (fun _ => rfl)
    (fun h => by cases h) fun h => by cases h

/-- The host's own side is no part of the invariant. -/
theorem Inv.withHost {s : State} (h : Inv s) (queue : List HostOp) (reply : Option Word) :
    Inv (withHost s queue reply) :=
  { h with }

theorem Inv.failStart {s : State} (h : Inv s) (o : Op) (c : Cause) :
    Inv (failStart { s with cmd := o } c) :=
  .of_not_busy h.valid h.inWf h.outWf h.histWf (by simp) (fun _ => rfl) (fun _ => rfl)
    (fun h => by cases h) fun h => by cases h

/-- A start that runs has p = m = 0, where the clauses about the bytes read and written are empty. -/
theorem Inv.start {s : State} (h : Inv s) {o : Op} (ho : o.legal = true) : Inv (start s o) := by
  rcases start_cases s o with ⟨-, hs⟩ | ⟨hfits, hs⟩
  · rw [hs]; exact h.failStart o .badLength
  · rw [hs]
    exact {
      valid := h.valid
      inWf := h.inWf
      outWf := h.outWf
      histWf := h.histWf
      opLegal := fun _ => ho
      lengthFits := fun _ => hfits
      cursorFits := fun _ => Nat.zero_le _
      countFits := fun _ => Nat.zero_le _
      outWritten := fun _ j hj => absurd hj (Nat.not_lt_zero j)
      rleAligned := fun _ _ => rfl
      rleSize := fun _ _ => Nat.zero_le _
      winSize := fun _ _ _ => Nat.zero_le _
      histDecoder := fun _ _ d h1 h2 => absurd (Nat.le_trans h1 h2) (Nat.not_succ_le_zero 0)
      histEncoder := fun _ _ d h1 h2 => absurd (Nat.le_trans h1 h2) (Nat.not_succ_le_zero 0)
      errPosClear := fun _ => rfl
      startFaultPos := fun _ => rfl
      resultFits := fun h => by cases h
      resultWritten := fun h => by cases h }

theorem Inv.storeInLen {s : State} (h : Inv s) (queue : List HostOp) (value : Word) :
    Inv { s with hostQueue := queue, inLen := value } :=
  { h with }

theorem Inv.storeIn {s : State} (h : Inv s) (queue : List HostOp) {i : Nat} (b : Byte)
    (hb : s.phase ≠ .busy) (hi : i < s.cfg.inCap) :
    Inv { s with hostQueue := queue, inBuf := s.inBuf.write i b } :=
  .of_not_busy h.valid (h.inWf.write hi b) h.outWf h.histWf hb h.errPosClear h.startFaultPos
    h.resultFits h.resultWritten

theorem Inv.storeOut {s : State} (h : Inv s) (queue : List HostOp) {i : Nat} (b : Byte)
    (hb : s.phase ≠ .busy) (hi : i < s.cfg.outCap) :
    Inv { s with hostQueue := queue, outBuf := s.outBuf.write i b } :=
  .of_not_busy h.valid h.inWf (h.outWf.write hi b) h.histWf hb h.errPosClear h.startFaultPos
    h.resultFits fun hok j hj => Memory.find?_isSome_write _ _ (h.resultWritten hok j hj)

/-- A token of a running operation, by what it appends and where it leaves the cursor. -/
theorem Inv.goesOn {s t : State} (h : Inv s) (hb : s.phase = .busy) (hg : Grown s t)
    (hc : CursorMoves s t) : Inv t := by
  obtain ⟨hcfg, -, -, hn, hop, hin, -, -⟩ := hg.same
  have hbt : t.phase = .busy := hg.phase.trans hb
  have herr := h.errPosClear (by rw [hb]; rfl)
  exact {
    valid := by rw [hcfg]; exact h.valid
    inWf := by rw [hin, hcfg]; exact h.inWf
    outWf := by rw [hcfg]; exact hg.outWf h.outWf
    histWf := by rw [hcfg]; exact hg.histWf h.histWf
    opLegal := fun _ => by rw [hop]; exact h.opLegal hb
    lengthFits := fun _ => by rw [hn, hcfg]; exact h.lengthFits hb
    cursorFits := fun _ => by rw [hn]; exact hc.fits
    countFits := fun _ => by rw [hcfg]; exact hg.capped (h.countFits hb)
    outWritten := fun _ => hg.known (h.outWritten hb)
    rleAligned := fun _ ho => hc.aligned (hop ▸ ho) (h.rleAligned hb (hop ▸ ho))
    rleSize := fun _ ho => hc.rleSize (hop ▸ ho) (h.rleSize hb (hop ▸ ho))
    winSize := fun _ ho hmin =>
      hc.winSize (hop ▸ ho) (hcfg ▸ hmin) (h.winSize hb (hop ▸ ho) (hcfg ▸ hmin))
    histDecoder := fun _ ho => by
      rw [hop] at ho
      exact hg.window (by rw [ho]; decide) (h.histDecoder hb ho)
    histEncoder := fun _ ho => by
      rw [hop] at ho
      have hread : t.inByte = s.inByte := funext (inByte_congr hin)
      rw [hcfg, hread]
      exact hc.window ho (h.histEncoder hb ho)
    errPosClear := fun _ => hg.errPos.trans herr
    startFaultPos := fun _ => hg.errPos.trans herr
    resultFits := fun hok => by rw [hbt] at hok; cases hok
    resultWritten := fun hok => by rw [hbt] at hok; cases hok }

theorem Inv.completes {s : State} (h : Inv s) (hb : s.phase = .busy) : Inv (complete s) :=
  .of_not_busy h.valid h.inWf (h.outWf.keepBelow _ _) h.histWf (by simp)
    (fun _ => h.errPosClear (by rw [hb]; rfl)) (fun hstart => by simp at hstart)
    (fun _ => h.countFits hb) fun _ j hj => by
      rw [complete_outBuf, Memory.find?_keepBelow _ _ (show j < s.m.toNat from hj)]
      exact h.outWritten hb j hj

theorem Inv.raises {s u : State} (h : Inv s) (hg : Grown s u) {c : Cause} (pos : Word)
    (hc : RunningCause c) : Inv (raise u c pos) := by
  have hcfg := hg.same.cfg
  refine .of_not_busy ?_ ?_ (.empty _ _) ?_ (by simp) (fun h => by cases h) (fun hstart => ?_)
    (fun h => by cases h) fun h => by cases h
  · rw [raise_cfg, hcfg]; exact h.valid
  · rw [raise_inBuf, raise_cfg, hcfg, hg.same.inBuf]; exact h.inWf
  · rw [raise_hist, raise_cfg, hcfg]; exact hg.histWf h.histWf
  · simp only [raise_phase, Phase.doneFault.injEq] at hstart
    exact absurd hstart (not_or.mpr hc)

theorem engine_inv {s t : State} (hI : Inv s) (hb : s.phase = .busy)
    (h : exec (engineFetch s) s = .next t) : Inv t := by
  cases exec_runsTo hI.valid hb h with
  | goesOn hg => exact hI.goesOn hb hg (engine_moves hI.valid hb h (hg.phase.trans hb))
  | completes => exact hI.completes hb
  | raises pos hg hc => exact hI.raises hg pos hc

/-! ## The obligations -/

/-- Settles O38: each way a step can go keeps the invariant. -/
theorem invariantKeptByStep : Obligations.InvariantKeptByStep := by
  unfold Obligations.InvariantKeptByStep
  intro s t hI hstep
  cases step_stepsTo hstep with
  | engine queue reply hb h => exact engine_inv (hI.withHost queue reply) hb h
  | hostSide queue reply => exact hI.withHost queue reply
  | storeInLen queue value => exact hI.storeInLen queue value
  | storeIn queue b hb hi => exact hI.storeIn queue b hb hi
  | storeOut queue b hb hi => exact hI.storeOut queue b hb hi
  | starts hq hb ho => exact (hI.withHost _ s.reply).start ho
  | rejects hq hb o => exact (hI.withHost _ s.reply).failStart o .badCommand
  | resets hq => exact hardReset_inv hI.valid

/-- Settles O37: at reset every clause is about an empty buffer or a zero register. -/
theorem invariantAtReset : Obligations.InvariantAtReset := by
  unfold Obligations.InvariantAtReset
  exact ⟨fun _ hv => resetOf_inv hv, resetOf_inv (by decide)⟩

/-- Settles O35: a step from BUSY to BUSY is the engine's, or moves the host's side alone. -/
theorem outputIsAppendOnly : Obligations.OutputIsAppendOnly := by
  unfold Obligations.OutputIsAppendOnly
  intro s t hI hb hstep hbt
  cases step_stepsTo hstep with
  | engine queue reply _ h =>
    have hmoves := engine_moves (s := withHost s queue reply) hI.valid hb h hbt
    cases exec_runsTo (s := withHost s queue reply) hI.valid hb h with
    | goesOn hg => exact ⟨hmoves.forward, hg.count, hg.same.n, hg.same.op, hg.same.cmd, hg.kept⟩
    | completes => cases hbt
    | raises => cases hbt
  | hostSide => exact ⟨Nat.le_refl _, Nat.le_refl _, rfl, rfl, rfl, fun _ _ => rfl⟩
  | storeInLen _ _ hnb => exact absurd hb hnb
  | storeIn _ _ hnb => exact absurd hb hnb
  | storeOut _ _ hnb => exact absurd hb hnb
  | starts _ hnb => exact absurd hb hnb
  | rejects _ hnb => exact absurd hb hnb
  | resets => cases hbt

end Sys2Proof.Machine
end

section
/-!
PROOFS. An operation's result depends on its input and the part alone (R41, R133, R190, R232): two
states that agree on the part, the input bytes, the cursor, the count and the bytes of OUT below it make
the same steps, whatever HIST, the rest of OUT and the other registers hold. The relation is kept by each
step, so by each run; nothing is said of what the operation computes.
-/

namespace Sys2Proof.Machine

/-! ## The relation -/

/-- Two states in which an operation has come equally far on the same input. -/
structure Alike (s u : State) : Prop where
  cfg : u.cfg = s.cfg
  phase : u.phase = s.phase
  errPos : u.errPos = s.errPos
  op : u.op = s.op
  n : u.n = s.n
  p : u.p = s.p
  m : u.m = s.m
  hostQueue : u.hostQueue = s.hostQueue
  input : ∀ j, j < s.n.toNat → u.inByte j = s.inByte j
  output : s.phase = .busy → ∀ j, j < s.m.toNat →
    ∃ b, s.outBuf.find? j = some b ∧ u.outBuf.find? j = some b
  result : s.phase = .doneOk →
    u.outLen = s.outLen ∧ ∀ j, j < s.outLen.toNat → u.outByte j = s.outByte j

/-- Two runs that both go on, or are both ended by a raise, in states that are alike. -/
inductive Run.Alike : Run → Run → Prop where
  | ok {s u : State} (h : Machine.Alike s u) : Run.Alike (.ok s) (.ok u)
  | error {s u : State} (h : Machine.Alike s u) : Run.Alike (.error s) (.error u)

/-- If the first outcome is a next state, so is the second, and they are alike. -/
def NextAlike (x y : Host.Outcome State Fault Refusal) : Prop :=
  ∀ t, x = .next t → ∃ v, y = .next v ∧ Alike t v

theorem Alike.next {s u : State} (h : Alike s u) : NextAlike (.next s) (.next u) :=
  fun t ht => ⟨u, rfl, by cases ht; exact h⟩

theorem Run.Alike.settle {r q : Run} (h : r.Alike q) :
    NextAlike (Machine.settle r) (Machine.settle q) := by
  cases h with
  | ok h => exact h.next
  | error h => exact h.next

theorem Run.Alike.bind {r q : Run} {f g : State → Run} (h : r.Alike q)
    (hf : ∀ s u, Machine.Alike s u → Run.Alike (f s) (g u)) : Run.Alike (r.bind f) (q.bind g) := by
  cases h with
  | ok h => exact hf _ _ h
  | error h => exact .error h

section

variable {s u : State}

/-! ## The operations keep it -/

/-- Byte j < m of OUT reads the same in both. -/
theorem Alike.outByte (h : Alike s u) (hb : s.phase = .busy) {j : Nat} (hj : j < s.m.toNat) :
    u.outByte j = s.outByte j := by
  obtain ⟨b, hs, hu⟩ := h.output hb j hj
  exact (Memory.read_of_find? .output hu).trans (Memory.read_of_find? .output hs).symm

theorem Alike.raise (h : Alike s u) (c : Cause) {pos pos' : Word} (hpos : pos' = pos) :
    Alike (raise s c pos) (raise u c pos') :=
  { h with
    phase := rfl
    errPos := hpos
    output := fun hb => by cases hb
    result := fun hok => by cases hok }

theorem Alike.complete (h : Alike s u) (hb : s.phase = .busy) :
    Alike (complete s) (complete u) :=
  { h with
    phase := rfl
    output := fun hb => by cases hb
    result := fun _ => by
      refine ⟨h.m, fun j (hj : j < s.m.toNat) => ?_⟩
      obtain ⟨b, hs, hu⟩ := h.output hb j hj
      have hs' : (Machine.complete s).outBuf.find? j = some b :=
        (Memory.find?_keepBelow _ _ hj).trans hs
      have hu' : (Machine.complete u).outBuf.find? j = some b :=
        (Memory.find?_keepBelow _ _ (by rw [h.m]; exact hj)).trans hu
      exact (Memory.read_of_find? .output hu').trans (Memory.read_of_find? .output hs').symm }

theorem Alike.advance (h : Alike s u) (k : Word) : Alike (advance s k) (advance u k) :=
  { h with p := congrArg (· + k) h.p }

theorem Alike.takeFromRun (h : Alike s u) (k : Word) : Alike (takeFromRun s k) (takeFromRun u k) :=
  { h with }

theorem Alike.countCopied (h : Alike s u) : Alike (countCopied s) (countCopied u) :=
  { h with }

theorem Alike.appendByte (h : Alike s u) (hb : s.phase = .busy) (v : Byte)
    (hm : s.m.toNat < 2 ^ 32 - 1) : Alike (appendByte s v) (appendByte u v) :=
  { h with
    m := congrArg (· + 1) h.m
    result := fun hok => by rw [appendByte_phase, hb] at hok; cases hok
    output := fun _ j hj => by
      rw [appendByte_count v hm] at hj
      rw [appendByte_outBuf, appendByte_outBuf, h.m]
      by_cases hlast : j = s.m.toNat
      · subst hlast
        exact ⟨v, Memory.find?_write_same _ _ _, Memory.find?_write_same _ _ _⟩
      · rw [Memory.find?_write_other _ _ hlast, Memory.find?_write_other _ _ hlast]
        exact h.output hb j (by omega) }

/-- Emitting a byte in both: both store it and go on, or both raise. -/
theorem Alike.emit_bind (h : Alike s u) (hv : s.cfg.Valid) (hb : s.phase = .busy) (v : Byte)
    {f g : State → Run}
    (hf : s.m.toNat < s.cfg.outCap → Alike (Machine.appendByte s v) (Machine.appendByte u v) →
      Run.Alike (f (Machine.appendByte s v)) (g (Machine.appendByte u v))) :
    Run.Alike ((emit s v).bind f) ((emit u v).bind g) := by
  have hcap := outCap_lt_of_valid hv
  rcases Nat.lt_or_ge s.m.toNat s.cfg.outCap with hroom | hfull
  · rw [emit_of_room v hroom, emit_of_room v (by rw [h.m, h.cfg]; exact hroom)]
    exact hf hroom (h.appendByte hb v (by omega))
  · rw [emit_of_full v hfull, emit_of_full v (by rw [h.m, h.cfg]; exact hfull)]
    exact .error (h.raise .outCapacity h.p)

theorem bind_bind (r : Run) (f g : State → Run) :
    (r.bind f).bind g = r.bind fun t => (f t).bind g := by
  cases r <;> rfl

/-- Emitting a list of bytes in both: both store it and go on, or both raise. -/
theorem Alike.emitAll_bind (h : Alike s u) (hv : s.cfg.Valid) (hb : s.phase = .busy)
    (bytes : List Byte) {f g : State → Run}
    (hf : Alike (appendBytes s bytes) (appendBytes u bytes) →
      Run.Alike (f (appendBytes s bytes)) (g (appendBytes u bytes))) :
    Run.Alike ((emitAll s bytes).bind f) ((emitAll u bytes).bind g) := by
  induction bytes generalizing s u with
  | nil => exact hf h
  | cons v rest ih =>
    rw [emitAll, emitAll, bind_bind, bind_bind]
    exact h.emit_bind hv hb v fun _ h' => ih h' hv hb hf

/-! ## The decoders' tokens keep it -/

theorem Alike.expandRun (h : Alike s u) (hv : s.cfg.Valid) (hb : s.phase = .busy)
    (hval : u.runVal = s.runVal) (k : Nat) : Run.Alike (expandRun k s) (expandRun k u) := by
  induction k generalizing s u with
  | zero => exact .ok h
  | succ k ih =>
    rw [Machine.expandRun, Machine.expandRun, hval]
    exact h.emit_bind hv hb s.runVal fun _ h' => ih (h'.takeFromRun 1) hv hb hval

theorem Alike.runToken (h : Alike s u) (hv : s.cfg.Valid) (hb : s.phase = .busy)
    (count value : Byte) : Run.Alike (runToken s count value) (runToken u count value) := by
  rw [Machine.runToken, Machine.runToken]
  split
  · exact .error (h.raise .rleZeroCount h.p)
  · exact (Alike.expandRun (s := loadRun s value (zext count)) (u := loadRun u value (zext count))
      { h with } hv hb rfl count.toNat).bind fun _ _ h' => .ok (h'.advance 2)

theorem Alike.litToken (h : Alike s u) (hv : s.cfg.Valid) (hb : s.phase = .busy) (value : Byte) :
    Run.Alike (litToken s value) (litToken u value) :=
  h.emit_bind hv hb value fun _ h' => .ok (h'.advance 2)

/-- The copy reads bytes below m alone, which are the same in both. -/
theorem Alike.copyLoop (h : Alike s u) (hv : s.cfg.Valid) (hb : s.phase = .busy) (base : Nat)
    (k : Nat) {i : Nat} (hread : base + i < s.m.toNat) :
    Run.Alike (copyLoop base k i s) (copyLoop base k i u) := by
  induction k generalizing s u i with
  | zero => exact .ok h
  | succ k ih =>
    have hcap := outCap_lt_of_valid hv
    rw [Machine.copyLoop, Machine.copyLoop, h.outByte hb hread]
    refine h.emit_bind hv hb _ fun hroom h' => ih h'.countCopied hv hb ?_
    rw [countCopied_m, appendByte_count _ (by omega)]
    omega

theorem Alike.matchToken (h : Alike s u) (hv : s.cfg.Valid) (hb : s.phase = .busy)
    (offset length : Byte) :
    Run.Alike (matchToken s offset length) (matchToken u offset length) := by
  have hunpack : Alike (unpackMatch s offset length) (unpackMatch u offset length) := { h with }
  rw [Machine.matchToken, Machine.matchToken, h.m]
  split
  · exact .error (hunpack.raise .winZeroOffset h.p)
  · next hzero =>
    split
    · exact .error (hunpack.raise .winBadOffset h.p)
    · next hnear =>
      have hpos : offset.toNat ≠ 0 := fun h0 => hzero (BitVec.eq_of_toNat_eq h0)
      have hread : s.m.toNat - offset.toNat + 0 < s.m.toNat := by omega
      exact (hunpack.copyLoop hv hb _ length.toNat hread).bind fun _ _ h' => .ok (h'.advance 3)

/-! ## The encoders' iterations keep it -/

theorem Alike.scanRun_eq (h : Alike s u) (v : Byte) (fuel len : Nat) :
    scanRun u v fuel len = scanRun s v fuel len := by
  induction fuel generalizing len with
  | zero => rfl
  | succ fuel ih =>
    rw [scanRun, scanRun, h.p, h.n, ih]
    by_cases hlt : s.p.toNat + len < s.n.toNat
    · rw [h.input _ hlt]
    · rw [if_neg fun hc => hlt hc.1, if_neg fun hc => hlt hc.1]

theorem Alike.emitRun (h : Alike s u) (hv : s.cfg.Valid) (hb : s.phase = .busy)
    (hval : u.runVal = s.runVal) (hlen : u.runLen = s.runLen) (fuel : Nat) :
    Run.Alike (emitRun fuel s) (emitRun fuel u) := by
  induction fuel generalizing s u with
  | zero => exact .ok h
  | succ fuel ih =>
    simp only [Machine.emitRun, emitRleToken, h.cfg, hval, hlen]
    split
    · refine h.emitAll_bind hv hb _ fun h' => ?_
      simp only [appendBytes_cons, appendBytes_nil, appendByte_cfg, h.cfg] at h' ⊢
      exact ih ((h'.takeFromRun _).advance _) hv hb hval
        (congrArg (· - BitVec.ofNat 32 s.cfg.rleMax) hlen)
    · refine h.emitAll_bind hv hb _ fun h' => ?_
      simp only [appendBytes_cons, appendBytes_nil, appendByte_runLen, hlen] at h' ⊢
      exact .ok (h'.advance s.runLen)

theorem Alike.rleEncodeRun (h : Alike s u) (hv : s.cfg.Valid) (hb : s.phase = .busy)
    (hlt : s.p.toNat < s.n.toNat) : Run.Alike (rleEncodeRun s) (rleEncodeRun u) := by
  have hfirst : u.inByte u.p.toNat = s.inByte s.p.toNat := by rw [h.p, h.input _ hlt]
  have hlen : runLength u = runLength s := by
    rw [runLength, runLength, hfirst, h.n, h.p, h.scanRun_eq]
  rw [Machine.rleEncodeRun, Machine.rleEncodeRun, hfirst, hlen]
  exact Alike.emitRun (s := loadRun s (s.inByte s.p.toNat) (BitVec.ofNat 32 (runLength s)))
    (u := loadRun u (s.inByte s.p.toNat) (BitVec.ofNat 32 (runLength s)))
    { h with } hv hb rfl rfl (runLength s)

/-- The compare loop reads input bytes below n alone. -/
theorem Alike.matchLen_eq (h : Alike s u) (o : Nat) : matchLen u o = matchLen s o := by
  have hloop : ∀ fuel k, matchLenFrom u o fuel k = matchLenFrom s o fuel k := by
    intro fuel
    induction fuel with
    | zero => exact fun _ => rfl
    | succ fuel ih =>
      intro k
      rw [matchLenFrom, matchLenFrom, h.cfg, h.p, h.n, ih]
      by_cases hlt : s.p.toNat + k < s.n.toNat
      · rw [h.input _ hlt, h.input (s.p.toNat - o + k) (by omega)]
      · rw [if_neg fun hc => hlt hc.2.1, if_neg fun hc => hlt hc.2.1]
  rw [matchLen, matchLen, h.cfg, hloop]

theorem Alike.searchRange_eq (h : Alike s u) : searchRange u = searchRange s := by
  rw [searchRange, searchRange, h.cfg, h.p]

theorem Alike.find_eq (h : Alike s u) : find u = find s := by
  have hupto : ∀ k, findUpTo u k = findUpTo s k := by
    intro k
    induction k with
    | zero => rfl
    | succ k ih => rw [findUpTo, findUpTo, ih, h.matchLen_eq]
  rw [find, find, h.searchRange_eq, hupto]

/-- The finder and the history leave nothing that the relation speaks of. -/
theorem Alike.consume (h : Alike s u) (k : Nat) :
    Alike (consumeToHist (runFinder s) k) (consumeToHist (runFinder u) k) := by
  rw [consumeToHist_frame, consumeToHist_frame (runFinder u)]
  exact { h with }

theorem Alike.emitLiteral (h : Alike s u) (hv : s.cfg.Valid) (hb : s.phase = .busy)
    (hlt : s.p.toNat < s.n.toNat) : Run.Alike (emitLiteral s) (emitLiteral u) := by
  rw [Machine.emitLiteral, Machine.emitLiteral, h.p, h.input _ hlt]
  exact h.emitAll_bind hv hb _ fun h' => .ok (h'.advance 1)

theorem Alike.emitMatch (h : Alike s u) (hv : s.cfg.Valid) (hb : s.phase = .busy)
    (hoff : u.bestOff = s.bestOff) (hlen : u.bestLen = s.bestLen) :
    Run.Alike (emitMatch s) (emitMatch u) := by
  rw [Machine.emitMatch, Machine.emitMatch, hoff, hlen]
  refine h.emitAll_bind hv hb _ fun h' => ?_
  simp only [appendBytes_cons, appendBytes_nil, appendByte_bestLen, hlen] at h' ⊢
  exact .ok (h'.advance (zext s.bestLen))

theorem Alike.winEncodeToken (h : Alike s u) (hv : s.cfg.Valid) (hb : s.phase = .busy)
    (hlt : s.p.toNat < s.n.toNat) : Run.Alike (winEncodeToken s) (winEncodeToken u) := by
  rw [Machine.winEncodeToken, Machine.winEncodeToken, h.cfg, h.find_eq]
  have hconsume := h.consume
  have hfound := h.find_eq
  split
  · exact (hconsume (find s).2).emitMatch (by simpa using hv) (by simpa using hb)
      (by simp [hfound]) (by simp [hfound])
  · exact (hconsume 1).emitLiteral (by simpa using hv) (by simpa using hb) (by simpa using hlt)

/-! ## The engine's instruction keeps it -/

theorem Alike.streamFrom_eq (h : Alike s u) (i k : Nat) : streamFrom u i k = streamFrom s i k := by
  induction k generalizing i with
  | zero => rfl
  | succ k ih =>
    rw [streamFrom, streamFrom, h.n, ih]
    by_cases hlt : i < s.n.toNat
    · rw [h.input i hlt]
    · rw [if_neg hlt, if_neg hlt]

theorem Alike.engineFetch_eq (h : Alike s u) : engineFetch u = engineFetch s := by
  have hstream : streamAtCursor u = streamAtCursor s := by
    rw [streamAtCursor, streamAtCursor, h.p, h.streamFrom_eq]
  have hodd : s.n.toNat % 2 = 1 → u.inByte (s.n.toNat - 1) = s.inByte (s.n.toNat - 1) :=
    fun hodd => h.input _ (by omega)
  rw [engineFetch, engineFetch, hstream, h.op, h.n]
  by_cases ho : s.n.toNat % 2 = 1
  · rw [hodd ho]
  · rw [if_neg ho, if_neg ho]

theorem Alike.commandOutcome (h : Alike s u) (hb : s.phase = .busy) (o : Op)
    {x y : Host.Outcome State Fault Refusal} (hgoing : s.p.toNat < s.n.toNat → NextAlike x y) :
    NextAlike (commandOutcome s o x) (commandOutcome u o y) := by
  rw [Machine.commandOutcome, Machine.commandOutcome, h.phase, h.op, h.p, h.n, if_pos hb, if_pos hb]
  split
  · split
    · next hlt => exact hgoing hlt
    · exact (h.complete hb).next
  · exact fun t ht => by cases ht

theorem Alike.exec (h : Alike s u) (hv : s.cfg.Valid) (hb : s.phase = .busy) (i : Instr) :
    NextAlike (exec i s) (exec i u) := by
  cases i with
  | rleCompress => exact h.commandOutcome hb _ fun hlt => (h.rleEncodeRun hv hb hlt).settle
  | rleDecompress => exact h.commandOutcome hb _ fun _ => h.next
  | winCompress => exact h.commandOutcome hb _ fun hlt => (h.winEncodeToken hv hb hlt).settle
  | winDecompress => exact h.commandOutcome hb _ fun _ => h.next
  | cmdReserved op =>
    intro t ht
    rw [Machine.exec, execCmdReserved, if_pos hb] at ht
    cases ht
  | run count value => exact (h.runToken hv hb count value).settle
  | rleZeroCount value => exact (h.raise .rleZeroCount h.p).next
  | rleTrailingByte last => exact (h.raise .rleOddLength (congrArg (· - 1) h.n)).next
  | lit value => exact (h.litToken hv hb value).settle
  | matchTok offset length => exact (h.matchToken hv hb offset length).settle
  | winIllegalTag tag => exact (h.raise .winBadTag h.p).next
  | winLitTruncated => exact (h.raise .winTruncated h.p).next
  | winMatchTruncated offset => exact (h.raise .winTruncated h.p).next

/-! ## Steps and runs -/

/-- With the host silent, a step answers alike. -/
theorem Alike.step (h : Alike s u) (hv : s.cfg.Valid) (hq : s.hostQueue = []) :
    NextAlike (step s) (step u) := by
  have hvu : u.cfg.Valid := by rw [h.cfg]; exact hv
  have hqu := h.hostQueue.trans hq
  by_cases hb : s.phase = .busy
  · rw [step_of_busy hv hq hb, step_of_busy hvu hqu (h.phase.trans hb), h.engineFetch_eq]
    exact h.exec hv hb (engineFetch s)
  · rw [step_of_waiting hv hq hb, step_of_waiting hvu hqu (by rw [h.phase]; exact hb)]
    exact h.next

/-- A silent host's side and the part stay as they are. -/
theorem step_keepsQuiet {s t : State} (hq : s.hostQueue = []) (h : step s = .next t) :
    t.cfg = s.cfg ∧ t.hostQueue = [] := by
  have hv := valid_of_step h
  by_cases hb : s.phase = .busy
  · rw [step_of_busy hv hq hb] at h
    obtain ⟨-, -, hcfg, hqueue, -⟩ := exec_keepsInput h
    exact ⟨hcfg, hqueue.trans hq⟩
  · rw [step_of_waiting hv hq hb] at h
    cases h
    exact ⟨rfl, hq⟩

/-- A run is a step and the rest of the run, of any machine. -/
theorem coreRun_succ {M : Host.Core} {k : Nat} {s t : M.State} :
    M.run (k + 1) s = .next t ↔ ∃ r, M.step s = .next r ∧ M.run k r = .next t := by
  rw [Host.Core.run]
  cases M.step s with
  | next r => simp
  | fault r => simp
  | refused r => simp

theorem reaches_zero {s t : State} : Reaches 0 s t ↔ s = t :=
  ⟨fun h => by cases h; rfl, fun h => by rw [h]; rfl⟩

theorem reaches_succ {k : Nat} {s t : State} :
    Reaches (k + 1) s t ↔ ∃ r, step s = .next r ∧ Reaches k r t :=
  coreRun_succ (M := Sys2Proof.core)

/-- Two runs of equally many steps end alike. -/
theorem Alike.reaches {k : Nat} {t : State} (h : Alike s u) (hv : s.cfg.Valid)
    (hq : s.hostQueue = []) (hrun : Reaches k s t) : ∃ v, Reaches k u v ∧ Alike t v := by
  induction k generalizing s u with
  | zero =>
    obtain rfl := reaches_zero.mp hrun
    exact ⟨u, reaches_zero.mpr rfl, h⟩
  | succ k ih =>
    obtain ⟨r, hstep, hrest⟩ := reaches_succ.mp hrun
    obtain ⟨w, hstep', h'⟩ := h.step hv hq r hstep
    obtain ⟨hcfg, hquiet⟩ := step_keepsQuiet hq hstep
    obtain ⟨v, hrun', h''⟩ := ih h' (by rw [hcfg]; exact hv) hquiet hrest
    exact ⟨v, reaches_succ.mpr ⟨w, hstep', hrun'⟩, h''⟩

/-- Two just-started states of one operation on the same bytes are alike. -/
theorem alike_of_started {o : Op} (hs : Started o s) (hu : Started o u) (hcfg : s.cfg = u.cfg)
    (hbytes : s.inputBytes = u.inputBytes) : Alike s u := by
  have hn : u.n = s.n := by
    have := congrArg List.length hbytes
    simp only [State.inputBytes, List.length_map, List.length_range] at this
    exact BitVec.eq_of_toNat_eq this.symm
  exact {
    cfg := hcfg.symm
    phase := hu.busy.trans hs.busy.symm
    errPos := hu.noError.trans hs.noError.symm
    op := hu.opIs.trans hs.opIs.symm
    n := hn
    p := hu.cursor.trans hs.cursor.symm
    m := hu.count.trans hs.count.symm
    hostQueue := hu.quiet.trans hs.quiet.symm
    input := fun j hj => by
      rw [State.inputBytes, State.inputBytes, hn] at hbytes
      exact (List.map_inj_left.mp hbytes j (List.mem_range.mpr hj)).symm
    output := fun _ j hj => by rw [hs.count] at hj; exact absurd hj (Nat.not_lt_zero j)
    result := fun hok => by rw [hs.busy] at hok; cases hok }

end

/-! ## The obligation -/

/-- Settles O54: the two runs step together, so they end alike. -/
theorem operationsAreIndependent : Obligations.OperationsAreIndependent := by
  unfold Obligations.OperationsAreIndependent
  intro o s u k t hs hu hcfg _ hbytes hrun _
  obtain ⟨v, hrun', h⟩ := (alike_of_started hs hu hcfg hbytes).reaches hs.valid hs.quiet hrun
  refine ⟨k, v, hrun', h.phase, h.errPos, fun hok => ?_⟩
  obtain ⟨hlen, hread⟩ := h.result hok
  refine ⟨hlen, ?_⟩
  rw [hlen]
  exact List.map_congr_left fun j hj => hread j (List.mem_range.mp hj)

end Sys2Proof.Machine
end

section
/-!
PROOFS. The host's registers (10_state.md R21 to R29, R43): what a register access answers and changes,
STATUS by phase, and the fields of CONFIG.
-/

namespace Sys2Proof.Machine

/-- The offsets of R21's map. -/
def mappedOffsets : List Word :=
  [cmdOffset, statusOffset, inLenOffset, outLenOffset, errPosOffset, configOffset, inCapOffset,
    outCapOffset]

theorem regRead_of_unmapped (s : State) {offset : Word} (h : offset ∉ mappedOffsets) :
    regRead s offset = 0 := by
  simp only [mappedOffsets, List.mem_cons, List.not_mem_nil, or_false, not_or] at h
  simp only [regRead, h, if_false]

/-- Every offset of the map is a multiple of 4 up to 0x1C. -/
theorem mappedOffsets_bounds {offset : Word} (h : offset ∈ mappedOffsets) :
    offset.toNat ≤ 0x1C ∧ offset.toNat % 4 = 0 := by
  simp only [mappedOffsets, List.mem_cons, List.not_mem_nil, or_false] at h
  rcases h with rfl | rfl | rfl | rfl | rfl | rfl | rfl | rfl <;> decide

theorem toNat_capacity {cap : Nat} (h : cap ≤ 2 ^ 32 - 1) : (BitVec.ofNat 32 cap).toNat = cap := by
  rw [BitVec.toNat_ofNat, Nat.mod_eq_of_lt (by omega)]

/-- A register read is taken from the queue and answered. -/
theorem step_readReg {s : State} {offset : Word} {rest : List HostOp} (hv : s.cfg.Valid)
    (hq : s.hostQueue = .readReg offset :: rest) :
    step s = .next { s with hostQueue := rest, reply := some (regRead s offset) } := by
  rw [step_of_access hv hq rfl]
  rfl

/-- Settles O8: by offset; an offset above 0x1C or off a multiple of 4 is none of R21's. -/
theorem registerReads : Obligations.RegisterReads := by
  unfold Obligations.RegisterReads
  intro s
  refine ⟨fun _ _ => step_readReg, ?_, rfl, rfl, fun hb => if_neg hb, rfl, rfl, fun hv => ?_,
    fun offset h => ?_⟩
  · exact BitVec.toNat_setWidth_of_le (show 3 ≤ 32 by decide)
  · obtain ⟨-, -, -, -, -, hin, hout, -⟩ := hv
    exact ⟨toNat_capacity hin, toNat_capacity hout⟩
  · refine regRead_of_unmapped s fun hmem => ?_
    obtain ⟨hle, haligned⟩ := mappedOffsets_bounds hmem
    omega

/-- Settles O9: the write leaves the queue, and IN_LEN alone stores it. -/
theorem registerWrites : Obligations.RegisterWrites := by
  unfold Obligations.RegisterWrites
  intro s hv offset value rest hq
  rw [step_of_access hv hq rfl, hostAction, hostWriteReg]
  constructor
  · rintro rfl hb
    rw [if_neg (by decide), if_pos rfl, if_neg hb]
    rfl
  · intro hcmd hlen
    rw [if_neg hcmd, if_neg hlen]
    rfl

/-- Settles O10: by phase, and by cause in DONE_FAULT. -/
theorem statusWordByPhase : Obligations.StatusWordByPhase := by
  unfold Obligations.StatusWordByPhase
  intro s
  refine ⟨fun h => ?_, fun h => ?_, fun h => ?_, fun c h => ?_⟩ <;> rw [State.statusWord, h]
  · decide
  · decide
  · decide
  · cases c <;> decide

/-- CONFIG's four bytes do not overlap or overflow. -/
theorem configWord_toNat {c : Config} (hv : c.Valid) :
    (configWord c).toNat =
      c.windowSize + c.minMatch * 2 ^ 8 + c.maxMatch * 2 ^ 16 + c.rleMax * 2 ^ 24 := by
  obtain ⟨⟨-, hwindow⟩, -, ⟨-, hmin, hmax⟩, hrle, -⟩ := hv
  rw [configWord, BitVec.toNat_ofNat, Nat.mod_eq_of_lt (by omega)]

/-- Settles O11: each parameter is below 2^8, so each is its byte of the sum. -/
theorem configRegisterFields : Obligations.ConfigRegisterFields := by
  unfold Obligations.ConfigRegisterFields
  refine ⟨by decide, fun c hv => ?_⟩
  rw [configWord_toNat hv]
  obtain ⟨⟨-, hwindow⟩, -, ⟨-, hmin, hmax⟩, hrle, -⟩ := hv
  omega

/-- Settles O55: the model's reset state, evaluated. -/
theorem resetValues : Obligations.ResetValues := by
  unfold Obligations.ResetValues
  decide

end Sys2Proof.Machine
end

section
/-!
PROOFS. The memory family (20_memory.md): the byte view of a register, the host's byte accesses, and
the canonical form of IN, OUT and HIST, which no step breaks since only the memory operations of
Laws/Memory.lean change the three spaces.
-/

namespace Sys2Proof.Machine

/-! ## Registers by bytes -/

theorem regByte_toNat (s : State) (offset : Word) (k : Nat) :
    (regByte s offset k).toNat = (regRead s offset).toNat / 2 ^ (8 * k) % 2 ^ 8 := by
  rw [regByte, BitVec.toNat_setWidth, BitVec.toNat_ushiftRight, Nat.shiftRight_eq_div_pow]

/-- Settles O12: the four bytes are the word's digits in base 2^8. -/
theorem registerBytesLittleEndian : Obligations.RegisterBytesLittleEndian := by
  unfold Obligations.RegisterBytesLittleEndian
  intro s offset
  constructor
  · simp only [regByte_toNat]
    have hword := (regRead s offset).isLt
    omega
  · intro hv
    obtain ⟨-, -, -, -, -, -, -, -, hwidth⟩ := hv
    rw [regBytes, hwidth]
    rfl

/-! ## The host's byte accesses -/

/-- Settles O58: each access leaves the queue, is tested for the phase and the index, and then reads or
writes the one byte or faults. -/
theorem hostByteAccesses : Obligations.HostByteAccesses := by
  unfold Obligations.HostByteAccesses
  intro s rest i hv hb
  refine ⟨fun b hq hi => ?_, fun b hq hi => ?_, fun hq hi => ?_, fun hq hi => ?_, fun hq hi => ?_,
    fun hq hi => ?_⟩ <;> rw [step_of_access hv hq rfl, hostAction]
  · rw [hostWriteIn, if_neg hb, if_pos hi]
    exact ⟨_, rfl, Memory.read_write_same _ _ _ _, fun j => Memory.read_write_other _ _ _, rfl⟩
  · rw [hostWriteOut, if_neg hb, if_pos hi]
    exact ⟨_, rfl, Memory.read_write_same _ _ _ _, fun j => Memory.read_write_other _ _ _, rfl⟩
  · rw [hostReadIn, if_pos hi]
    rfl
  · rw [hostReadOut, if_neg hb, if_pos hi]
    rfl
  · rw [hostReadIn, if_neg (Nat.not_lt.mpr hi)]
    rfl
  · rw [hostReadOut, if_neg hb, if_neg (Nat.not_lt.mpr hi)]
    rfl

/-! ## The canonical form -/

/-- IN, OUT and HIST are in canonical form (log entry 4). A move of registers alone leaves this
proposition the same by definition. -/
def Canonical (s : State) : Prop := s.inBuf.Wf ∧ s.outBuf.Wf ∧ s.hist.Wf

theorem Canonical.appendByte {s : State} (h : Canonical s) (v : Byte) :
    Canonical (appendByte s v) := by
  obtain ⟨hin, hout, hhist⟩ := h
  refine ⟨hin, hout.write _ v, ?_⟩
  rw [appendByte_hist]
  split
  · exact hhist
  · exact hhist.write _ v

theorem Canonical.raise {s : State} (h : Canonical s) (c : Cause) (pos : Word) :
    Canonical (raise s c pos) := by
  obtain ⟨hin, -, hhist⟩ := h
  exact ⟨hin, .forget s.outBuf _, hhist⟩

theorem Canonical.complete {s : State} (h : Canonical s) : Canonical (complete s) := by
  obtain ⟨hin, hout, hhist⟩ := h
  exact ⟨hin, hout.keepBelow _ _, hhist⟩

theorem hardReset_canonical (s : State) : Canonical (hardReset s) :=
  ⟨.forget s.inBuf _, .forget s.outBuf _, .forget s.hist _⟩

theorem Canonical.start {s : State} (h : Canonical s) (o : Op) : Canonical (start s o) := by
  rcases start_cases s o with ⟨-, hs⟩ | ⟨-, hs⟩ <;> rw [hs] <;> exact h

/-- Going on from a run keeps what each part keeps. -/
theorem Canonical.bind {r : Run} {f : State → Run} (h : Canonical r.state)
    (hf : ∀ t, Canonical t → Canonical (f t).state) : Canonical (Run.state (r.bind f)) := by
  cases r with
  | ok t => exact hf t h
  | error t => exact h

theorem Canonical.emit {s : State} (h : Canonical s) (v : Byte) : Canonical (emit s v).state := by
  rcases emit_cases (s := s) (v := v) rfl with ⟨-, he⟩ | ⟨-, he⟩ <;> rw [he]
  · exact h.appendByte v
  · exact h.raise .outCapacity s.p

/-! ### The loops -/

theorem Canonical.emitAll {s : State} (h : Canonical s) (bytes : List Byte) :
    Canonical (emitAll s bytes).state := by
  induction bytes generalizing s with
  | nil => exact h
  | cons v rest ih => exact (h.emit v).bind fun _ ht => ih ht

theorem Canonical.expandRun {s : State} (h : Canonical s) (k : Nat) :
    Canonical (expandRun k s).state := by
  induction k generalizing s with
  | zero => exact h
  | succ k ih => exact (h.emit s.runVal).bind fun t ht => ih (s := takeFromRun t 1) ht

theorem Canonical.copyLoop {s : State} (h : Canonical s) (base k i : Nat) :
    Canonical (copyLoop base k i s).state := by
  induction k generalizing i s with
  | zero => exact h
  | succ k ih => exact (h.emit _).bind fun t ht => ih (s := countCopied t) ht (i + 1)

theorem Canonical.emitRun {s : State} (h : Canonical s) (fuel : Nat) :
    Canonical (emitRun fuel s).state := by
  induction fuel generalizing s with
  | zero => exact h
  | succ fuel ih =>
    rw [Machine.emitRun]
    split
    · exact (h.emitAll _).bind fun t ht => ih (s := advance (takeFromRun t _) _) ht
    · exact (h.emitAll _).bind fun _ ht => ht

theorem Canonical.consumeToHist {s : State} (h : Canonical s) (k : Nat) :
    Canonical (consumeToHist s k) := by
  induction k with
  | zero => exact h
  | succ k ih =>
    obtain ⟨hin, hout, hhist⟩ := ih
    exact ⟨hin, hout, hhist.write _ _⟩

/-! ### The tokens -/

theorem Canonical.rleEncodeRun {s : State} (h : Canonical s) : Canonical (rleEncodeRun s).state :=
  Canonical.emitRun (s := loadRun s (s.inByte s.p.toNat) (BitVec.ofNat 32 (runLength s))) h _

theorem Canonical.runToken {s : State} (h : Canonical s) (count value : Byte) :
    Canonical (runToken s count value).state := by
  rw [Machine.runToken]
  split
  · exact h.raise .rleZeroCount s.p
  · exact (Canonical.expandRun (s := loadRun s value (zext count)) h _).bind fun _ ht => ht

theorem Canonical.litToken {s : State} (h : Canonical s) (value : Byte) :
    Canonical (litToken s value).state :=
  (h.emit value).bind fun _ ht => ht

theorem Canonical.matchToken {s : State} (h : Canonical s) (offset length : Byte) :
    Canonical (matchToken s offset length).state := by
  have hunpack : Canonical (unpackMatch s offset length) := h
  rw [Machine.matchToken]
  split
  · exact hunpack.raise .winZeroOffset s.p
  split
  · exact hunpack.raise .winBadOffset s.p
  · exact (hunpack.copyLoop _ _ _).bind fun _ ht => ht

theorem Canonical.winEncodeToken {s : State} (h : Canonical s) :
    Canonical (winEncodeToken s).state := by
  have hconsume : ∀ k, Canonical (Machine.consumeToHist (runFinder s) k) :=
    Canonical.consumeToHist (s := runFinder s) h
  rw [Machine.winEncodeToken]
  split
  · exact ((hconsume _).emitAll _).bind fun _ ht => ht
  · exact ((hconsume _).emitAll _).bind fun _ ht => ht

/-! ### Instructions and steps -/

theorem Canonical.of_next {s t : State} (hs : Canonical s)
    (h : Host.Outcome.next (φ := Fault) (ρ := Refusal) s = .next t) : Canonical t := by
  cases h
  exact hs

theorem Canonical.of_settle {r : Run} {t : State} (hr : Canonical r.state)
    (h : settle r = .next t) : Canonical t :=
  hr.of_next (settle_state r ▸ h)

/-- A command starts, completes, or does its iteration. -/
theorem Canonical.of_command {s t : State} {o : Op} {going : Host.Outcome State Fault Refusal}
    (hs : Canonical s) (hgoing : going = .next t → Canonical t)
    (h : commandOutcome s o going = .next t) : Canonical t := by
  rcases command_cases h with ⟨-, -, -, h⟩ | ⟨-, -, rfl⟩ | ⟨-, rfl⟩
  · exact hgoing h
  · exact hs.complete
  · exact hs.start o

theorem Canonical.exec {i : Instr} {s t : State} (hs : Canonical s) (h : exec i s = .next t) :
    Canonical t := by
  cases i with
  | rleCompress => exact hs.of_command hs.rleEncodeRun.of_settle h
  | rleDecompress => exact hs.of_command hs.of_next h
  | winCompress => exact hs.of_command hs.winEncodeToken.of_settle h
  | winDecompress => exact hs.of_command hs.of_next h
  | cmdReserved op =>
    rw [Machine.exec, execCmdReserved] at h
    split at h
    · cases h
    · exact Canonical.of_next (s := rejectCommand s op) hs h
  | run count value => exact (hs.runToken count value).of_settle h
  | lit value => exact (hs.litToken value).of_settle h
  | matchTok offset length => exact (hs.matchToken offset length).of_settle h
  | rleZeroCount value => exact (hs.raise .rleZeroCount s.p).of_next h
  | rleTrailingByte last => exact (hs.raise .rleOddLength (lastIndex s)).of_next h
  | winIllegalTag tag => exact (hs.raise .winBadTag s.p).of_next h
  | winLitTruncated => exact (hs.raise .winTruncated s.p).of_next h
  | winMatchTruncated offset => exact (hs.raise .winTruncated s.p).of_next h

theorem Canonical.step {s t : State} (hs : Canonical s) (h : step s = .next t) : Canonical t := by
  have ⟨hin, hout, hhist⟩ := hs
  cases step_stepsTo h with
  | engine queue reply _ he => exact Canonical.exec (s := withHost s queue reply) hs he
  | hostSide => exact hs
  | storeInLen => exact hs
  | storeIn _ b => exact ⟨hin.write _ b, hout, hhist⟩
  | storeOut _ b => exact ⟨hin, hout.write _ b, hhist⟩
  | @starts _ rest _ _ o _ => exact Canonical.start (s := withHost s rest s.reply) hs o
  | rejects => exact hs
  | @resets rest _ => exact hardReset_canonical (withHost s rest s.reply)

/-- Settles O36: `Canonical` is its invariant. -/
theorem canonicalMemoryKept : Obligations.CanonicalMemoryKept := by
  unfold Obligations.CanonicalMemoryKept
  exact fun s t hin hout hhist h => Canonical.step (s := s) ⟨hin, hout, hhist⟩ h

end Sys2Proof.Machine
end

section
/-!
PROOFS. The encodings (30_encoding.md): which fields make an instruction well-formed, one equation
per row of each decode table, and, from these, that decoder and encoder agree and which token a step
takes at the cursor.
-/

namespace Sys2Proof

/-! ## Well-formed fields -/

/-- The legal operations of R22 as numbers: 1 to 4. -/
theorem legal_eq_false_iff (op : Op) : op.legal = false ↔ op.toNat = 0 ∨ 5 ≤ op.toNat := by
  revert op
  decide

theorem wf_cmdReserved_iff {op : Op} : (Instr.cmdReserved op).wf = true ↔ op.legal = false := by
  simp [Instr.wf]

theorem wf_run_iff {count value : Byte} : (Instr.run count value).wf = true ↔ count ≠ 0 := by
  simp [Instr.wf]

theorem wf_winIllegalTag_iff {tag : Byte} :
    (Instr.winIllegalTag tag).wf = true ↔ tag ≠ 0 ∧ tag ≠ 1 := by
  simp [Instr.wf]

/-! ## The command word (R71) -/

theorem opField_eq_ofNat (w : Word) : opField w = BitVec.ofNat 3 (w.toNat % 8) := by
  apply BitVec.eq_of_toNat_eq
  simp [opField]

theorem opField_setWidth (op : Op) : opField (op.setWidth 32) = op := by
  rw [opField, BitVec.setWidth_setWidth_of_le op (by decide), BitVec.setWidth_eq]

theorem decodeCommand_rleCompress {w : Word} (h : opField w = opRleCompress) :
    decodeCommand w = .rleCompress := by
  rw [decodeCommand, h]
  rfl

theorem decodeCommand_rleDecompress {w : Word} (h : opField w = opRleDecompress) :
    decodeCommand w = .rleDecompress := by
  rw [decodeCommand, h]
  rfl

theorem decodeCommand_winCompress {w : Word} (h : opField w = opWinCompress) :
    decodeCommand w = .winCompress := by
  rw [decodeCommand, h]
  rfl

theorem decodeCommand_winDecompress {w : Word} (h : opField w = opWinDecompress) :
    decodeCommand w = .winDecompress := by
  rw [decodeCommand, h]
  rfl

theorem decodeCommand_reserved {w : Word} (h : (opField w).legal = false) :
    decodeCommand w = .cmdReserved (opField w) := by
  simp only [Op.legal, Bool.or_eq_false_iff, beq_eq_false_iff_ne] at h
  obtain ⟨⟨⟨h1, h2⟩, h3⟩, h4⟩ := h
  rw [decodeCommand, if_neg h1, if_neg h2, if_neg h3, if_neg h4]

/-! ## The RLE stream (R73 to R75) -/

theorem decodeRle_trailingByte (last : Byte) :
    decodeRle [last] = .ok (.rleTrailingByte last, []) := rfl

theorem decodeRle_zeroCount (value : Byte) (rest : List Byte) :
    decodeRle (0 :: value :: rest) = .ok (.rleZeroCount value, rest) := rfl

theorem decodeRle_run {count : Byte} (h : count ≠ 0) (value : Byte) (rest : List Byte) :
    decodeRle (count :: value :: rest) = .ok (.run count value, rest) := if_neg h

/-! ## The Window stream (R76 to R81, R159) -/

theorem decodeWindow_litTruncated : decodeWindow [0] = .ok (.winLitTruncated, []) := rfl

theorem decodeWindow_lit (value : Byte) (rest : List Byte) :
    decodeWindow (0 :: value :: rest) = .ok (.lit value, rest) := rfl

theorem decodeWindow_matchTruncated_none :
    decodeWindow [1] = .ok (.winMatchTruncated none, []) := rfl

theorem decodeWindow_matchTruncated_some (offset : Byte) :
    decodeWindow [1, offset] = .ok (.winMatchTruncated (some offset), []) := rfl

theorem decodeWindow_matchTok (offset length : Byte) (rest : List Byte) :
    decodeWindow (1 :: offset :: length :: rest) = .ok (.matchTok offset length, rest) := rfl

theorem decodeWindow_illegalTag {tag : Byte} (h0 : tag ≠ 0) (h1 : tag ≠ 1) (rest : List Byte) :
    decodeWindow (tag :: rest) = .ok (.winIllegalTag tag, rest) :=
  (if_neg h0).trans (if_neg h1)

/-! ## The instruction at the head of an encoding -/

theorem decode_of_decodeCommand {w : Word} {i : Instr} (h : decodeCommand w = i) :
    decode (.command w) = .ok i := congrArg Except.ok h

theorem decode_of_decodeRle {bytes rest : List Byte} {i : Instr}
    (h : decodeRle bytes = .ok (i, rest)) : decode (.rle bytes) = .ok i := by
  rw [decode, h]
  rfl

theorem decode_of_decodeWindow {bytes rest : List Byte} {i : Instr}
    (h : decodeWindow bytes = .ok (i, rest)) : decode (.window bytes) = .ok i := by
  rw [decode, h]
  rfl

/-- A reserved command's encoding decodes to it, its OP being none of the four legal ones. -/
theorem decode_encode_cmdReserved {op : Op} (h : op.legal = false) :
    decode (encode (.cmdReserved op)) = .ok (.cmdReserved op) := by
  apply decode_of_decodeCommand
  rw [decodeCommand_reserved (by rwa [opField_setWidth]), opField_setWidth]

/-- Settles O3: each constructor's encoding is a row of its decode table; well-formedness is what
puts a reserved OP, a count and an illegal tag in its row. -/
theorem decodeOfEncodeIsIdentity : Obligations.DecodeOfEncodeIsIdentity := by
  unfold Obligations.DecodeOfEncodeIsIdentity
  intro i hwf
  cases i with
  | rleCompress => exact decode_of_decodeCommand (decodeCommand_rleCompress (by decide))
  | rleDecompress => exact decode_of_decodeCommand (decodeCommand_rleDecompress (by decide))
  | winCompress => exact decode_of_decodeCommand (decodeCommand_winCompress (by decide))
  | winDecompress => exact decode_of_decodeCommand (decodeCommand_winDecompress (by decide))
  | cmdReserved op => exact decode_encode_cmdReserved (wf_cmdReserved_iff.mp hwf)
  | run count value => exact decode_of_decodeRle (decodeRle_run (wf_run_iff.mp hwf) value [])
  | rleZeroCount value => exact decode_of_decodeRle (decodeRle_zeroCount value [])
  | rleTrailingByte last => exact decode_of_decodeRle (decodeRle_trailingByte last)
  | lit value => exact decode_of_decodeWindow (decodeWindow_lit value [])
  | matchTok offset length => exact decode_of_decodeWindow (decodeWindow_matchTok offset length [])
  | winIllegalTag tag =>
    obtain ⟨h0, h1⟩ := wf_winIllegalTag_iff.mp hwf
    exact decode_of_decodeWindow (decodeWindow_illegalTag h0 h1 [])
  | winLitTruncated => exact decode_of_decodeWindow decodeWindow_litTruncated
  | winMatchTruncated offset =>
    cases offset with
    | none => exact decode_of_decodeWindow decodeWindow_matchTruncated_none
    | some offset => exact decode_of_decodeWindow (decodeWindow_matchTruncated_some offset)

/-! ## What a stream decoder consumes -/

/-- By the bytes left: one is a trailing byte; of two the count, zero or not, decides. -/
theorem decodeRle_consumes {bytes : List Byte} (h : bytes ≠ []) : ∃ i rest used,
    decodeRle bytes = .ok (i, rest) ∧ i.wf = true ∧ encode i = .rle used ∧
      used ++ rest = bytes := by
  match bytes with
  | [last] => exact ⟨_, _, _, decodeRle_trailingByte last, rfl, rfl, rfl⟩
  | count :: value :: rest =>
    by_cases hc : count = 0
    · subst hc
      exact ⟨_, _, _, decodeRle_zeroCount value rest, rfl, rfl, rfl⟩
    · exact ⟨_, _, _, decodeRle_run hc value rest, wf_run_iff.mpr hc, rfl, rfl⟩

/-- By the tag, and under tags 0 and 1 by the bytes left after it. -/
theorem decodeWindow_consumes {bytes : List Byte} (h : bytes ≠ []) : ∃ i rest used,
    decodeWindow bytes = .ok (i, rest) ∧ i.wf = true ∧ encode i = .window used ∧
      used ++ rest = bytes := by
  obtain ⟨tag, tail, rfl⟩ := List.exists_cons_of_ne_nil h
  by_cases h0 : tag = 0
  · subst h0
    match tail with
    | [] => exact ⟨_, _, _, decodeWindow_litTruncated, rfl, rfl, rfl⟩
    | value :: rest => exact ⟨_, _, _, decodeWindow_lit value rest, rfl, rfl, rfl⟩
  by_cases h1 : tag = 1
  · subst h1
    match tail with
    | [] => exact ⟨_, _, _, decodeWindow_matchTruncated_none, rfl, rfl, rfl⟩
    | [offset] => exact ⟨_, _, _, decodeWindow_matchTruncated_some offset, rfl, rfl, rfl⟩
    | offset :: length :: rest =>
      exact ⟨_, _, _, decodeWindow_matchTok offset length rest, rfl, rfl, rfl⟩
  · exact ⟨_, _, _, decodeWindow_illegalTag h0 h1 tail, wf_winIllegalTag_iff.mpr ⟨h0, h1⟩, rfl, rfl⟩

/-- Settles O4: what each decoder consumes of a nonempty stream; in the empty one it finds no
token. -/
theorem streamDecodeConsumesTheEncoding : Obligations.StreamDecodeConsumesTheEncoding := by
  unfold Obligations.StreamDecodeConsumesTheEncoding
  exact ⟨fun _ h => decodeRle_consumes h, fun _ h => decodeWindow_consumes h, rfl, rfl⟩

/-! ## Command words and words written out -/

/-- Settles O1: bits 2:0 are the word modulo 8, and each value is a row of R71's table. -/
theorem commandWordSelectsByOp : Obligations.CommandWordSelectsByOp := by
  unfold Obligations.CommandWordSelectsByOp
  intro w
  have hop := opField_eq_ofNat w
  refine ⟨fun h => ?_, fun h => ?_, fun h => ?_, fun h => ?_, fun h => ?_⟩
  · exact decodeCommand_rleCompress (by rw [hop, h])
  · exact decodeCommand_rleDecompress (by rw [hop, h])
  · exact decodeCommand_winCompress (by rw [hop, h])
  · exact decodeCommand_winDecompress (by rw [hop, h])
  · have hlegal : (opField w).legal = false := by
      rw [legal_eq_false_iff, hop, BitVec.toNat_ofNat]
      omega
    rw [decodeCommand_reserved hlegal, hop]

/-- Settles O2: each word is an instance of its row. -/
theorem specWordsDecode : Obligations.SpecWordsDecode := by
  unfold Obligations.SpecWordsDecode
  exact ⟨decode_of_decodeCommand (decodeCommand_winCompress (by decide)),
    decode_of_decodeCommand (decodeCommand_reserved (by decide)),
    decode_of_decodeRle (decodeRle_run (by decide) 0x41 []),
    decode_of_decodeRle (decodeRle_zeroCount 0x42 []),
    decode_of_decodeWindow (decodeWindow_lit 0x41 []),
    decode_of_decodeWindow (decodeWindow_matchTok 2 5 []),
    decode_of_decodeWindow (decodeWindow_illegalTag (by decide) (by decide) [])⟩

end Sys2Proof

namespace Sys2Proof.Machine

/-! ## The token at the cursor -/

theorem streamFrom_succ {s : State} {i : Nat} (h : i < s.n.toNat) (k : Nat) :
    streamFrom s i (k + 1) = s.inByte i :: streamFrom s (i + 1) k := if_pos h

theorem streamAtCursor_cons {s : State} (h : s.p.toNat < s.n.toNat) :
    streamAtCursor s = s.inByte s.p.toNat :: streamFrom s (s.p.toNat + 1) 2 := streamFrom_succ h 2

theorem streamAtCursor_cons_cons {s : State} (h : s.p.toNat + 1 < s.n.toNat) :
    streamAtCursor s = s.inByte s.p.toNat :: s.inByte (s.p.toNat + 1) ::
      streamFrom s (s.p.toNat + 2) 1 := by
  rw [streamAtCursor_cons (by omega), streamFrom_succ h]

section
variable {s : State} {i : Instr} {rest : List Byte} (hv : s.cfg.Valid) (hq : s.hostQueue = [])
  (hb : s.phase = .busy)
include hv hq hb

/-- With the host silent a running RLE decoder executes the token it decodes at the cursor. -/
theorem step_of_decodeRle (ho : s.op = opRleDecompress) (hn : s.n.toNat % 2 = 0)
    (hd : decodeRle (streamAtCursor s) = .ok (i, rest)) : step s = exec i s := by
  rw [step_of_busy hv hq hb, engineFetch_rle ho hn hd]

/-- With the host silent a running Window decoder executes the token it decodes at the cursor. -/
theorem step_of_decodeWindow (ho : s.op = opWinDecompress)
    (hd : decodeWindow (streamAtCursor s) = .ok (i, rest)) : step s = exec i s := by
  rw [step_of_busy hv hq hb, engineFetch_window ho hd]

end

/-- Settles O6: the stream at the cursor is cut at n, and the decoder's row for what is left of it
is the token executed. -/
theorem fetchReadsTokenAtCursor : Obligations.FetchReadsTokenAtCursor := by
  unfold Obligations.FetchReadsTokenAtCursor
  intro s hv hq hb
  constructor
  · intro ho hn hlt
    refine ⟨fun h0 => ?_, fun h0 => ?_⟩ <;> apply step_of_decodeRle hv hq hb ho hn
    · rw [streamAtCursor_cons_cons hlt, h0]
      exact decodeRle_zeroCount _ _
    · rw [streamAtCursor_cons_cons hlt]
      exact decodeRle_run h0 _ _
  · intro ho hlt
    refine ⟨fun h0 hlen => ?_, fun h0 hlen => ?_, fun h1 hlen => ?_, fun h1 hlen => ?_,
      fun h1 hlen => ?_, fun h0 h1 => ?_⟩ <;> apply step_of_decodeWindow hv hq hb ho
    · rw [streamAtCursor_cons_cons hlen, h0]
      exact decodeWindow_lit _ _
    · rw [streamAtCursor_one (by omega), h0]
      exact decodeWindow_litTruncated
    · rw [streamAtCursor_three hlen, h1]
      exact decodeWindow_matchTok _ _ _
    · rw [streamAtCursor_two hlen, h1]
      exact decodeWindow_matchTruncated_some _
    · rw [streamAtCursor_one hlen, h1]
      exact decodeWindow_matchTruncated_none
    · rw [streamAtCursor_cons hlt]
      exact decodeWindow_illegalTag h0 h1 _

end Sys2Proof.Machine
end

section
/-!
PROOFS. The RLE family (40_rle.md) on byte lists: the maximal runs of an input (R100), the split of a
run into tokens (R101), the size of the output (R104), and that decoding inverts encoding (R110). The
lemmas about one run and one token are those the machine's proofs use as well.
-/

namespace Sys2Proof.Machine

/-! ## Maximal runs (R100) -/

/-- The bytes that a list of (count, value) pairs, runs or tokens, stands for. -/
def spell (pairs : List (Nat × Byte)) : List Byte :=
  pairs.flatMap fun r => List.replicate r.1 r.2

theorem spell_cons (r : Nat × Byte) (rest : List (Nat × Byte)) :
    spell (r :: rest) = List.replicate r.1 r.2 ++ spell rest := List.flatMap_cons

theorem spell_length (pairs : List (Nat × Byte)) :
    (spell pairs).length = (pairs.map Prod.fst).sum := by
  simp [spell, List.length_flatMap]

/-- A byte equal to the first run's value lengthens that run. -/
theorem runsOf_cons_same {b : Byte} {rest : List Byte} {len : Nat} {runs : List (Nat × Byte)}
    (h : runsOf rest = (len, b) :: runs) : runsOf (b :: rest) = (len + 1, b) :: runs := by
  rw [runsOf, h]
  exact if_pos rfl

/-- A byte of another value is a run of its own. -/
theorem runsOf_cons_ne {b v : Byte} {rest : List Byte} {len : Nat} {runs : List (Nat × Byte)}
    (h : runsOf rest = (len, v) :: runs) (hne : b ≠ v) :
    runsOf (b :: rest) = (1, b) :: (len, v) :: runs := by
  rw [runsOf, h]
  exact if_neg hne

/-- The first run has the first byte's value. -/
theorem runsOf_cons_eq (b : Byte) (rest : List Byte) :
    ∃ len runs, runsOf (b :: rest) = (len, b) :: runs := by
  match h : runsOf rest with
  | [] => exact ⟨1, [], by rw [runsOf, h]⟩
  | (len, v) :: runs =>
    by_cases hb : b = v
    · subst hb
      exact ⟨_, _, runsOf_cons_same h⟩
    · exact ⟨_, _, runsOf_cons_ne h hb⟩

/-- Induction over an input together with its runs: a byte read before them starts the first run of
all, lengthens the first run, or starts a run of another value. -/
theorem runsOf_induction {P : List Byte → List (Nat × Byte) → Prop} (nil : P [] [])
    (first : ∀ b, P [b] [(1, b)])
    (same : ∀ b rest len runs, P rest ((len, b) :: runs) → P (b :: rest) ((len + 1, b) :: runs))
    (new : ∀ b v rest len runs, b ≠ v → P rest ((len, v) :: runs) →
      P (b :: rest) ((1, b) :: (len, v) :: runs))
    (input : List Byte) : P input (runsOf input) := by
  induction input with
  | nil => exact nil
  | cons b rest ih =>
    match rest with
    | [] => exact first b
    | v :: rest =>
      obtain ⟨len, runs, h⟩ := runsOf_cons_eq v rest
      rw [h] at ih
      by_cases hb : b = v
      · subst hb
        rw [runsOf_cons_same h]
        exact same _ _ _ _ ih
      · rw [runsOf_cons_ne h hb]
        exact new _ _ _ _ _ hb ih

theorem spell_runsOf (input : List Byte) : spell (runsOf input) = input := by
  refine runsOf_induction (P := fun input runs => spell runs = input) rfl (fun _ => rfl)
    (fun b rest len runs ih => ?_) (fun b v rest len runs _ ih => ?_) input
  · rw [spell_cons] at ih ⊢
    rw [List.replicate_succ, List.cons_append, ih]
  · rw [spell_cons, ih]
    rfl

theorem runsOf_pos (input : List Byte) : ∀ r ∈ runsOf input, 1 ≤ r.1 := by
  refine runsOf_induction (P := fun _ runs => ∀ r ∈ runs, 1 ≤ r.1) (by simp) (by simp)
    (fun b rest len runs ih => ?_) (fun b v rest len runs _ ih => ?_) input
  · exact List.forall_mem_cons.mpr ⟨Nat.le_add_left 1 len, (List.forall_mem_cons.mp ih).2⟩
  · exact List.forall_mem_cons.mpr ⟨Nat.le_refl 1, ih⟩

theorem runsOf_isChain (input : List Byte) :
    (runsOf input).IsChain fun a b => a.2 ≠ b.2 := by
  refine runsOf_induction (P := fun _ runs => runs.IsChain fun a b => a.2 ≠ b.2) .nil
    (fun b => .singleton _) (fun b rest len runs ih => ?_) (fun b v rest len runs hb ih => ?_) input
  · exact List.isChain_cons.mpr (List.isChain_cons.mp ih)
  · exact .cons_cons hb ih

/-- The run at the head of an input whose next byte, if there is one, differs. -/
theorem runsOf_replicate_append {len : Nat} {v : Byte} {rest : List Byte} (hlen : 1 ≤ len)
    (hrest : rest.head? ≠ some v) :
    runsOf (List.replicate len v ++ rest) = (len, v) :: runsOf rest := by
  induction len, hlen using Nat.le_induction with
  | base =>
    match rest with
    | [] => rfl
    | c :: rest =>
      obtain ⟨len, runs, h⟩ := runsOf_cons_eq c rest
      have hne : v ≠ c := fun hvc => hrest (by rw [hvc]; rfl)
      rw [h]
      exact runsOf_cons_ne h hne
  | succ len _ ih =>
    rw [List.replicate_succ, List.cons_append]
    exact runsOf_cons_same ih

/-! ## The split of a run (R101) -/

theorem splitRun_length (max : Nat) (run : Nat × Byte) :
    (splitRun max run).length = (run.1 - 1) / max + 1 := by
  simp [splitRun]

/-- Every count but the last is RLE_MAX_COUNT. -/
theorem mem_dropLast_splitRun {max : Nat} {run r : Nat × Byte}
    (h : r ∈ (splitRun max run).dropLast) : r = (max, run.2) := by
  rw [splitRun, List.dropLast_concat] at h
  exact List.eq_of_mem_replicate h

theorem mem_splitRun {len : Nat} {v : Byte} {r : Nat × Byte} (hlen : 1 ≤ len)
    (h : r ∈ splitRun 255 (len, v)) : 1 ≤ r.1 ∧ r.1 ≤ 255 ∧ r.2 = v := by
  rcases List.mem_append.mp h with h | h
  · rw [List.eq_of_mem_replicate h]
    exact ⟨Nat.le_add_left 1 254, Nat.le_refl 255, rfl⟩
  · rw [List.mem_singleton.mp h]
    refine ⟨?_, ?_, rfl⟩ <;> simp only <;> omega

/-- The tokens of a run spell it. -/
theorem spell_splitRun (max : Nat) (run : Nat × Byte) :
    spell (splitRun max run) = List.replicate run.1 run.2 := by
  have hle : max * ((run.1 - 1) / max) ≤ run.1 :=
    Nat.le_trans (Nat.mul_div_le _ _) (Nat.sub_le _ _)
  rw [splitRun, spell, List.flatMap_append, List.flatMap_replicate,
    List.flatten_replicate_replicate, List.flatMap_singleton, List.replicate_append_replicate,
    Nat.mul_comm, Nat.add_sub_cancel' hle]

theorem splitRun_of_long {len : Nat} (v : Byte) (h : 255 < len) :
    splitRun 255 (len, v) = (255, v) :: splitRun 255 (len - 255, v) := by
  have hq : (len - 1) / 255 = (len - 255 - 1) / 255 + 1 := by omega
  have hrest : len - 255 * ((len - 255 - 1) / 255 + 1) =
      len - 255 - 255 * ((len - 255 - 1) / 255) := by omega
  rw [splitRun, splitRun, hq, hrest, List.replicate_succ, List.cons_append]

theorem splitRun_of_short {len : Nat} (v : Byte) (h : len ≤ 255) :
    splitRun 255 (len, v) = [(len, v)] := by
  have hq : (len - 1) / 255 = 0 := by omega
  simp [splitRun, hq]

/-- A token is two bytes (R73). -/
theorem packRle_flatMap_length (tokens : List (Nat × Byte)) :
    (tokens.flatMap packRle).length = 2 * tokens.length := by
  induction tokens with
  | nil => rfl
  | cons r rest ih =>
    rw [List.flatMap_cons, List.length_append, ih, List.length_cons]
    simp only [packRle, List.length_cons, List.length_nil]
    omega

/-! ## rle_compress and rle_decompress on lists -/

theorem refRleCompress_eq {cfg : Config} (hv : cfg.Valid) (input : List Byte) :
    refRleCompress cfg input = ((runsOf input).flatMap (splitRun 255)).flatMap packRle := by
  rw [refRleCompress, rleMax_of_valid hv]

/-- Compressing takes the runs one by one. -/
theorem refRleCompress_replicate_append {cfg : Config} (hv : cfg.Valid) {len : Nat} {v : Byte}
    {rest : List Byte} (hlen : 1 ≤ len) (hrest : rest.head? ≠ some v) :
    refRleCompress cfg (List.replicate len v ++ rest) =
      (splitRun 255 (len, v)).flatMap packRle ++ refRleCompress cfg rest := by
  rw [refRleCompress_eq hv, refRleCompress_eq hv, runsOf_replicate_append hlen hrest,
    List.flatMap_cons, List.flatMap_append]

/-- Decoding the bytes of tokens with counts in 1..=255 whose copies fit appends what they spell. -/
theorem refRleTokens_flatMap_packRle {cap : Nat} {tokens : List (Nat × Byte)}
    (hcount : ∀ r ∈ tokens, 1 ≤ r.1 ∧ r.1 ≤ 255) (pos : Nat) {out : List Byte}
    (hfit : out.length + (spell tokens).length ≤ cap) :
    refRleTokens cap (tokens.flatMap packRle) pos out = .ok (out ++ spell tokens) := by
  induction tokens generalizing pos out with
  | nil => simp [refRleTokens, spell]
  | cons r rest ih =>
    obtain ⟨hr, hrest⟩ := List.forall_mem_cons.mp hcount
    have hnat : (BitVec.ofNat 8 r.1).toNat = r.1 := by
      rw [BitVec.toNat_ofNat, Nat.mod_eq_of_lt (by omega)]
    have hne : BitVec.ofNat 8 r.1 ≠ 0 := fun h => by
      have hzero : r.1 = 0 := hnat.symm.trans (congrArg BitVec.toNat h)
      omega
    rw [spell_cons, List.length_append, List.length_replicate] at hfit
    rw [List.flatMap_cons, packRle, List.cons_append, List.cons_append, List.nil_append,
      refRleTokens, if_neg hne, hnat, if_neg (by omega),
      ih hrest _ (by rw [List.length_append, List.length_replicate]; omega), spell_cons,
      List.append_assoc]

theorem spell_flatMap_splitRun (runs : List (Nat × Byte)) :
    spell (runs.flatMap (splitRun 255)) = spell runs := by
  rw [spell, List.flatMap_assoc]
  exact List.flatMap_congr fun r _ => spell_splitRun 255 r

theorem refRleDecompress_refRleCompress {cfg cfg' : Config} (hv : cfg.Valid) {input : List Byte}
    (hfit : input.length ≤ cfg'.outCap) :
    refRleDecompress cfg' (refRleCompress cfg input) = .ok input := by
  have hspell : spell ((runsOf input).flatMap (splitRun 255)) = input := by
    rw [spell_flatMap_splitRun, spell_runsOf]
  have hcount : ∀ r ∈ (runsOf input).flatMap (splitRun 255), 1 ≤ r.1 ∧ r.1 ≤ 255 := by
    intro r hr
    obtain ⟨run, hrun, hr⟩ := List.mem_flatMap.mp hr
    obtain ⟨hlo, hhi, -⟩ := mem_splitRun (runsOf_pos input run hrun) hr
    exact ⟨hlo, hhi⟩
  have heven : (((runsOf input).flatMap (splitRun 255)).flatMap packRle).length % 2 ≠ 1 := by
    rw [packRle_flatMap_length]
    omega
  rw [refRleCompress_eq hv, refRleDecompress, if_neg heven,
    refRleTokens_flatMap_packRle hcount 0 (by simpa [hspell] using hfit), hspell, List.nil_append]

/-! ## The obligations -/

/-- Settles O50: the tokens of the runs' splits spell the input. -/
theorem rleListRoundTrip : Obligations.RleListRoundTrip := by
  unfold Obligations.RleListRoundTrip
  exact fun _ _ hv hfit => refRleDecompress_refRleCompress hv hfit

/-- Settles O42: by induction over the input together with its runs. -/
theorem runsPartitionInput : Obligations.RunsPartitionInput := by
  unfold Obligations.RunsPartitionInput
  exact fun input => ⟨spell_runsOf input, runsOf_pos input, runsOf_isChain input⟩

/-- Settles O43: the tokens spell the run, so their counts sum to its length. -/
theorem splitCountsSumToRun : Obligations.SplitCountsSumToRun := by
  unfold Obligations.SplitCountsSumToRun
  intro len v hlen
  refine ⟨?_, fun r hr => mem_splitRun hlen hr, ?_, fun r hr => ?_⟩
  · rw [← spell_length, spell_splitRun, List.length_replicate]
  · rw [splitRun_length]
    omega
  · rw [mem_dropLast_splitRun hr]

/-- Settles O48: two bytes per token, ceil(length/255) tokens per run, and at most one per byte. -/
theorem rleOutputAtMostDoubles : Obligations.RleOutputAtMostDoubles := by
  unfold Obligations.RleOutputAtMostDoubles
  intro cfg input hv
  have hceil : ∀ run ∈ runsOf input, (splitRun 255 run).length = (run.1 + 254) / 255 :=
    fun run hrun => by
      have := runsOf_pos input run hrun
      rw [splitRun_length]
      omega
  have hlen : (refRleCompress cfg input).length =
      2 * ((runsOf input).map fun r => (r.1 + 254) / 255).sum := by
    rw [refRleCompress_eq hv, packRle_flatMap_length, List.length_flatMap,
      List.map_congr_left hceil]
  have hsum : ((runsOf input).map fun r => (r.1 + 254) / 255).sum ≤ input.length :=
    calc ((runsOf input).map fun r => (r.1 + 254) / 255).sum
        ≤ ((runsOf input).map Prod.fst).sum := List.sum_le_sum fun run hrun => by
          have := runsOf_pos input run hrun
          omega
      _ = input.length := by rw [← spell_length, spell_runsOf]
  exact ⟨hlen, by omega⟩

end Sys2Proof.Machine
end

section
/-!
PROOFS. The RLE family (40_rle.md) on the machine: one RUN of the decoder (R107) and one iteration of
the encoder (R102), each as the closed form of the state it leaves, and the illegal forms' faults (R106,
R108). Both leave a state of one shape, `rleMoved`: bytes stored, the run registers set, the cursor
moved.
-/

namespace Sys2Proof.Machine

/-! ## What storing bytes leaves in HIST (R10) -/

section

variable {s : State} {bytes : List Byte}

/-- Storing bytes writes no HIST cell but those of the bytes' indices. -/
theorem appendBytes_hist_kept (h : s.m.toNat + bytes.length < 2 ^ 32) {j : Nat}
    (hj : ∀ i, i < bytes.length → j ≠ (s.m.toNat + i) % s.cfg.histDepth) :
    (appendBytes s bytes).histByte j = s.histByte j := by
  induction bytes generalizing s with
  | nil => rfl
  | cons v rest ih =>
    simp only [List.length_cons] at h hj
    have hm := appendByte_count (s := s) v (by omega)
    have hfirst : (appendByte s v).histByte j = s.histByte j := by
      rw [State.histByte, appendByte_hist]
      split
      · rfl
      · exact Memory.read_write_other _ _ _ (hj 0 (Nat.succ_pos _))
    rw [appendBytes_cons, ih (by omega) fun i hi => ?_, hfirst]
    rw [hm, Nat.add_assoc, Nat.add_comm 1 i]
    exact hj (i + 1) (Nat.succ_lt_succ hi)

/-- As many bytes as HIST has cells are all kept there, outside WIN_COMPRESS. -/
theorem appendBytes_appendsHist (hop : s.op ≠ opWinCompress)
    (h : s.m.toNat + bytes.length < 2 ^ 32) (hdepth : bytes.length ≤ s.cfg.histDepth) :
    AppendsHist s (appendBytes s bytes) bytes := by
  refine ⟨fun i b hb => ?_, fun j hj => appendBytes_hist_kept h hj⟩
  induction bytes generalizing s i with
  | nil => simp at hb
  | cons v rest ih =>
    simp only [List.length_cons] at h hdepth
    have hm := appendByte_count (s := s) v (by omega)
    rw [appendBytes_cons]
    cases i with
    | zero =>
      obtain rfl : v = b := by simpa using hb
      rw [appendBytes_hist_kept (by omega) fun i hi => ?_]
      · rw [State.histByte, appendByte_hist, if_neg hop]
        exact Memory.read_write_same _ _ _ _
      · have hne := sub_mod_ne (k := s.m.toNat + 1 + i) (d := i + 1) (depth := s.cfg.histDepth)
          (by omega) (by omega) (by omega)
        rw [hm]
        rwa [show s.m.toNat + 1 + i - (i + 1) = s.m.toNat + 0 by omega] at hne
    | succ i =>
      have := ih (s := appendByte s v) hop (by omega) (Nat.le_of_lt hdepth) i (by simpa using hb)
      rwa [hm, Nat.add_assoc, Nat.add_comm 1 i] at this

/-! ## Storing bytes and the registers do not meet -/

theorem appendBytes_advance (s : State) (k : Word) (bytes : List Byte) :
    appendBytes (advance s k) bytes = advance (appendBytes s bytes) k := by
  induction bytes generalizing s with
  | nil => rfl
  | cons v rest ih => exact ih (appendByte s v)

theorem appendBytes_loadRun (s : State) (v : Byte) (len : Word) (bytes : List Byte) :
    appendBytes (loadRun s v len) bytes = loadRun (appendBytes s bytes) v len := by
  induction bytes generalizing s with
  | nil => rfl
  | cons b rest ih => exact ih (appendByte s b)

theorem appendBytes_append (s : State) (xs ys : List Byte) :
    appendBytes s (xs ++ ys) = appendBytes (appendBytes s xs) ys := List.foldl_append

theorem advance_advance (s : State) (j k : Word) :
    advance (advance s j) k = advance s (j + k) := by
  rw [advance, advance, advance, BitVec.add_assoc]

/-! ## The state an RLE token or iteration leaves -/

/-- `bytes` are stored, run_val and run_len are set, and the cursor has moved by `k`. -/
def rleMoved (s : State) (bytes : List Byte) (v : Byte) (len k : Word) : State :=
  advance (loadRun (appendBytes s bytes) v len) k

theorem rleMoved_frame (s : State) (bytes : List Byte) (v : Byte) (len k : Word) :
    rleMoved s bytes v len k = { s with
      outBuf := (rleMoved s bytes v len k).outBuf
      hist := (rleMoved s bytes v len k).hist
      m := (rleMoved s bytes v len k).m
      p := s.p + k
      runVal := v
      runLen := len } := by
  rw [rleMoved, appendBytes_frame]
  rfl

theorem rleMoved_appendsOut (v : Byte) (len k : Word) (h : s.m.toNat + bytes.length < 2 ^ 32) :
    AppendsOut s (rleMoved s bytes v len k) bytes := by
  obtain ⟨hcount, hwritten, hkept⟩ := appendBytes_appendsOut h
  exact ⟨hcount, hwritten, hkept⟩

theorem rleMoved_appendsHist (v : Byte) (len k : Word) (hop : s.op ≠ opWinCompress)
    (h : s.m.toNat + bytes.length < 2 ^ 32) (hdepth : bytes.length ≤ s.cfg.histDepth) :
    AppendsHist s (rleMoved s bytes v len k) bytes := by
  obtain ⟨hwritten, hkept⟩ := appendBytes_appendsHist hop h hdepth
  exact ⟨hwritten, hkept⟩

end

/-! ## RUN (R107) -/

theorem toNat_le_histDepth_of_valid {c : Config} (h : c.Valid) (count : Byte) :
    count.toNat ≤ c.histDepth := by
  obtain ⟨-, -, -, -, hdepth, -⟩ := h
  have := count.isLt
  omega

theorem runToken_of_room {s : State} {count : Byte} (value : Byte) (hv : s.cfg.Valid)
    (hcount : count ≠ 0) (hroom : s.m.toNat + count.toNat ≤ s.cfg.outCap) :
    runToken s count value =
      .ok (rleMoved s (List.replicate count.toNat value) value 0 2) := by
  have hexpand := expandRun_of_room (s := loadRun s value (zext count)) hroom
    (outCap_lt_of_valid hv)
  have hleft : zext count - BitVec.ofNat 32 count.toNat = 0 := by
    rw [zext, BitVec.ofNat_toNat, BitVec.sub_self]
    rfl
  rw [runToken, if_neg hcount, hexpand, loadRun_runVal, appendBytes_loadRun, rleMoved, ← hleft]
  rfl

/-! ## One iteration of RLE_COMPRESS (R102) -/

/-- The bytes of the tokens of a run (R101, R73). -/
def runBytes (len : Nat) (v : Byte) : List Byte := (splitRun 255 (len, v)).flatMap packRle

theorem runBytes_length (len : Nat) (v : Byte) :
    (runBytes len v).length = 2 * ((len - 1) / 255 + 1) := by
  rw [runBytes, packRle_flatMap_length, splitRun_length]

theorem runBytes_of_long {len : Nat} (v : Byte) (h : 255 < len) :
    runBytes len v = [255#8, v] ++ runBytes (len - 255) v := by
  rw [runBytes, splitRun_of_long v h]
  rfl

theorem runBytes_of_short {len : Nat} (v : Byte) (h : len ≤ 255) :
    runBytes len v = [BitVec.ofNat 8 len, v] := by
  rw [runBytes, splitRun_of_short v h]
  rfl

/-- The count of a run's last token (R101). -/
def lastCount (len : Nat) : Nat := len - 255 * ((len - 1) / 255)

theorem lastCount_of_long {len : Nat} (h : 255 < len) : lastCount len = lastCount (len - 255) := by
  unfold lastCount
  omega

theorem lastCount_of_short {len : Nat} (h : len ≤ 255) : lastCount len = len := by
  unfold lastCount
  omega

/-- The state in which the packer goes on after a full token. -/
def afterFullToken (s : State) : State :=
  advance (takeFromRun (appendBytes s [255#8, s.runVal]) 255#32) 255#32

theorem rleMoved_afterFullToken (s : State) (bytes : List Byte) (v : Byte) (len k : Word) :
    rleMoved (afterFullToken s) bytes v len k =
      rleMoved s ([255#8, s.runVal] ++ bytes) v len (255#32 + k) := by
  rw [rleMoved, rleMoved, afterFullToken, appendBytes_advance, appendBytes_takeFromRun,
    appendBytes_append, ← advance_advance]
  rfl

section

variable {fuel : Nat} {s : State} (hv : s.cfg.Valid)
include hv

theorem emitRun_of_long (hlong : 255 < s.runLen.toNat) (hroom : s.m.toNat + 2 ≤ s.cfg.outCap) :
    emitRun (fuel + 1) s = emitRun fuel (afterFullToken s) := by
  have hmax := rleMax_of_valid hv
  rw [emitRun, if_pos (by omega), emitRleToken, emitAll_of_room hroom (outCap_lt_of_valid hv)]
  simp only [Except.bind, appendBytes_cons, appendBytes_nil, appendByte_cfg, hmax]
  rfl

theorem emitRun_of_short (hshort : s.runLen.toNat ≤ 255) (hroom : s.m.toNat + 2 ≤ s.cfg.outCap) :
    emitRun (fuel + 1) s = .ok (rleMoved s [s.runLen.setWidth 8, s.runVal] s.runVal s.runLen
      s.runLen) := by
  have hmax := rleMax_of_valid hv
  rw [emitRun, if_neg (by omega), emitRleToken, emitAll_of_room hroom (outCap_lt_of_valid hv)]
  rfl

/-- The packer of a run whose tokens fit, by the tokens left. -/
theorem emitRun_of_room (hpos : 1 ≤ s.runLen.toNat) (hfuel : s.runLen.toNat ≤ fuel)
    (hroom : s.m.toNat + (runBytes s.runLen.toNat s.runVal).length ≤ s.cfg.outCap) :
    emitRun fuel s = .ok (rleMoved s (runBytes s.runLen.toNat s.runVal) s.runVal
      (BitVec.ofNat 32 (lastCount s.runLen.toNat)) s.runLen) := by
  have hcap := outCap_lt_of_valid hv
  induction fuel generalizing s with
  | zero => omega
  | succ fuel ih =>
    rw [runBytes_length] at hroom
    by_cases hlong : 255 < s.runLen.toNat
    · have hleft : (afterFullToken s).runLen = s.runLen - 255#32 := rfl
      have hlen : (s.runLen - 255#32).toNat = s.runLen.toNat - 255 := by bv_omega
      have hm : (afterFullToken s).m.toNat = s.m.toNat + 2 :=
        appendBytes_count (bytes := [255#8, s.runVal]) (by simp; omega)
      have hrest := ih (s := afterFullToken s) hv (by rw [hleft]; omega) (by rw [hleft]; omega)
        (by rw [runBytes_length, hleft, hm]; change _ ≤ s.cfg.outCap; omega) hcap
      rw [rleMoved_afterFullToken, hleft, hlen] at hrest
      rw [emitRun_of_long hv hlong (by omega), hrest, runBytes_of_long _ hlong,
        lastCount_of_long hlong, BitVec.add_comm, BitVec.sub_add_cancel]
      rfl
    · rw [emitRun_of_short hv (by omega) (by omega), runBytes_of_short _ (by omega),
        lastCount_of_short (by omega), BitVec.ofNat_toNat, BitVec.ofNat_toNat, BitVec.setWidth_eq]

end

/-! ### The scan -/

/-- The scan stops at the first byte that is not `v`, or at n (R102). -/
theorem scanRun_spec {s : State} {v : Byte} {fuel len : Nat}
    (hfuel : s.n.toNat < s.p.toNat + len + fuel)
    (heq : ∀ i, i < len → s.inByte (s.p.toNat + i) = v) :
    (∀ i, i < scanRun s v fuel len → s.inByte (s.p.toNat + i) = v) ∧
      (s.p.toNat + scanRun s v fuel len < s.n.toNat →
        s.inByte (s.p.toNat + scanRun s v fuel len) ≠ v) := by
  induction fuel generalizing len with
  | zero => exact ⟨heq, fun h => by rw [scanRun] at h; omega⟩
  | succ fuel ih =>
    rw [scanRun]
    split
    · next hnext =>
      refine ih (by omega) fun i hi => ?_
      rcases Nat.lt_succ_iff_lt_or_eq.mp hi with hi | rfl
      · exact heq i hi
      · exact hnext.2
    · next hstop => exact ⟨heq, fun hlt hb => hstop ⟨hlt, hb⟩⟩

/-- The scan finds the run at p (R100). -/
theorem runAt_runLength {s : State} (h : s.p.toNat < s.n.toNat) : RunAt s (runLength s) := by
  obtain ⟨hpos, hfits⟩ := runLength_bounds h
  obtain ⟨hequal, hmaximal⟩ := scanRun_spec (s := s) (v := s.inByte s.p.toNat)
    (fuel := s.n.toNat - s.p.toNat) (len := 1) (by omega) fun i hi => by
      obtain rfl : i = 0 := by omega
      rfl
  exact ⟨hpos, hfits, hequal, hmaximal⟩

theorem RunAt.not_lt {s : State} {a b : Nat} (ha : RunAt s a) (hb : RunAt s b) : ¬ a < b :=
  fun hlt => ha.maximal (by have := hb.fits; omega) (hb.equal a hlt)

/-- There is one run at p. -/
theorem RunAt.runLength_eq {s : State} {len : Nat} (h : RunAt s len) : runLength s = len := by
  have hscan : RunAt s (runLength s) := runAt_runLength (by have := h.pos; have := h.fits; omega)
  exact Nat.le_antisymm (Nat.not_lt.mp (h.not_lt hscan)) (Nat.not_lt.mp (hscan.not_lt h))

theorem RunAt.cursor_lt {s : State} {len : Nat} (h : RunAt s len) : s.p.toNat < s.n.toNat := by
  have := h.pos
  have := h.fits
  omega

/-- A run's length fits run_len and p. -/
theorem RunAt.toNat_ofNat {s : State} {len : Nat} (h : RunAt s len) :
    (BitVec.ofNat 32 len).toNat = len := by
  have := h.fits
  have := s.n.isLt
  rw [BitVec.toNat_ofNat, Nat.mod_eq_of_lt (by omega)]

theorem rleEncodeRun_of_room {s : State} {len : Nat} (hv : s.cfg.Valid) (hrun : RunAt s len)
    (hroom : s.m.toNat + (runBytes len (s.inByte s.p.toNat)).length ≤ s.cfg.outCap) :
    rleEncodeRun s = .ok (rleMoved s (runBytes len (s.inByte s.p.toNat)) (s.inByte s.p.toNat)
      (BitVec.ofNat 32 (lastCount len)) (BitVec.ofNat 32 len)) := by
  have hlen := hrun.toNat_ofNat
  have hrest := emitRun_of_room (fuel := len)
    (s := loadRun s (s.inByte s.p.toNat) (BitVec.ofNat 32 len)) hv
    (by rw [loadRun_runLen, hlen]; exact hrun.pos) (by rw [loadRun_runLen, hlen])
    (by rw [loadRun_runLen, hlen]; exact hroom)
  rw [loadRun_runLen, loadRun_runVal, hlen, rleMoved, appendBytes_loadRun] at hrest
  rw [rleEncodeRun, hrun.runLength_eq, hrest]
  rfl

/-- RLE_COMPRESS, while it runs at the start of a run whose tokens fit. -/
theorem exec_rleCompress_of_room {s : State} {len : Nat} (hv : s.cfg.Valid) (hb : s.phase = .busy)
    (ho : s.op = opRleCompress) (hrun : RunAt s len)
    (hroom : s.m.toNat + (runBytes len (s.inByte s.p.toNat)).length ≤ s.cfg.outCap) :
    exec .rleCompress s = .next (rleMoved s (runBytes len (s.inByte s.p.toNat))
      (s.inByte s.p.toNat) (BitVec.ofNat 32 (lastCount len)) (BitVec.ofNat 32 len)) := by
  rw [exec_rleCompress, commandOutcome, if_pos hb, if_pos ho, if_pos hrun.cursor_lt,
    rleEncodeRun_of_room hv hrun hroom]
  rfl

/-! ## What a command does while an operation runs (R187) -/

theorem commandOutcome_other {s : State} {o : Op} (going : Host.Outcome State Fault Refusal)
    (hb : s.phase = .busy) (ho : s.op ≠ o) :
    commandOutcome s o going = .refused .cmdWriteWhileBusy := by
  rw [commandOutcome, if_pos hb, if_neg ho]

theorem commandOutcome_going {s : State} {o : Op} (going : Host.Outcome State Fault Refusal)
    (hb : s.phase = .busy) (ho : s.op = o) (hlt : s.p.toNat < s.n.toNat) :
    commandOutcome s o going = going := by
  rw [commandOutcome, if_pos hb, if_pos ho, if_pos hlt]

/-! ## The faults of a running RLE_DECOMPRESS -/

/-- A zero count at the cursor ends a running RLE_DECOMPRESS (R108). -/
theorem step_of_zeroCount {s : State} (hv : s.cfg.Valid) (hq : s.hostQueue = [])
    (hb : s.phase = .busy) (ho : s.op = opRleDecompress) (hn : s.n.toNat % 2 = 0)
    (hlt : s.p.toNat + 1 < s.n.toNat) (hzero : s.inByte s.p.toNat = 0) :
    step s = .next (raise s .rleZeroCount s.p) := by
  obtain ⟨hfetch, -⟩ := (fetchReadsTokenAtCursor s hv hq hb).1 ho hn hlt
  exact hfetch hzero

/-- An odd length ends a running RLE_DECOMPRESS (R106). -/
theorem step_of_oddLength {s : State} (hv : s.cfg.Valid) (hq : s.hostQueue = [])
    (hb : s.phase = .busy) (ho : s.op = opRleDecompress) (hn : s.n.toNat % 2 = 1) :
    step s = .next (raise s .rleOddLength (s.n - 1)) := by
  rw [step_of_busy hv hq hb, engineFetch_odd ho hn]
  rfl

/-! ## The obligations -/

/-- Settles O19: a RUN that fits leaves `rleMoved`, and HIST has room for its at most 255 bytes. -/
theorem runAppendsCopies : Obligations.RunAppendsCopies := by
  unfold Obligations.RunAppendsCopies
  intro s count value hv hcount hroom
  have hcap := outCap_lt_of_valid hv
  have hfits : s.m.toNat + (List.replicate count.toNat value).length < 2 ^ 32 := by
    rw [List.length_replicate]; omega
  refine ⟨_, ?_, rleMoved_appendsOut value 0 2 hfits,
    fun hop => rleMoved_appendsHist value 0 2 hop hfits ?_,
    fun hop => appendBytes_hist_of_winCompress hop _, rleMoved_frame s _ value 0 2⟩
  · rw [exec, execRun, runToken_of_room value hv hcount hroom]
    rfl
  · rw [List.length_replicate]
    exact toNat_le_histDepth_of_valid hv count

/-- Settles O30: the iteration leaves `rleMoved` with the bytes of the run's tokens. -/
theorem rleCompressEncodesRun : Obligations.RleCompressEncodesRun := by
  unfold Obligations.RleCompressEncodesRun
  intro s len hv hb ho hrun hroom
  have hcap := outCap_lt_of_valid hv
  have hlen := runBytes_length len (s.inByte s.p.toNat)
  have hfits : s.m.toNat + (runBytes len (s.inByte s.p.toNat)).length < 2 ^ 32 := by omega
  refine ⟨_, exec_rleCompress_of_room hv hb ho hrun (by omega), rleMoved_appendsOut _ _ _ hfits,
    fun j hj => ?_, rleMoved_frame s _ _ _ _⟩
  exact appendBytes_hist_kept hfits fun i hi => hj i (by omega)

/-- Settles O5: what the engine takes at the cursor, and that a CMD write's instruction is the
decoded one. -/
theorem stepRunsDecodedInstruction : Obligations.StepRunsDecodedInstruction := by
  unfold Obligations.StepRunsDecodedInstruction
  intro s hv
  refine ⟨fun hq hb => ⟨fun ho => ?_, fun ho => ?_, fun ho hn => ?_, fun ho hn i rest hd => ?_,
    fun ho hn hend => ?_, fun ho i rest hd => ?_, fun ho hend => ?_⟩, fun w rest hq hb => ?_⟩
  · rw [step_of_busy hv hq hb, engineFetch_rleCompress ho]
  · rw [step_of_busy hv hq hb, engineFetch_winCompress ho]
  · rw [step_of_busy hv hq hb, engineFetch_odd ho hn]
  · exact step_of_decodeRle hv hq hb ho hn hd
  · rw [step_of_busy hv hq hb, engineFetch_rle_end ho hn (by rw [streamAtCursor_nil hend]; rfl)]
  · exact step_of_decodeWindow hv hq hb ho hd
  · rw [step_of_busy hv hq hb, engineFetch_window_end ho (by rw [streamAtCursor_nil hend]; rfl)]
  · rw [step_of_access hv hq rfl, hostAction, hostWriteReg, if_pos rfl, if_neg hb]
    rfl

/-- Settles O17: the four commands share the tests of `commandOutcome`. -/
theorem commandsWhileRunning : Obligations.CommandsWhileRunning := by
  unfold Obligations.CommandsWhileRunning
  intro s hb
  refine ⟨commandOutcome_going _ hb, commandOutcome_going _ hb, fun i o hmem hne => ?_,
    fun o => if_pos hb⟩
  simp only [List.mem_cons, Prod.mk.injEq, List.not_mem_nil, or_false] at hmem
  rcases hmem with ⟨rfl, rfl⟩ | ⟨rfl, rfl⟩ | ⟨rfl, rfl⟩ | ⟨rfl, rfl⟩ <;>
    exact commandOutcome_other _ hb hne

/-- Settles O29: each illegal form is its raise. -/
theorem illegalFormsTakeTheirFault : Obligations.IllegalFormsTakeTheirFault := by
  unfold Obligations.IllegalFormsTakeTheirFault
  exact fun s => ⟨fun _ => ⟨_, rfl, raise_faulted s _ _⟩, fun _ => ⟨_, rfl, raise_faulted s _ _⟩,
    fun _ => ⟨_, rfl, raise_faulted s _ _⟩, ⟨_, rfl, raise_faulted s _ _⟩,
    fun _ => ⟨_, rfl, raise_faulted s _ _⟩⟩

/-- Settles O20: the zero count's raise, and the STATUS of its phase. -/
theorem zeroCountFaults : Obligations.ZeroCountFaults := by
  unfold Obligations.ZeroCountFaults
  intro s hv hq hb ho hn hlt hzero
  exact ⟨_, step_of_zeroCount hv hq hb ho hn hlt hzero, raise_faulted s _ _,
    show phaseWord (.doneFault .rleZeroCount) = 0x0000020E by decide⟩

/-- Settles O21: the odd length's raise, and the STATUS of its phase. -/
theorem oddLengthFaults : Obligations.OddLengthFaults := by
  unfold Obligations.OddLengthFaults
  intro s hv hq hb ho hn
  exact ⟨_, step_of_oddLength hv hq hb ho hn, raise_faulted s _ _,
    show phaseWord (.doneFault .rleOddLength) = 0x0000010E by decide⟩

end Sys2Proof.Machine
end

section
/-!
PROOFS. A running compression never faults: each iteration emits at most two bytes per byte consumed
(R104, R132), so m <= 2p, p <= n <= IN_CAP and 2 * IN_CAP <= OUT_CAP (R7) leave room for it.
-/

namespace Sys2Proof.Machine

/-- A run of `len` bytes makes at most 2 * len bytes of tokens (R104). -/
theorem runBytes_length_le {len : Nat} (v : Byte) (h : 1 ≤ len) :
    (runBytes len v).length ≤ 2 * len := by
  rw [runBytes_length]
  omega

/-! ## One iteration of WIN_COMPRESS that fits -/

section

variable {s : State} (hv : s.cfg.Valid)
include hv

theorem emitAll_consumed_of_room (bytes : List Byte) (k : Nat)
    (hroom : s.m.toNat + bytes.length ≤ s.cfg.outCap) :
    emitAll (consumeToHist (runFinder s) k) bytes =
      .ok (appendBytes (consumeToHist (runFinder s) k) bytes) :=
  emitAll_of_room (by rw [consumeToHist_m, consumeToHist_cfg]; exact hroom)
    (by rw [consumeToHist_cfg]; exact outCap_lt_of_valid hv)

theorem winEncodeToken_of_literal (hshort : (find s).2 < s.cfg.minMatch)
    (hroom : s.m.toNat + 2 ≤ s.cfg.outCap) :
    winEncodeToken s = .ok (advance
      (appendBytes (consumeToHist (runFinder s) 1) [0, s.inByte s.p.toNat]) 1) := by
  have hemit := emitAll_consumed_of_room hv [0, s.inByte s.p.toNat] 1 hroom
  rw [winEncodeToken, if_neg (Nat.not_le.mpr hshort)]
  exact congrArg (Except.bind · fun t => .ok (advance t 1)) hemit

theorem winEncodeToken_of_match (hlong : s.cfg.minMatch ≤ (find s).2)
    (hroom : s.m.toNat + 3 ≤ s.cfg.outCap) :
    winEncodeToken s = .ok (advance
      (appendBytes (consumeToHist (runFinder s) (find s).2)
        [1, BitVec.ofNat 8 (find s).1, BitVec.ofNat 8 (find s).2])
      (zext (BitVec.ofNat 8 (find s).2))) := by
  have hemit := emitAll_consumed_of_room hv
    [1, BitVec.ofNat 8 (find s).1, BitVec.ofNat 8 (find s).2] (find s).2 hroom
  rw [winEncodeToken, if_pos hlong, emitMatch, consumeToHist_bestOff, consumeToHist_bestLen,
    runFinder_bestOff, runFinder_bestLen, hemit]
  simp [Except.bind]

/-! ## The room the invariant leaves -/

/-- With at most two bytes emitted per byte consumed so far, two bytes fit for each byte left. -/
theorem room_of_size (hn : s.n.toNat ≤ s.cfg.inCap) (hp : s.p.toNat ≤ s.n.toNat)
    (hm : s.m.toNat ≤ 2 * s.p.toNat) :
    s.m.toNat + 2 * (s.n.toNat - s.p.toNat) ≤ s.cfg.outCap := by
  obtain ⟨-, -, -, -, -, -, -, hcap, -⟩ := hv
  omega

theorem rleEncodeRun_ok (hn : s.n.toNat ≤ s.cfg.inCap) (hm : s.m.toNat ≤ 2 * s.p.toNat)
    (hlt : s.p.toNat < s.n.toNat) : ∃ t, rleEncodeRun s = .ok t := by
  have hroom := room_of_size hv hn (Nat.le_of_lt hlt) hm
  have hrun := runAt_runLength hlt
  have hlen := runBytes_length_le (s.inByte s.p.toNat) hrun.pos
  have hfits := hrun.fits
  exact ⟨_, rleEncodeRun_of_room hv hrun (by omega)⟩

/-- A match of at least two bytes makes three (R132). -/
theorem winEncodeToken_ok (hmin : 2 ≤ s.cfg.minMatch) (hn : s.n.toNat ≤ s.cfg.inCap)
    (hm : s.m.toNat ≤ 2 * s.p.toNat) (hlt : s.p.toNat < s.n.toNat) :
    ∃ t, winEncodeToken s = .ok t := by
  have hroom := room_of_size hv hn (Nat.le_of_lt hlt) hm
  obtain ⟨-, hfits⟩ := find_bounds (Nat.le_of_lt hlt)
  rcases Nat.lt_or_ge (find s).2 s.cfg.minMatch with hshort | hlong
  · exact ⟨_, winEncodeToken_of_literal hv hshort (by omega)⟩
  · exact ⟨_, winEncodeToken_of_match hv hlong (by omega)⟩

end

/-- A compression's command whose iteration, if there is one left, meets no raise. -/
theorem command_noFault {s t : State} {o : Op} {r : Run} (hb : s.phase = .busy)
    (hr : r.GrownFrom s) (hok : s.p.toNat < s.n.toNat → ∃ u, r = .ok u)
    (h : commandOutcome s o (settle r) = .next t) (c : Cause) : t.phase ≠ .doneFault c := by
  rcases command_cases h with ⟨-, -, hlt, h⟩ | ⟨-, -, rfl⟩ | ⟨hnb, -⟩
  · obtain ⟨u, rfl⟩ := hok hlt
    cases h
    have hphase : t.phase = .busy := (show Grown s t from hr).phase.trans hb
    rw [hphase]
    exact Phase.noConfusion
  · exact Phase.noConfusion
  · exact absurd hb hnb

/-- The engine's move of a running compression. -/
theorem engine_noFault {s t : State} (hI : Inv s) (hb : s.phase = .busy)
    (ho : s.op = opRleCompress ∨ (s.op = opWinCompress ∧ 2 ≤ s.cfg.minMatch))
    (h : exec (engineFetch s) s = .next t) (c : Cause) : t.phase ≠ .doneFault c := by
  rcases ho with ho | ⟨ho, hmin⟩
  · rw [engineFetch_rleCompress ho, exec_rleCompress] at h
    exact command_noFault hb (rleEncodeRun_grownFrom hI.valid)
      (rleEncodeRun_ok hI.valid (hI.lengthFits hb) (hI.rleSize hb ho)) h c
  · rw [engineFetch_winCompress ho, exec_winCompress] at h
    exact command_noFault hb (winEncodeToken_grownFrom hI.valid ho)
      (winEncodeToken_ok hI.valid hmin (hI.lengthFits hb) (hI.winSize hb ho hmin)) h c

/-- Settles O39: a step from BUSY is the engine's, a reset, or moves the host's side alone. -/
theorem compressionNeverFaults : Obligations.CompressionNeverFaults := by
  unfold Obligations.CompressionNeverFaults
  intro s t hI hb ho hstep c
  cases step_stepsTo hstep with
  | engine queue reply _ h => exact engine_noFault (hI.withHost queue reply) hb ho h c
  | hostSide queue reply =>
    rw [show (withHost s queue reply).phase = .busy from hb]
    exact Phase.noConfusion
  | storeInLen _ _ hnb => exact absurd hb hnb
  | storeIn _ _ hnb => exact absurd hb hnb
  | storeOut _ _ hnb => exact absurd hb hnb
  | starts _ hnb => exact absurd hb hnb
  | rejects _ hnb => exact absurd hb hnb
  | resets => exact Phase.noConfusion

end Sys2Proof.Machine
end

section
/-!
PROOFS. The machine's RLE operations compute the list functions (R102, R105 to R108). The simulation
runs over the input bytes left: a state under way has the result so far in OUT[0..m], and its end adds
what the list function makes of IN[p..n].
-/

namespace Sys2Proof.Machine

/-! ## The bytes read and left -/

theorem inputBytes_length (s : State) : s.inputBytes.length = s.n.toNat := by
  rw [State.inputBytes, List.length_map, List.length_range]

theorem inputBytes_getElem {s : State} {i : Nat} (h : i < s.inputBytes.length) :
    s.inputBytes[i] = s.inByte i := by
  simp [State.inputBytes]

theorem SameInput.inputBytes {s t : State} (h : SameInput s t) : t.inputBytes = s.inputBytes := by
  rw [State.inputBytes, State.inputBytes, h.n, funext (inByte_congr h.inBuf)]

theorem drop_inputBytes_of_lt {s : State} {i : Nat} (h : i < s.n.toNat) :
    s.inputBytes.drop i = s.inByte i :: s.inputBytes.drop (i + 1) := by
  rw [List.drop_eq_getElem_cons (by rwa [inputBytes_length]), inputBytes_getElem]

theorem drop_inputBytes_of_ge {s : State} {i : Nat} (h : s.n.toNat ≤ i) :
    s.inputBytes.drop i = [] :=
  List.drop_eq_nil_of_le (by rwa [inputBytes_length])

/-- The input left at p begins with the run there. -/
theorem RunAt.drop_inputBytes {s : State} {len : Nat} (h : RunAt s len) :
    s.inputBytes.drop s.p.toNat =
      List.replicate len (s.inByte s.p.toNat) ++ s.inputBytes.drop (s.p.toNat + len) := by
  have hfits := h.fits
  have htake : (s.inputBytes.drop s.p.toNat).take len =
      List.replicate len (s.inByte s.p.toNat) := by
    refine List.eq_replicate_iff.mpr ⟨?_, fun b hb => ?_⟩
    · rw [List.length_take, List.length_drop, inputBytes_length]
      omega
    · obtain ⟨i, hi, rfl⟩ := List.getElem_of_mem hb
      rw [List.getElem_take, List.getElem_drop, inputBytes_getElem]
      rw [List.length_take] at hi
      exact h.equal i (by omega)
  rw [← htake, ← List.drop_drop, List.take_append_drop]

/-- The byte after the run, if there is one, has another value. -/
theorem RunAt.head?_drop {s : State} {len : Nat} (h : RunAt s len) :
    (s.inputBytes.drop (s.p.toNat + len)).head? ≠ some (s.inByte s.p.toNat) := by
  rcases Nat.lt_or_ge (s.p.toNat + len) s.n.toNat with hlt | hge
  · rw [drop_inputBytes_of_lt hlt, List.head?_cons]
    exact fun heq => h.maximal hlt (Option.some.inj heq)
  · rw [drop_inputBytes_of_ge hge]
    exact nofun

/-- Appending bytes appends them to OUT[0..m]. -/
theorem AppendsOut.outputBytes {s t : State} {bytes : List Byte} (h : AppendsOut s t bytes)
    (hfits : s.m.toNat + bytes.length < 2 ^ 32) :
    t.outputBytes t.m.toNat = s.outputBytes s.m.toNat ++ bytes := by
  have hm : t.m.toNat = s.m.toNat + bytes.length := by
    have hlen : (BitVec.ofNat 32 bytes.length).toNat = bytes.length := by
      rw [BitVec.toNat_ofNat, Nat.mod_eq_of_lt (by omega)]
    rw [h.count, BitVec.toNat_add_of_lt (by omega), hlen]
  rw [hm, State.outputBytes, State.outputBytes, List.range_add, List.map_append, List.map_map]
  congr 1
  · exact List.map_congr_left fun j hj => h.kept j (.inl (List.mem_range.mp hj))
  · refine List.ext_getElem (by simp) fun i hi hi' => ?_
    simp only [List.getElem_map, List.getElem_range, Function.comp_apply]
    exact h.written i _ (List.getElem?_eq_getElem hi')

theorem outputBytes_length (s : State) (k : Nat) : (s.outputBytes k).length = k := by
  rw [State.outputBytes, List.length_map, List.length_range]

/-! ## Reaching a result -/

/-- With the host silent the machine comes to a state that shows the result. -/
def Ends (s : State) (r : Result) : Prop := ∃ k t, Reaches k s t ∧ Shows t r

theorem Ends.of_step {s t : State} {r : Result} (hstep : step s = .next t) (h : Ends t r) :
    Ends s r := by
  obtain ⟨k, u, hrun, hshows⟩ := h
  exact ⟨k + 1, u, reaches_succ.mpr ⟨t, hstep, hrun⟩, hshows⟩

theorem Ends.of_shows {s : State} {r : Result} (h : Shows s r) : Ends s r :=
  ⟨0, s, reaches_zero.mpr rfl, h⟩

/-- A completed operation shows OUT[0..m] (R182). -/
theorem complete_shows {s : State} (hknown : OutKnown s) :
    Shows (complete s) (.ok (s.outputBytes s.m.toNat)) := by
  refine ⟨rfl, (outputBytes_length s _).symm, ?_⟩
  rw [outputBytes_length]
  refine List.map_congr_left fun j hj => ?_
  have hj := List.mem_range.mp hj
  obtain ⟨b, hb⟩ := Option.isSome_iff_exists.mp (hknown j hj)
  have hb' : (complete s).outBuf.find? j = some b := (Memory.find?_keepBelow _ _ hj).trans hb
  exact (Memory.read_of_find? .output hb').trans (Memory.read_of_find? .output hb).symm

/-- A step that raises shows the fault (R204). -/
theorem Ends.of_raise {s u : State} {c : Cause} {pos : Word}
    (h : step s = .next (raise u c pos)) : Ends s (.fault c pos.toNat) :=
  .of_step h (.of_shows ⟨rfl, by rw [raise_errPos, BitVec.ofNat_toNat, BitVec.setWidth_eq]⟩)

/-! ## Two runs that end, end in one state -/

theorem reaches_of_waiting {k : Nat} {s t : State} (hv : s.cfg.Valid) (hq : s.hostQueue = [])
    (hb : s.phase ≠ .busy) (h : Reaches k s t) : t = s := by
  induction k with
  | zero => exact (reaches_zero.mp h).symm
  | succ k ih =>
    obtain ⟨r, hstep, hrest⟩ := reaches_succ.mp h
    rw [step_of_waiting hv hq hb] at hstep
    cases hstep
    exact ih hrest

theorem reaches_unique {j k : Nat} {s t u : State} (hv : s.cfg.Valid) (hq : s.hostQueue = [])
    (ht : Reaches k s t) (htb : t.phase ≠ .busy) (hu : Reaches j s u) (hub : u.phase ≠ .busy) :
    t = u := by
  induction k generalizing j s with
  | zero =>
    obtain rfl := reaches_zero.mp ht
    exact (reaches_of_waiting hv hq htb hu).symm
  | succ k ih =>
    obtain ⟨r, hstep, hrest⟩ := reaches_succ.mp ht
    cases j with
    | zero =>
      obtain rfl := reaches_zero.mp hu
      exact reaches_of_waiting hv hq hub ht
    | succ j =>
      obtain ⟨r', hstep', hrest'⟩ := reaches_succ.mp hu
      rw [hstep] at hstep'
      cases hstep'
      obtain ⟨hcfg, hquiet⟩ := step_keepsQuiet hq hstep
      exact ih (by rw [hcfg]; exact hv) hquiet hrest hrest'

/-- A result the machine comes to is shown by any state in which its run has ended. -/
theorem Ends.shows {k : Nat} {s t : State} {r : Result} (h : Ends s r) (hv : s.cfg.Valid)
    (hq : s.hostQueue = []) (ht : Reaches k s t) (htb : t.phase ≠ .busy) : Shows t r := by
  obtain ⟨j, u, hu, hshows⟩ := h
  have hub : u.phase ≠ .busy := by
    cases r with
    | ok out => rw [hshows.1]; exact Phase.noConfusion
    | fault c pos => rw [hshows.1]; exact Phase.noConfusion
  rw [reaches_unique hv hq ht htb hu hub]
  exact hshows

/-! ## An operation under way -/

/-- The operation `o` runs with the host silent, and has come to p having written OUT[0..m]. -/
structure Underway (o : Op) (s : State) : Prop where
  valid : s.cfg.Valid
  busy : s.phase = .busy
  opIs : s.op = o
  quiet : s.hostQueue = []
  cursorFits : s.p.toNat ≤ s.n.toNat
  countFits : s.m.toNat ≤ s.cfg.outCap
  known : OutKnown s

theorem Started.underway {o : Op} {s : State} (h : Started o s) : Underway o s where
  valid := h.valid
  busy := h.busy
  opIs := h.opIs
  quiet := h.quiet
  cursorFits := by rw [h.cursor]; exact Nat.zero_le _
  countFits := by rw [h.count]; exact Nat.zero_le _
  known := fun j hj => by rw [h.count] at hj; exact absurd hj (Nat.not_lt_zero j)

theorem Underway.grown {o : Op} {s t : State} (h : Underway o s) (hg : Grown s t)
    (hp : t.p.toNat ≤ s.n.toNat) : Underway o t where
  valid := by rw [hg.same.cfg]; exact h.valid
  busy := hg.phase.trans h.busy
  opIs := hg.same.op.trans h.opIs
  quiet := hg.same.hostQueue.trans h.quiet
  cursorFits := by rw [hg.same.n]; exact hp
  countFits := by rw [hg.same.cfg]; exact hg.capped h.countFits
  known := hg.known h.known

theorem Underway.step_eq {o : Op} {s : State} (h : Underway o s) :
    step s = exec (engineFetch s) s := step_of_busy h.valid h.quiet h.busy

/-- At p = n the running command completes (R182). -/
theorem Underway.completes {o : Op} {s : State} {i : Instr}
    {going : Host.Outcome State Fault Refusal} (h : Underway o s) (hend : s.n.toNat ≤ s.p.toNat)
    (hfetch : engineFetch s = i) (hexec : exec i s = commandOutcome s o going) :
    Ends s (.ok (s.outputBytes s.m.toNat)) := by
  refine .of_step ?_ (.of_shows (complete_shows h.known))
  rw [h.step_eq, hfetch, hexec, commandOutcome, if_pos h.busy, if_pos h.opIs,
    if_neg (Nat.not_lt.mpr hend)]

/-! ## A token or an iteration on the way -/

theorem appendBytes_grown {s : State} {bytes : List Byte} (hv : s.cfg.Valid)
    (hroom : s.m.toNat + bytes.length ≤ s.cfg.outCap) : Grown s (appendBytes s bytes) := by
  have hcap := outCap_lt_of_valid hv
  induction bytes generalizing s with
  | nil => exact .refl s
  | cons v rest ih =>
    rw [List.length_cons] at hroom
    have hm := appendByte_count (s := s) v (by omega)
    exact (appendByte_grown v hv (by omega)).trans
      (ih (s := appendByte s v) hv (by rw [hm, appendByte_cfg]; omega) hcap)

/-- From `s` to `t` an operation has read up to `p` and appended `bytes`. -/
structure Progress (o : Op) (s t : State) (bytes : List Byte) (p : Nat) : Prop where
  underway : Underway o t
  same : SameInput s t
  cursor : t.p.toNat = p
  count : t.m.toNat = s.m.toNat + bytes.length
  output : t.outputBytes t.m.toNat = s.outputBytes s.m.toNat ++ bytes

/-- What `rleMoved` is for a running operation, if the bytes fit and the cursor stays within n. -/
theorem Underway.rleMoved_progress {o : Op} {s : State} {bytes : List Byte} {k : Word}
    (h : Underway o s) (v : Byte) (len : Word) (hroom : s.m.toNat + bytes.length ≤ s.cfg.outCap)
    (hp : s.p.toNat + k.toNat ≤ s.n.toNat) :
    Progress o s (rleMoved s bytes v len k) bytes (s.p.toNat + k.toNat) := by
  have hfits := Nat.lt_of_le_of_lt hroom (outCap_lt_of_valid h.valid)
  have hg : Grown s (rleMoved s bytes v len k) :=
    (appendBytes_grown h.valid hroom).trans ((loadRun_grown _ v len).trans (advance_grown _ k))
  have hcursor : (rleMoved s bytes v len k).p.toNat = s.p.toNat + k.toNat := by
    rw [rleMoved_frame]
    exact advance_toNat hp s.n.isLt
  exact {
    underway := h.grown hg (by rw [hcursor]; exact hp)
    same := hg.same
    cursor := hcursor
    count := appendBytes_count hfits
    output := (rleMoved_appendsOut v len k hfits).outputBytes hfits }

/-! ## RLE_COMPRESS -/

/-- With at most two bytes written per byte read, the next run's tokens fit. -/
theorem Underway.step_rleCompress {s : State} (h : Underway opRleCompress s)
    (hn : s.n.toNat ≤ s.cfg.inCap) (hm : s.m.toNat ≤ 2 * s.p.toNat) {len : Nat}
    (hrun : RunAt s len) :
    ∃ t, step s = .next t ∧
      Progress opRleCompress s t (runBytes len (s.inByte s.p.toNat)) (s.p.toNat + len) := by
  have hv := h.valid
  have hfits := hrun.fits
  have hbytes := runBytes_length_le (s.inByte s.p.toNat) hrun.pos
  have hleft := room_of_size hv hn h.cursorFits hm
  have hroom : s.m.toNat + (runBytes len (s.inByte s.p.toNat)).length ≤ s.cfg.outCap := by omega
  have hlen := hrun.toNat_ofNat
  have hprogress := h.rleMoved_progress (s.inByte s.p.toNat) (BitVec.ofNat 32 (lastCount len)) hroom
    (k := BitVec.ofNat 32 len) (by rw [hlen]; exact hfits)
  rw [hlen] at hprogress
  refine ⟨_, ?_, hprogress⟩
  rw [h.step_eq, engineFetch_rleCompress h.opIs]
  exact exec_rleCompress_of_room hv h.busy h.opIs hrun hroom

/-- RLE_COMPRESS under way appends the compression of the input left. -/
theorem rleCompress_ends {s : State} (h : Underway opRleCompress s) (hn : s.n.toNat ≤ s.cfg.inCap)
    (hm : s.m.toNat ≤ 2 * s.p.toNat) :
    Ends s (.ok (s.outputBytes s.m.toNat ++
      refRleCompress s.cfg (s.inputBytes.drop s.p.toNat))) := by
  induction hleft : s.n.toNat - s.p.toNat using Nat.strong_induction_on generalizing s with
  | _ left ih =>
    rcases Nat.lt_or_ge s.p.toNat s.n.toNat with hlt | hend
    · have hrun := runAt_runLength hlt
      have hpos := hrun.pos
      have hbytes := runBytes_length_le (s.inByte s.p.toNat) hpos
      obtain ⟨t, hstep, ⟨hunder, hsame, hcursor, hcount, hout⟩⟩ := h.step_rleCompress hn hm hrun
      have hrest := ih _ (by rw [hsame.n, hcursor]; omega) hunder
        (by rw [hsame.n, hsame.cfg]; exact hn) (by rw [hcount, hcursor]; omega) rfl
      rw [hout, hsame.cfg, hsame.inputBytes, hcursor, List.append_assoc, runBytes,
        ← refRleCompress_replicate_append h.valid hpos hrun.head?_drop,
        ← hrun.drop_inputBytes] at hrest
      exact .of_step hstep hrest
    · rw [drop_inputBytes_of_ge hend]
      have := h.completes hend (engineFetch_rleCompress h.opIs) (exec_rleCompress s)
      rwa [refRleCompress, runsOf, List.flatMap_nil, List.flatMap_nil, List.append_nil]

/-- Settles O44: from the start, where p = m = 0, to the compression of the whole input. -/
theorem rleCompressComputes : Obligations.RleCompressComputes := by
  unfold Obligations.RleCompressComputes
  intro s h
  have := rleCompress_ends h.underway h.fits (by rw [h.count]; exact Nat.zero_le _)
  rwa [h.count, h.cursor] at this

/-! ## RLE_DECOMPRESS -/

/-- The token at p, as R105 to R108 give it: a zero count raises, as does a RUN that does not fit; any
other RUN appends its copies. -/
theorem Underway.step_rleToken {s : State} (h : Underway opRleDecompress s)
    (hn : s.n.toNat % 2 = 0) (hlt : s.p.toNat + 1 < s.n.toNat) :
    (s.inByte s.p.toNat = 0 → step s = .next (raise s .rleZeroCount s.p)) ∧
      (s.inByte s.p.toNat ≠ 0 → s.cfg.outCap < s.m.toNat + (s.inByte s.p.toNat).toNat →
        ∃ u, step s = .next (raise u .outCapacity s.p)) ∧
      (s.inByte s.p.toNat ≠ 0 → s.m.toNat + (s.inByte s.p.toNat).toNat ≤ s.cfg.outCap →
        ∃ t, step s = .next t ∧ Progress opRleDecompress s t
          (List.replicate (s.inByte s.p.toNat).toNat (s.inByte (s.p.toNat + 1)))
          (s.p.toNat + 2)) := by
  have hv := h.valid
  obtain ⟨-, hfetch⟩ := (fetchReadsTokenAtCursor s hv h.quiet h.busy).1 h.opIs hn hlt
  refine ⟨step_of_zeroCount hv h.quiet h.busy h.opIs hn hlt, fun hcount hover => ?_,
    fun hcount hroom => ?_⟩
  · obtain ⟨u, hexec, -⟩ := exec_run_of_overflow (s.inByte (s.p.toNat + 1)) hv hcount
      h.countFits hover
    exact ⟨u, (hfetch hcount).trans hexec⟩
  · refine ⟨_, ?_, h.rleMoved_progress (s.inByte (s.p.toNat + 1)) 0 (k := 2)
      (by rwa [List.length_replicate]) hlt⟩
    rw [hfetch hcount, exec, execRun, runToken_of_room _ hv hcount hroom]
    rfl

/-- RLE_DECOMPRESS under way on a token boundary of an even stream decodes the input left, or takes
its fault. -/
theorem rleDecompress_ends {s : State} (h : Underway opRleDecompress s) (hn : s.n.toNat % 2 = 0)
    (hp : s.p.toNat % 2 = 0) :
    Ends s (refRleTokens s.cfg.outCap (s.inputBytes.drop s.p.toNat) s.p.toNat
      (s.outputBytes s.m.toNat)) := by
  induction hleft : s.n.toNat - s.p.toNat using Nat.strong_induction_on generalizing s with
  | _ left ih =>
    rcases Nat.lt_or_ge s.p.toNat s.n.toNat with hlt | hend
    · have hpair : s.p.toNat + 1 < s.n.toNat := by omega
      obtain ⟨hzeroCount, hoverflow, happend⟩ := h.step_rleToken hn hpair
      rw [drop_inputBytes_of_lt hlt, drop_inputBytes_of_lt hpair, refRleTokens, outputBytes_length]
      split
      · next hzero => exact .of_raise (hzeroCount hzero)
      · next hcount =>
        split
        · next hover =>
          obtain ⟨u, hstep⟩ := hoverflow hcount hover
          exact .of_raise hstep
        · next hroom =>
          obtain ⟨t, hstep, ⟨hunder, hsame, hcursor, -, hout⟩⟩ := happend hcount (by omega)
          have hrest := ih _ (by rw [hsame.n, hcursor]; omega) hunder (by rw [hsame.n]; exact hn)
            (by rw [hcursor]; omega) rfl
          rw [hout, hsame.cfg, hsame.inputBytes, hcursor] at hrest
          exact .of_step hstep hrest
    · rw [drop_inputBytes_of_ge hend, refRleTokens]
      exact h.completes hend (engineFetch_rle_end h.opIs hn (by rw [streamAtCursor_nil hend]; rfl))
        (exec_rleDecompress s)

/-- From the start: the odd length's fault, or the tokens of the whole input. -/
theorem rleDecompress_ends_of_started {s : State} (h : Started opRleDecompress s) :
    Ends s (refRleDecompress s.cfg s.inputBytes) := by
  rw [refRleDecompress, inputBytes_length]
  split
  · next hodd =>
    have hlast : (s.n - 1).toNat = s.n.toNat - 1 := by bv_omega
    have := Ends.of_raise (step_of_oddLength h.valid h.quiet h.busy h.opIs hodd)
    rwa [hlast] at this
  · next heven =>
    have := rleDecompress_ends h.underway (by omega) (by rw [h.cursor]; rfl)
    rwa [h.count, h.cursor] at this

/-- Settles O45: `rleDecompress_ends_of_started` is its statement. -/
theorem rleDecompressComputes : Obligations.RleDecompressComputes := by
  unfold Obligations.RleDecompressComputes
  exact fun _ h => rleDecompress_ends_of_started h

/-! ## The round trip -/

/-- Settles O52: the result of the compression is `refRleCompress`'s, whose decoding is the input. -/
theorem rleRoundTrip : Obligations.RleRoundTrip := by
  unfold Obligations.RleRoundTrip
  intro s u k t hs hrun hok hu hbytes hroom
  have hshows := Ends.shows (rleCompressComputes s hs) hs.valid hs.quiet hrun
    (by rw [hok]; exact Phase.noConfusion)
  obtain ⟨-, hlen, hout⟩ := hshows
  have hends := rleDecompress_ends_of_started hu
  rwa [hbytes, hlen, hout, refRleDecompress_refRleCompress hs.valid
    (by rw [inputBytes_length]; exact hroom)] at hends

end Sys2Proof.Machine
end

section
/-!
PROOFS. The match finder (41_window_encoder.md R121 to R124): the compare loop gives the longest equal
stretch, the search the nearest offset of the greatest length, and both are the functions of
Machine/Reference.lean on the input bytes.
-/

namespace Sys2Proof.Machine

/-! ## The compare loop (R122) -/

/-- `k` bytes at the cursor equal those `o` back, within MAX and the input (R122). -/
def MatchesAt (s : State) (o k : Nat) : Prop :=
  k ≤ s.cfg.maxMatch ∧ s.p.toNat + k ≤ s.n.toNat ∧
    ∀ i, i < k → s.inByte (s.p.toNat + i) = s.inByte (s.p.toNat - o + i)

theorem MatchesAt.zero {s : State} (o : Nat) (h : s.p.toNat ≤ s.n.toNat) : MatchesAt s o 0 :=
  ⟨Nat.zero_le _, h, fun _ hi => absurd hi (Nat.not_lt_zero _)⟩

theorem MatchesAt.succ {s : State} {o k : Nat} (h : MatchesAt s o k) (hmax : k < s.cfg.maxMatch)
    (hend : s.p.toNat + k < s.n.toNat)
    (heq : s.inByte (s.p.toNat + k) = s.inByte (s.p.toNat - o + k)) : MatchesAt s o (k + 1) := by
  obtain ⟨-, -, hbytes⟩ := h
  refine ⟨hmax, hend, fun i hi => ?_⟩
  rcases Nat.lt_succ_iff_lt_or_eq.mp hi with hi | rfl
  · exact hbytes i hi
  · exact heq

theorem matchLenFrom_matchesAt {s : State} {o k : Nat} (fuel : Nat) (h : MatchesAt s o k) :
    MatchesAt s o (matchLenFrom s o fuel k) := by
  induction fuel generalizing k with
  | zero => exact h
  | succ fuel ih =>
    rw [matchLenFrom]
    split
    · next hnext =>
      obtain ⟨hmax, hend, heq⟩ := hnext
      exact ih (h.succ hmax hend heq)
    · exact h

/-- The loop does not stop before a length that matches, if its fuel reaches that far. -/
theorem MatchesAt.le_matchLenFrom {s : State} {o fuel j k : Nat} (h : MatchesAt s o k)
    (hfuel : k ≤ j + fuel) : k ≤ matchLenFrom s o fuel j := by
  induction fuel generalizing j with
  | zero => exact hfuel
  | succ fuel ih =>
    rw [matchLenFrom]
    split
    · exact ih (by omega)
    · next hstop =>
      obtain ⟨hmax, hend, hbytes⟩ := h
      exact Nat.not_lt.mp fun hlt => hstop ⟨by omega, by omega, hbytes j hlt⟩

theorem matchLen_matchesAt {s : State} (o : Nat) (h : s.p.toNat ≤ s.n.toNat) :
    MatchesAt s o (matchLen s o) :=
  matchLenFrom_matchesAt _ (.zero o h)

theorem MatchesAt.le_matchLen {s : State} {o k : Nat} (h : MatchesAt s o k) : k ≤ matchLen s o :=
  h.le_matchLenFrom (by rw [Nat.zero_add]; exact h.1)

/-! ## The search (R123, R124) -/

/-- `best` is (offset, length) of the greatest length over the offsets 1..=range and of the nearest
offset that has it; (0, 0) if every length is 0. -/
structure NearestLongest (len : Nat → Nat) (range : Nat) (best : Nat × Nat) : Prop where
  upper : ∀ o, 1 ≤ o → o ≤ range → len o ≤ best.2
  none : best.2 = 0 → best.1 = 0
  attained : 0 < best.2 → 1 ≤ best.1 ∧ best.1 ≤ range ∧ len best.1 = best.2
  nearest : ∀ o, 1 ≤ o → o < best.1 → len o < best.2

theorem NearestLongest.empty (len : Nat → Nat) : NearestLongest len 0 (0, 0) where
  upper := fun o h1 h0 => absurd h1 (by omega)
  none := fun _ => rfl
  attained := fun h => absurd h (Nat.lt_irrefl 0)
  nearest := fun o _ h => absurd h (Nat.not_lt_zero o)

section

variable {len : Nat → Nat} {k : Nat} {best : Nat × Nat}

/-- An offset further away that is strictly longer replaces the best (R123). -/
theorem NearestLongest.replace (h : NearestLongest len k best) (hlt : best.2 < len (k + 1)) :
    NearestLongest len (k + 1) (k + 1, len (k + 1)) where
  upper := fun o h1 hk => by
    rcases Nat.le_succ_iff.mp hk with hk | rfl
    · exact Nat.le_of_lt (Nat.lt_of_le_of_lt (h.upper o h1 hk) hlt)
    · exact Nat.le_refl _
  none := fun h0 => absurd (Nat.lt_of_lt_of_eq hlt h0) (Nat.not_lt_zero _)
  attained := fun _ => ⟨Nat.succ_pos k, Nat.le_refl _, rfl⟩
  nearest := fun o h1 hk => Nat.lt_of_le_of_lt (h.upper o h1 (Nat.le_of_lt_succ hk)) hlt

/-- An offset further away that is no longer leaves the best as it is (R123). -/
theorem NearestLongest.keep (h : NearestLongest len k best) (hle : len (k + 1) ≤ best.2) :
    NearestLongest len (k + 1) best where
  upper := fun o h1 hk => by
    rcases Nat.le_succ_iff.mp hk with hk | rfl
    · exact h.upper o h1 hk
    · exact hle
  none := h.none
  attained := fun h0 => by
    obtain ⟨h1, hk, hlen⟩ := h.attained h0
    exact ⟨h1, Nat.le_succ_of_le hk, hlen⟩
  nearest := h.nearest

end

theorem findUpTo_nearestLongest (s : State) (k : Nat) :
    NearestLongest (matchLen s) k (findUpTo s k) := by
  induction k with
  | zero => exact .empty _
  | succ k ih =>
    rw [findUpTo]
    split
    · next hlt => exact ih.replace hlt
    · next hle => exact ih.keep (Nat.not_lt.mp hle)

theorem find_nearestLongest (s : State) : NearestLongest (matchLen s) (searchRange s) (find s) :=
  findUpTo_nearestLongest s (searchRange s)

theorem find_offset_le (s : State) : (find s).1 ≤ searchRange s := by
  have hfind := find_nearestLongest s
  rcases Nat.eq_zero_or_pos (find s).2 with h0 | hpos
  · rw [hfind.none h0]
    exact Nat.zero_le _
  · obtain ⟨-, hrange, -⟩ := hfind.attained hpos
    exact hrange

theorem maxOffset_of_valid {c : Config} (h : c.Valid) : c.maxOffset = c.windowSize := by
  obtain ⟨-, hmax, -⟩ := h
  exact hmax

/-! ## The finder is the reference's on the input bytes -/

theorem slice_inputBytes {s : State} {a k : Nat} (h : a + k ≤ s.n.toNat) :
    slice s.inputBytes a k = (List.range k).map fun i => s.inByte (a + i) := by
  refine List.ext_getElem ?_ fun i hi hi' => ?_
  · rw [slice, List.length_take, List.length_drop, inputBytes_length, List.length_map,
      List.length_range]
    omega
  · simp [slice, inputBytes_getElem]

/-- R122's two readings: equal bytes one by one, and equal slices. -/
theorem matchesAt_iff {s : State} {o k : Nat} :
    MatchesAt s o k ↔ k ≤ s.cfg.maxMatch ∧ s.p.toNat + k ≤ s.inputBytes.length ∧
      slice s.inputBytes s.p.toNat k = slice s.inputBytes (s.p.toNat - o) k := by
  rw [MatchesAt, inputBytes_length]
  refine and_congr_right fun _ => and_congr_right fun hend => ?_
  rw [slice_inputBytes hend, slice_inputBytes (by omega), List.map_inj_left]
  simp only [List.mem_range]

theorem refMatchLen_eq_matchLen {s : State} (o : Nat) (h : s.p.toNat ≤ s.n.toNat) :
    refMatchLen s.cfg s.inputBytes s.p.toNat o = matchLen s o := by
  obtain ⟨-, hzero⟩ := matchesAt_iff.mp (MatchesAt.zero o h)
  obtain ⟨hmax, hlen⟩ := matchesAt_iff.mp (matchLen_matchesAt o h)
  refine Nat.le_antisymm (matchesAt_iff.mpr ⟨Nat.findGreatest_le _, ?_⟩).le_matchLen
    (Nat.le_findGreatest hmax hlen)
  exact Nat.findGreatest_spec (P := fun k => s.p.toNat + k ≤ s.inputBytes.length ∧
    slice s.inputBytes s.p.toNat k = slice s.inputBytes (s.p.toNat - o) k) (Nat.zero_le _) hzero

theorem findUpTo_length_eq_foldl (s : State) (k : Nat) :
    (findUpTo s k).2 = ((List.range k).map fun i => matchLen s (i + 1)).foldl max 0 := by
  induction k with
  | zero => rfl
  | succ k ih =>
    rw [List.range_succ, List.map_append, List.foldl_append, ← ih, findUpTo]
    split
    · next hlt => exact (Nat.max_eq_right (Nat.le_of_lt hlt)).symm
    · next hle => exact (Nat.max_eq_left (Nat.not_lt.mp hle)).symm

theorem refOffsets_eq_range' (cfg : Config) (p : Nat) :
    refOffsets cfg p = List.range' 1 (min cfg.windowSize p) := by
  rw [refOffsets, List.range'_eq_map_range]
  exact List.map_congr_left fun i _ => Nat.add_comm i 1

section

variable {s : State} (h : s.p.toNat ≤ s.n.toNat)
include h

theorem refBestLen_eq_find : refBestLen s.cfg s.inputBytes s.p.toNat = (find s).2 := by
  rw [find, findUpTo_length_eq_foldl, refBestLen, refOffsets, List.map_map]
  exact congrArg (List.foldl max 0)
    (List.map_congr_left fun i _ => refMatchLen_eq_matchLen (i + 1) h)

theorem refBestOff_eq_find : refBestOff s.cfg s.inputBytes s.p.toNat = (find s).1 := by
  have hfind := find_nearestLongest s
  simp only [refBestOff, refBestLen_eq_find h, refMatchLen_eq_matchLen _ h, refOffsets_eq_range']
  split
  · next h0 => exact (hfind.none h0).symm
  · next h0 =>
    obtain ⟨h1, hrange, hlen⟩ := hfind.attained (Nat.pos_of_ne_zero h0)
    have hsome : (List.range' 1 (min s.cfg.windowSize s.p.toNat)).find?
        (fun o => matchLen s o = (find s).2) = some (find s).1 := by
      refine List.find?_range'_eq_some.mpr ⟨by simpa using hlen, ?_, fun o ho hlt => ?_⟩
      · rw [searchRange] at hrange
        exact List.mem_range'_1.mpr ⟨h1, by omega⟩
      · simpa using Nat.ne_of_lt (hfind.nearest o ho hlt)
    rw [hsome]
    rfl

end

/-! ## The obligations -/

/-- Settles O32: `MatchesAt` holds of the loop's result and of no greater length. -/
theorem matchLengthIsLargest : Obligations.MatchLengthIsLargest := by
  unfold Obligations.MatchLengthIsLargest
  intro s o _ _ hp
  obtain ⟨hmax, hend, hbytes⟩ := matchLen_matchesAt o hp
  exact ⟨hmax, hend, hbytes, fun k hk hkn heq => MatchesAt.le_matchLen ⟨hk, hkn, heq⟩⟩

/-- Settles O33: the search keeps `NearestLongest`, and MAX_OFFSET is WINDOW_SIZE (R7). -/
theorem finderPicksNearestLongest : Obligations.FinderPicksNearestLongest := by
  unfold Obligations.FinderPicksNearestLongest
  intro s
  have hfind := find_nearestLongest s
  refine ⟨hfind.upper, hfind.none, fun hpos => ?_, fun hv => ?_⟩
  · obtain ⟨h1, hrange, hlen⟩ := hfind.attained hpos
    exact ⟨h1, hrange, hlen, hfind.nearest⟩
  · rw [maxOffset_of_valid hv]
    exact Nat.le_trans (find_offset_le s) (Nat.min_le_left _ _)

end Sys2Proof.Machine
end

section
/-!
PROOFS. WIN_COMPRESS (41_window_encoder.md R125 to R132): one iteration as the closed form of the state
it leaves, the size of window_compress's tokens, and the simulation: a state under way has the tokens so
far in OUT[0..m], and its end adds those window_compress makes from p on.
-/

namespace Sys2Proof.Machine

/-! ## The history of the consumed input (R131) -/

theorem consumeToHist_kept {s : State} {k j : Nat}
    (hj : ∀ i, i < k → j ≠ (s.p.toNat + i) % s.cfg.histDepth) :
    (consumeToHist s k).histByte j = s.histByte j := by
  induction k with
  | zero => rfl
  | succ k ih =>
    rw [State.histByte, consumeToHist, histWrite_hist, consumeToHist_cfg,
      Memory.read_write_other _ _ _ (hj k (Nat.lt_succ_self k))]
    exact ih fun i hi => hj i (Nat.lt_succ_of_lt hi)

/-- As many bytes as HIST has cells are all kept there. -/
theorem consumeToHist_written {s : State} {k i : Nat} (hk : k ≤ s.cfg.histDepth) (hi : i < k) :
    (consumeToHist s k).histByte ((s.p.toNat + i) % s.cfg.histDepth) =
      s.inByte (s.p.toNat + i) := by
  induction k with
  | zero => exact absurd hi (Nat.not_lt_zero i)
  | succ k ih =>
    rw [State.histByte, consumeToHist, histWrite_hist, consumeToHist_cfg]
    rcases Nat.lt_succ_iff_lt_or_eq.mp hi with hlt | rfl
    · have hne := sub_mod_ne (k := s.p.toNat + k) (d := k - i) (depth := s.cfg.histDepth)
        (by omega) (by omega) (by omega)
      rw [show s.p.toNat + k - (k - i) = s.p.toNat + i by omega] at hne
      rw [Memory.read_write_other _ _ _ hne]
      exact ih (by omega) hlt
    · exact Memory.read_write_same _ _ _ _

/-! ## The state an iteration leaves -/

/-- The finder has run, the `k` bytes at p are consumed, and `bytes` are stored for them. -/
def winMoved (s : State) (bytes : List Byte) (k : Nat) : State :=
  advance (appendBytes (consumeToHist (runFinder s) k) bytes) (BitVec.ofNat 32 k)

theorem winMoved_frame (s : State) (bytes : List Byte) (k : Nat) :
    winMoved s bytes k = { s with
      outBuf := (winMoved s bytes k).outBuf
      hist := (winMoved s bytes k).hist
      m := (winMoved s bytes k).m
      p := s.p + BitVec.ofNat 32 k
      bestOff := BitVec.ofNat 8 (find s).1
      bestLen := BitVec.ofNat 8 (find s).2
      candOff := (winMoved s bytes k).candOff
      candLen := (winMoved s bytes k).candLen } := by
  rw [winMoved, appendBytes_frame, consumeToHist_frame]
  rfl

section

variable {s : State} {bytes : List Byte} {k : Nat}

theorem winMoved_appendsOut (h : s.m.toNat + bytes.length < 2 ^ 32) :
    AppendsOut s (winMoved s bytes k) bytes := by
  have hm : (consumeToHist (runFinder s) k).m = s.m := consumeToHist_m (runFinder s) k
  have hout : (consumeToHist (runFinder s) k).outBuf = s.outBuf := by rw [consumeToHist_frame]; rfl
  obtain ⟨hcount, hwritten, hkept⟩ := appendBytes_appendsOut (bytes := bytes)
    (s := consumeToHist (runFinder s) k) (by rw [hm]; exact h)
  rw [hm] at hcount hwritten hkept
  exact ⟨hcount, hwritten, fun j hj => (hkept j hj).trans (outByte_congr hout j)⟩

theorem winMoved_consumesHist (ho : s.op = opWinCompress) (hk : k ≤ s.cfg.histDepth) :
    ConsumesHist s (winMoved s bytes k) k := by
  have hop := (consumeToHist_sameInput (runFinder s) k).op.trans ho
  have hhist : ∀ j, (winMoved s bytes k).histByte j = (consumeToHist (runFinder s) k).histByte j :=
    histByte_congr (appendBytes_hist_of_winCompress hop bytes)
  exact ⟨fun i hi => (hhist _).trans (consumeToHist_written (s := runFinder s) hk hi),
    fun j hj => (hhist j).trans (consumeToHist_kept (s := runFinder s) hj)⟩

/-- What `winMoved` is for a running operation, if the bytes fit and the cursor stays within n. -/
theorem Underway.winMoved_progress (h : Underway opWinCompress s)
    (hroom : s.m.toNat + bytes.length ≤ s.cfg.outCap) (hp : s.p.toNat + k ≤ s.n.toNat) :
    Progress opWinCompress s (winMoved s bytes k) bytes (s.p.toNat + k) := by
  have hfits := Nat.lt_of_le_of_lt hroom (outCap_lt_of_valid h.valid)
  have hn := s.n.isLt
  have hconsumed : Grown s (consumeToHist (runFinder s) k) :=
    (runFinder_grown s).trans (consumeToHist_grown k h.valid h.opIs)
  have hm : (consumeToHist (runFinder s) k).m = s.m := consumeToHist_m (runFinder s) k
  have hg : Grown s (winMoved s bytes k) := hconsumed.trans ((appendBytes_grown
    (by rw [hconsumed.same.cfg]; exact h.valid)
    (by rw [hconsumed.same.cfg, hm]; exact hroom)).trans (advance_grown _ _))
  have hk : (BitVec.ofNat 32 k).toNat = k := by
    rw [BitVec.toNat_ofNat, Nat.mod_eq_of_lt (by omega)]
  have hcursor : (winMoved s bytes k).p.toNat = s.p.toNat + k := by
    rw [winMoved_frame]
    exact (advance_toNat (by rw [hk]; exact hp) hn).trans (by rw [hk])
  have hcount : (winMoved s bytes k).m.toNat = s.m.toNat + bytes.length :=
    (appendBytes_count (by rw [hm]; exact hfits)).trans (by rw [hm])
  exact {
    underway := h.grown hg (by rw [hcursor]; exact hp)
    same := hg.same
    cursor := hcursor
    count := hcount
    output := (winMoved_appendsOut hfits).outputBytes hfits }

end

/-! ## One iteration (R125 to R127) -/

/-- The bytes of the token at p and the number of bytes it consumes. -/
def winToken (s : State) : List Byte × Nat :=
  if s.cfg.minMatch ≤ (find s).2 then
    ([1, BitVec.ofNat 8 (find s).1, BitVec.ofNat 8 (find s).2], (find s).2)
  else ([0, s.inByte s.p.toNat], 1)

theorem winToken_of_literal {s : State} (h : (find s).2 < s.cfg.minMatch) :
    winToken s = ([0, s.inByte s.p.toNat], 1) := if_neg (Nat.not_le.mpr h)

theorem winToken_of_match {s : State} (h : s.cfg.minMatch ≤ (find s).2) :
    winToken s = ([1, BitVec.ofNat 8 (find s).1, BitVec.ofNat 8 (find s).2], (find s).2) :=
  if_pos h

theorem zext_ofNat {k : Nat} (h : k ≤ 255) : zext (BitVec.ofNat 8 k) = BitVec.ofNat 32 k :=
  BitVec.setWidth_ofNat_of_le_of_lt (by decide) (by omega)

theorem find_length_le_255 {s : State} (hv : s.cfg.Valid) (hp : s.p.toNat ≤ s.n.toNat) :
    (find s).2 ≤ 255 :=
  Nat.le_trans (find_bounds hp).1 (maxMatch_le_of_valid hv)

theorem winToken_consumed_le_histDepth {s : State} (hv : s.cfg.Valid)
    (hp : s.p.toNat ≤ s.n.toNat) : (winToken s).2 ≤ s.cfg.histDepth := by
  have hlen := find_length_le_255 hv hp
  obtain ⟨-, -, -, -, hdepth, -⟩ := hv
  rcases Nat.lt_or_ge (find s).2 s.cfg.minMatch with hshort | hlong
  · rw [winToken_of_literal hshort]
    exact Nat.le_trans (Nat.le_add_left 1 254) hdepth
  · rw [winToken_of_match hlong]
    exact Nat.le_trans hlen hdepth

/-- WIN_COMPRESS, while it runs at a token that fits. -/
theorem exec_winCompress_of_room {s : State} (hv : s.cfg.Valid) (hb : s.phase = .busy)
    (ho : s.op = opWinCompress) (hlt : s.p.toNat < s.n.toNat)
    (hroom : s.m.toNat + (winToken s).1.length ≤ s.cfg.outCap) :
    exec .winCompress s = .next (winMoved s (winToken s).1 (winToken s).2) := by
  rw [exec_winCompress, commandOutcome_going _ hb ho hlt]
  rcases Nat.lt_or_ge (find s).2 s.cfg.minMatch with hshort | hlong
  · rw [winToken_of_literal hshort] at hroom ⊢
    rw [winEncodeToken_of_literal hv hshort hroom]
    rfl
  · rw [winToken_of_match hlong] at hroom ⊢
    rw [winEncodeToken_of_match hv hlong hroom,
      zext_ofNat (find_length_le_255 hv (Nat.le_of_lt hlt))]
    rfl

/-- What an iteration leaves, whichever token it emits. -/
theorem exec_winCompress_effect {s : State} {bytes : List Byte} {k : Nat} (hv : s.cfg.Valid)
    (hb : s.phase = .busy) (ho : s.op = opWinCompress) (hlt : s.p.toNat < s.n.toNat)
    (htoken : winToken s = (bytes, k)) (hroom : s.m.toNat + bytes.length ≤ s.cfg.outCap) :
    exec .winCompress s = .next (winMoved s bytes k) ∧ AppendsOut s (winMoved s bytes k) bytes ∧
      ConsumesHist s (winMoved s bytes k) k := by
  have hexec := exec_winCompress_of_room hv hb ho hlt (by rw [htoken]; exact hroom)
  have hdepth := winToken_consumed_le_histDepth hv (Nat.le_of_lt hlt)
  rw [htoken] at hexec hdepth
  exact ⟨hexec, winMoved_appendsOut (Nat.lt_of_le_of_lt hroom (outCap_lt_of_valid hv)),
    winMoved_consumesHist ho hdepth⟩

/-- The iteration's token is the one window_compress has at p. -/
theorem refWinToken_eq_winToken {s : State} (hlt : s.p.toNat < s.n.toNat) :
    refWinToken s.cfg s.inputBytes s.p.toNat = winToken s := by
  have hbyte : s.inputBytes.getD s.p.toNat 0 = s.inByte s.p.toNat := by
    rw [List.getD_eq_getElem _ _ (by rw [inputBytes_length]; exact hlt), inputBytes_getElem]
  rw [refWinToken, refBestLen_eq_find (Nat.le_of_lt hlt), refBestOff_eq_find (Nat.le_of_lt hlt),
    hbyte, winToken]

/-! ## The size of the tokens (R132) -/

section

variable {cfg : Config} {input : List Byte} {p : Nat}

theorem refMatchLen_le (o : Nat) (hp : p ≤ input.length) :
    refMatchLen cfg input p o ≤ input.length - p := by
  have hspec := Nat.findGreatest_spec (n := cfg.maxMatch)
    (P := fun k => p + k ≤ input.length ∧ slice input p k = slice input (p - o) k)
    (Nat.zero_le _) ⟨hp, by simp [slice]⟩
  have hfits : p + refMatchLen cfg input p o ≤ input.length := hspec.1
  omega

theorem refBestLen_le (hp : p ≤ input.length) : refBestLen cfg input p ≤ input.length - p := by
  refine List.foldlRecOn (motive := (· ≤ input.length - p)) _ max (Nat.zero_le _)
    fun best hbest len hlen => Nat.max_le.mpr ⟨hbest, ?_⟩
  obtain ⟨o, -, rfl⟩ := List.mem_map.mp hlen
  exact refMatchLen_le o hp

/-- A token ends within the input and has at most two bytes per byte it consumes. -/
theorem refWinToken_size (hmin : 2 ≤ cfg.minMatch) (hp : p < input.length) :
    1 ≤ (refWinToken cfg input p).2 ∧ p + (refWinToken cfg input p).2 ≤ input.length ∧
      (refWinToken cfg input p).1.length ≤ 2 * (refWinToken cfg input p).2 := by
  have hbest := refBestLen_le (cfg := cfg) (Nat.le_of_lt hp)
  rw [refWinToken]
  split <;> simp only [List.length_cons, List.length_nil] <;> omega

theorem refWinTokens_length_le (hmin : 2 ≤ cfg.minMatch) (fuel : Nat) :
    (refWinTokens cfg input fuel p).length ≤ 2 * (input.length - p) := by
  induction fuel generalizing p with
  | zero => exact Nat.zero_le _
  | succ fuel ih =>
    rw [refWinTokens]
    split
    · next hp =>
      obtain ⟨-, hfits, hsize⟩ := refWinToken_size hmin hp
      have hrest := ih (p := p + (refWinToken cfg input p).2)
      rw [List.length_append]
      omega
    · exact Nat.zero_le _

end

/-! ## The simulation -/

/-- With at most two bytes written per byte read, the next token fits. -/
theorem Underway.step_winCompress {s : State} (h : Underway opWinCompress s)
    (hmin : 2 ≤ s.cfg.minMatch) (hn : s.n.toNat ≤ s.cfg.inCap) (hm : s.m.toNat ≤ 2 * s.p.toNat)
    (hlt : s.p.toNat < s.n.toNat) :
    ∃ t, step s = .next t ∧
      Progress opWinCompress s t (refWinToken s.cfg s.inputBytes s.p.toNat).1
        (s.p.toNat + (refWinToken s.cfg s.inputBytes s.p.toNat).2) := by
  obtain ⟨-, hfits, hsize⟩ := refWinToken_size (input := s.inputBytes) hmin
    (by rw [inputBytes_length]; exact hlt)
  rw [inputBytes_length] at hfits
  rw [refWinToken_eq_winToken hlt] at hfits hsize ⊢
  have hleft := room_of_size h.valid hn h.cursorFits hm
  have hroom : s.m.toNat + (winToken s).1.length ≤ s.cfg.outCap := by omega
  refine ⟨_, ?_, h.winMoved_progress hroom hfits⟩
  rw [h.step_eq, engineFetch_winCompress h.opIs]
  exact exec_winCompress_of_room h.valid h.busy h.opIs hlt hroom

/-- At p = n no token is left. -/
theorem Underway.winCompress_completes {s : State} (h : Underway opWinCompress s)
    (hend : s.n.toNat ≤ s.p.toNat) : Ends s (.ok (s.outputBytes s.m.toNat ++ [])) := by
  rw [List.append_nil]
  exact h.completes hend (engineFetch_winCompress h.opIs) (exec_winCompress s)

/-- WIN_COMPRESS under way appends the tokens from p on. -/
theorem winCompress_ends {fuel : Nat} {s : State} (h : Underway opWinCompress s)
    (hmin : 2 ≤ s.cfg.minMatch) (hn : s.n.toNat ≤ s.cfg.inCap) (hm : s.m.toNat ≤ 2 * s.p.toNat)
    (hfuel : s.n.toNat ≤ s.p.toNat + fuel) :
    Ends s (.ok (s.outputBytes s.m.toNat ++
      refWinTokens s.cfg s.inputBytes fuel s.p.toNat)) := by
  induction fuel generalizing s with
  | zero => exact h.winCompress_completes hfuel
  | succ fuel ih =>
    rw [refWinTokens, inputBytes_length]
    split
    · next hlt =>
      obtain ⟨hpos, -, hsize⟩ := refWinToken_size (input := s.inputBytes) hmin
        (by rw [inputBytes_length]; exact hlt)
      obtain ⟨t, hstep, ⟨hunder, hsame, hcursor, hcount, hout⟩⟩ :=
        h.step_winCompress hmin hn hm hlt
      have hrest := ih hunder (by rw [hsame.cfg]; exact hmin)
        (by rw [hsame.n, hsame.cfg]; exact hn) (by rw [hcount, hcursor]; omega)
        (by rw [hsame.n, hcursor]; omega)
      rw [hout, hsame.cfg, hsame.inputBytes, hcursor, List.append_assoc] at hrest
      exact .of_step hstep hrest
    · next hge => exact h.winCompress_completes (Nat.not_lt.mp hge)

/-! ## The obligations -/

/-- Settles O46: from the start, where p = m = 0, with one unit of fuel per byte of input. -/
theorem winCompressComputes : Obligations.WinCompressComputes := by
  unfold Obligations.WinCompressComputes
  intro s h hmin
  have := winCompress_ends (fuel := s.inputBytes.length) h.underway hmin h.fits
    (by rw [h.count]; exact Nat.zero_le _) (by rw [inputBytes_length]; exact Nat.le_add_left _ _)
  rwa [h.count, h.cursor] at this

/-- Settles O31: the iteration leaves `winMoved` with the bytes of its token. -/
theorem winCompressEncodesToken : Obligations.WinCompressEncodesToken := by
  unfold Obligations.WinCompressEncodesToken
  intro s hv hb ho hlt
  refine ⟨fun hshort hroom => ?_, fun hlong hroom => ?_⟩
  · obtain ⟨hexec, happends, hconsumes⟩ :=
      exec_winCompress_effect hv hb ho hlt (winToken_of_literal hshort) hroom
    exact ⟨_, hexec, happends, hconsumes, winMoved_frame s _ 1⟩
  · obtain ⟨hexec, happends, hconsumes⟩ :=
      exec_winCompress_effect hv hb ho hlt (winToken_of_match hlong) hroom
    exact ⟨_, hexec, happends, hconsumes, winMoved_frame s _ _⟩

/-- Settles O49: the bound on the tokens from p on, at p = 0. -/
theorem winOutputAtMostDoubles : Obligations.WinOutputAtMostDoubles := by
  unfold Obligations.WinOutputAtMostDoubles
  exact fun _ _ _ hmin => refWinTokens_length_le hmin _

end Sys2Proof.Machine
end

section
/-!
PROOFS. The Window family (42_window_decoder.md) on byte lists: one equation per form of the token
that window_decompress reads (R151 to R159), the copy behind a match as the bytes it appends (R156),
and that decoding inverts encoding (R162).
-/

namespace Sys2Proof.Machine

/-! ## The token at the head of a stream -/

section

variable (cap pos : Nat) (out : List Byte)

theorem refWinDecode_litTruncated :
    refWinDecode cap [0] pos out = .fault .winTruncated pos := rfl

theorem refWinDecode_matchTruncated_none :
    refWinDecode cap [1] pos out = .fault .winTruncated pos := rfl

theorem refWinDecode_matchTruncated_some (x : Byte) :
    refWinDecode cap [1, x] pos out = .fault .winTruncated pos := rfl

theorem refWinDecode_badTag {tag : Byte} (h0 : tag ≠ 0) (h1 : tag ≠ 1) (rest : List Byte) :
    refWinDecode cap (tag :: rest) pos out = .fault .winBadTag pos := by
  match rest with
  | [] => exact if_neg (not_or.mpr ⟨h0, h1⟩)
  | [_] => exact (if_neg h0).trans (if_neg h1)
  | _ :: _ :: _ => exact (if_neg h0).trans (if_neg h1)

theorem refWinDecode_lit (x : Byte) (rest : List Byte) :
    refWinDecode cap (0 :: x :: rest) pos out =
      if cap < out.length + 1 then .fault .outCapacity pos
      else refWinDecode cap rest (pos + 2) (out ++ [x]) := by
  cases rest with
  | nil => rfl
  | cons _ _ => rfl

theorem refWinDecode_match (x length : Byte) (rest : List Byte) :
    refWinDecode cap (1 :: x :: length :: rest) pos out =
      if x = 0 then .fault .winZeroOffset pos
      else if out.length < x.toNat then .fault .winBadOffset pos
      else if cap < out.length + length.toNat then .fault .outCapacity pos
      else refWinDecode cap rest (pos + 3) (refCopy x.toNat length.toNat out) := rfl

end

/-! ## The bytes of a copy (R156) -/

/-- The `k` bytes that a copy from distance `offset` appends to `out`. -/
def copied (offset : Nat) : Nat → List Byte → List Byte
  | 0, _ => []
  | k + 1, out =>
    out.getD (out.length - offset) 0 ::
      copied offset k (out ++ [out.getD (out.length - offset) 0])

theorem copied_length (offset k : Nat) (out : List Byte) : (copied offset k out).length = k := by
  induction k generalizing out with
  | zero => rfl
  | succ k ih => rw [copied, List.length_cons, ih]

theorem refCopy_eq_append_copied (offset k : Nat) (out : List Byte) :
    refCopy offset k out = out ++ copied offset k out := by
  induction k generalizing out with
  | zero => exact (List.append_nil out).symm
  | succ k ih => rw [refCopy, ih, copied, List.append_assoc, List.singleton_append]

/-- Every byte copied is the one `offset` before it, be that one copied itself (R234). -/
theorem copied_getElem? {offset k i : Nat} {out : List Byte} (h1 : 1 ≤ offset)
    (hle : offset ≤ out.length) (hi : i < k) :
    (copied offset k out)[i]? = (out ++ copied offset k out)[out.length - offset + i]? := by
  induction k generalizing out i with
  | zero => exact absurd hi (Nat.not_lt_zero i)
  | succ k ih =>
    rw [copied]
    cases i with
    | zero =>
      have hlt : out.length - offset < out.length := by omega
      rw [List.getElem?_cons_zero, Nat.add_zero, List.getElem?_append_left hlt,
        List.getElem?_eq_getElem hlt, List.getD_eq_getElem _ _ hlt]
    | succ i =>
      have hnext := ih (out := out ++ [out.getD (out.length - offset) 0]) (i := i)
        (by rw [List.length_append, List.length_singleton]; omega) (by omega)
      rw [List.length_append, List.length_singleton, List.append_assoc, List.singleton_append,
        show out.length + 1 - offset + i = out.length - offset + (i + 1) by omega] at hnext
      rw [List.getElem?_cons_succ, hnext]

/-! ## The finder's match on a list (R122, R124) -/

section

variable {cfg : Config} {input : List Byte} {p : Nat}

theorem mem_refOffsets {o : Nat} (h : o ∈ refOffsets cfg p) :
    1 ≤ o ∧ o ≤ cfg.windowSize ∧ o ≤ p := by
  obtain ⟨i, hi, rfl⟩ := List.mem_map.mp h
  have := List.mem_range.mp hi
  omega

/-- A best length other than 0 is the length of an offset searched. -/
theorem refBestLen_attained (h : refBestLen cfg input p ≠ 0) :
    ∃ o ∈ refOffsets cfg p, refMatchLen cfg input p o = refBestLen cfg input p := by
  have hcases : refBestLen cfg input p = 0 ∨
      ∃ o ∈ refOffsets cfg p, refMatchLen cfg input p o = refBestLen cfg input p :=
    List.foldlRecOn
      (motive := fun best => best = 0 ∨ ∃ o ∈ refOffsets cfg p, refMatchLen cfg input p o = best)
      _ max (.inl rfl) fun best hbest len hlen => by
        rcases max_choice best len with hmax | hmax <;> rw [hmax]
        · exact hbest
        · exact .inr (List.mem_map.mp hlen)
  exact hcases.resolve_left h

/-- The best offset is one searched, and has the best length. -/
theorem refBestOff_spec (h : refBestLen cfg input p ≠ 0) :
    refBestOff cfg input p ∈ refOffsets cfg p ∧
      refMatchLen cfg input p (refBestOff cfg input p) = refBestLen cfg input p := by
  obtain ⟨o, ho, hlen⟩ := refBestLen_attained h
  obtain ⟨best, hbest⟩ := Option.isSome_iff_exists.mp (List.find?_isSome
    (p := fun o => decide (refMatchLen cfg input p o = refBestLen cfg input p)).mpr
      ⟨o, ho, decide_eq_true hlen⟩)
  have hoff : refBestOff cfg input p = best := by
    rw [refBestOff, if_neg h, hbest, Option.getD_some]
  rw [hoff]
  exact ⟨List.mem_of_find?_eq_some hbest, by simpa using List.find?_some hbest⟩

/-- The length of an offset is that of a match within MAX and the input (R122). -/
theorem refMatchLen_spec (o : Nat) (hp : p ≤ input.length) :
    refMatchLen cfg input p o ≤ cfg.maxMatch ∧
      p + refMatchLen cfg input p o ≤ input.length ∧
      slice input p (refMatchLen cfg input p o) =
        slice input (p - o) (refMatchLen cfg input p o) := by
  have hspec := Nat.findGreatest_spec (n := cfg.maxMatch)
    (P := fun k => p + k ≤ input.length ∧ slice input p k = slice input (p - o) k)
    (Nat.zero_le _) ⟨hp, by simp [slice]⟩
  exact ⟨Nat.findGreatest_le _, hspec⟩

theorem getElem?_eq_of_slice_eq {a b k i : Nat} (h : slice input a k = slice input b k)
    (hi : i < k) :
    input[a + i]? = input[b + i]? := by
  have := congrArg (·[i]?) h
  simpa only [slice, List.getElem?_take_of_lt hi, List.getElem?_drop] using this

/-- Copying a match onto the input before it gives the input up to its end. -/
theorem refCopy_take {o k : Nat} (h1 : 1 ≤ o) (ho : o ≤ p) (hk : p + k ≤ input.length)
    (heq : ∀ i, i < k → input[p + i]? = input[p - o + i]?) :
    refCopy o k (input.take p) = input.take (p + k) := by
  induction k generalizing p with
  | zero => rfl
  | succ k ih =>
    have hlen : (input.take p).length = p := by rw [List.length_take]; omega
    have hbyte : (input.take p).getD (p - o) 0 = input[p] := by
      have h0 := heq 0 (Nat.succ_pos k)
      rw [Nat.add_zero, Nat.add_zero, List.getElem?_eq_getElem (by omega)] at h0
      rw [List.getD_eq_getElem?_getD, List.getElem?_take_of_lt (by omega), ← h0, Option.getD_some]
    rw [refCopy, hlen, hbyte, List.take_append_getElem, ih (by omega) (by omega) fun i hi => ?_,
      Nat.add_assoc, Nat.add_comm 1 k]
    have := heq (i + 1) (Nat.succ_lt_succ hi)
    rwa [← Nat.add_assoc, ← Nat.add_assoc, Nat.add_right_comm p, Nat.add_right_comm (p - o),
      show p - o + 1 = p + 1 - o by omega] at this

/-! ## Decoding what the encoder emits (R162) -/

theorem toNat_ofNat_of_le_255 {k : Nat} (h : k ≤ 255) : (BitVec.ofNat 8 k).toNat = k := by
  rw [BitVec.toNat_ofNat, Nat.mod_eq_of_lt (Nat.lt_succ_of_le h)]

/-- After the input before p, a match that the input has at p decodes to the bytes matched. -/
theorem refWinDecode_match_take {cap o k : Nat} (h1 : 1 ≤ o) (ho : o ≤ p) (ho255 : o ≤ 255)
    (hk255 : k ≤ 255) (hk : p + k ≤ input.length) (hslice : slice input p k = slice input (p - o) k)
    (hfit : input.length ≤ cap) (pos : Nat) (rest : List Byte) :
    refWinDecode cap (1 :: BitVec.ofNat 8 o :: BitVec.ofNat 8 k :: rest) pos (input.take p) =
      refWinDecode cap rest (pos + 3) (input.take (p + k)) := by
  have hoff := toNat_ofNat_of_le_255 ho255
  have hlen : (input.take p).length = p := by rw [List.length_take]; omega
  have hne : BitVec.ofNat 8 o ≠ 0 := fun h => by
    have hzero : o = 0 := hoff.symm.trans (congrArg BitVec.toNat h)
    omega
  rw [refWinDecode_match, if_neg hne, hoff, toNat_ofNat_of_le_255 hk255, hlen, if_neg (by omega),
    if_neg (by omega), refCopy_take h1 ho hk fun i hi => getElem?_eq_of_slice_eq hslice hi]

/-- After the input before p, the literal of its byte at p decodes to that byte. -/
theorem refWinDecode_lit_take {cap : Nat} (hp : p < input.length) (hfit : input.length ≤ cap)
    (pos : Nat) (rest : List Byte) :
    refWinDecode cap (0 :: input.getD p 0 :: rest) pos (input.take p) =
      refWinDecode cap rest (pos + 2) (input.take (p + 1)) := by
  have hlen : (input.take p).length = p := by rw [List.length_take]; omega
  rw [refWinDecode_lit, hlen, if_neg (by omega), List.getD_eq_getElem _ _ hp,
    List.take_append_getElem]

/-- After the input before p, the token at p decodes to the input it consumes. -/
theorem refWinDecode_refWinToken {cap : Nat} (hv : cfg.Valid) (hfit : input.length ≤ cap)
    (hp : p < input.length) (pos : Nat) (rest : List Byte) :
    ∃ pos', refWinDecode cap ((refWinToken cfg input p).1 ++ rest) pos (input.take p) =
      refWinDecode cap rest pos' (input.take (p + (refWinToken cfg input p).2)) := by
  obtain ⟨⟨-, hwindow⟩, -, ⟨hmin, -, hmax⟩, -⟩ := hv
  rw [refWinToken]
  split
  · next hmatch =>
    obtain ⟨hmem, hattained⟩ := refBestOff_spec (show refBestLen cfg input p ≠ 0 by omega)
    obtain ⟨h1, hsize, ho⟩ := mem_refOffsets hmem
    obtain ⟨hle, hend, hslice⟩ := refMatchLen_spec (cfg := cfg) (refBestOff cfg input p)
      (Nat.le_of_lt hp)
    rw [hattained] at hle hend hslice
    exact ⟨pos + 3, refWinDecode_match_take h1 ho (Nat.le_trans hsize hwindow)
      (Nat.le_trans hle hmax) hend hslice hfit pos rest⟩
  · exact ⟨pos + 2, refWinDecode_lit_take hp hfit pos rest⟩

theorem refWinToken_pos (hv : cfg.Valid) : 1 ≤ (refWinToken cfg input p).2 := by
  obtain ⟨-, -, ⟨hmin, -⟩, -⟩ := hv
  rw [refWinToken]
  split
  · next hmatch => exact Nat.le_trans hmin hmatch
  · exact Nat.le_refl 1

/-- After the input before p, the tokens from p on decode to the whole input. -/
theorem refWinDecode_refWinTokens {cap fuel : Nat} (hv : cfg.Valid) (hfit : input.length ≤ cap)
    (hfuel : input.length ≤ p + fuel) (pos : Nat) :
    refWinDecode cap (refWinTokens cfg input fuel p) pos (input.take p) = .ok input := by
  induction fuel generalizing p pos with
  | zero => rw [refWinTokens, refWinDecode, List.take_of_length_le (by exact hfuel)]
  | succ fuel ih =>
    rw [refWinTokens]
    split
    · next hp =>
      have hpos := refWinToken_pos (input := input) (p := p) hv
      obtain ⟨pos', hdecode⟩ := refWinDecode_refWinToken hv hfit hp pos
        (refWinTokens cfg input fuel (p + (refWinToken cfg input p).2))
      rw [hdecode, ih (by omega)]
    · next hend => rw [refWinDecode, List.take_of_length_le (Nat.not_lt.mp hend)]

end

theorem refWinDecompress_refWinCompress {cfg cfg' : Config} (hv : cfg.Valid) {input : List Byte}
    (hfit : input.length ≤ cfg'.outCap) :
    refWinDecompress cfg' (refWinCompress cfg input) = .ok input :=
  refWinDecode_refWinTokens (p := 0) hv hfit (Nat.le_add_left _ _) 0

/-- Settles O51: the tokens from 0 on decode to the whole input, onto an empty output. -/
theorem winListRoundTrip : Obligations.WinListRoundTrip := by
  unfold Obligations.WinListRoundTrip
  exact fun _ _ hv hfit => refWinDecompress_refWinCompress hv hfit

end Sys2Proof.Machine
end

section
/-!
PROOFS. The Window decoder's tokens (42_window_decoder.md R151 to R159) on the machine: LIT and
MATCH each as the closed form of the state it leaves, and what the engine of a running
WIN_DECOMPRESS does at each form of the token at the cursor.
-/

namespace Sys2Proof.Machine

/-! ## LIT (R152) -/

/-- The byte is stored and the cursor has moved over the token. -/
def litMoved (s : State) (value : Byte) : State := advance (appendBytes s [value]) 2

section

variable {s : State} {value : Byte}

theorem litMoved_appendsOut (h : s.m.toNat + 1 < 2 ^ 32) :
    AppendsOut s (litMoved s value) [value] := by
  obtain ⟨hcount, hwritten, hkept⟩ := appendBytes_appendsOut (bytes := [value]) h
  exact ⟨hcount, hwritten, hkept⟩

theorem litMoved_appendsHist (hop : s.op ≠ opWinCompress) (h : s.m.toNat + 1 < 2 ^ 32)
    (hdepth : 0 < s.cfg.histDepth) : AppendsHist s (litMoved s value) [value] := by
  obtain ⟨hwritten, hkept⟩ := appendBytes_appendsHist (bytes := [value]) hop h hdepth
  exact ⟨hwritten, hkept⟩

theorem exec_lit_of_room (h : s.m.toNat < s.cfg.outCap) :
    exec (.lit value) s = .next (litMoved s value) := by
  rw [exec, execLit, litToken, emit_of_room value h]
  rfl

theorem exec_lit_of_full (h : s.cfg.outCap ≤ s.m.toNat) :
    exec (.lit value) s = .next (raise s .outCapacity s.p) := by
  rw [exec, execLit, litToken, emit_of_full value h]
  rfl

end

/-! ## MATCH (R153 to R156) -/

theorem outputBytes_getElem? {s : State} {k i : Nat} (h : i < k) :
    (s.outputBytes k)[i]? = some (s.outByte i) := by
  simp [State.outputBytes, h]

theorem appendBytes_unpackMatch (s : State) (offset length : Byte) (bytes : List Byte) :
    appendBytes (unpackMatch s offset length) bytes =
      unpackMatch (appendBytes s bytes) offset length := by
  induction bytes generalizing s with
  | nil => rfl
  | cons v rest ih => exact ih (appendByte s v)

/-- The byte `offset` behind the end of OUT[0..m]. -/
theorem outputBytes_getD {s : State} {offset j : Nat} (h1 : 1 ≤ offset)
    (hj : j + offset = s.m.toNat) :
    (s.outputBytes s.m.toNat).getD ((s.outputBytes s.m.toNat).length - offset) 0 = s.outByte j := by
  rw [outputBytes_length, show s.m.toNat - offset = j by omega, List.getD_eq_getElem?_getD,
    outputBytes_getElem? (by omega), Option.getD_some]

theorem appendByte_outputBytes {s : State} (v : Byte) (h : s.m.toNat + 1 < 2 ^ 32) :
    (appendByte s v).outputBytes (appendByte s v).m.toNat = s.outputBytes s.m.toNat ++ [v] :=
  (appendBytes_appendsOut (bytes := [v]) h).outputBytes h

/-- The copy loop reads at a fixed distance behind m, so it stores what `copied` makes of OUT[0..m].
-/
theorem copyLoop_eq_copied {s : State} {offset base k i : Nat} (h1 : 1 ≤ offset)
    (hread : base + i + offset = s.m.toNat) (hroom : s.m.toNat + k ≤ s.cfg.outCap)
    (hcap : s.cfg.outCap < 2 ^ 32) :
    copyLoop base k i s =
      .ok { appendBytes s (copied offset k (s.outputBytes s.m.toNat)) with
        copyRem := s.copyRem - BitVec.ofNat 8 k } := by
  induction k generalizing s i with
  | zero =>
    have hrem : s.copyRem - BitVec.ofNat 8 0 = s.copyRem := BitVec.sub_zero _
    rw [copyLoop, copied, appendBytes_nil, hrem]
  | succ k ih =>
    have hm := appendByte_count (s := s) (s.outByte (base + i)) (by omega)
    have hrest := ih (s := countCopied (appendByte s (s.outByte (base + i)))) (i := i + 1)
      (by rw [countCopied_m, hm]; omega)
      (by rw [countCopied_m, countCopied_cfg, hm, appendByte_cfg]; omega) hcap
    have hout : (countCopied (appendByte s (s.outByte (base + i)))).outputBytes
        (countCopied (appendByte s (s.outByte (base + i)))).m.toNat =
          s.outputBytes s.m.toNat ++ [s.outByte (base + i)] :=
      appendByte_outputBytes _ (by omega)
    have hrem : s.copyRem - 1 - BitVec.ofNat 8 k = s.copyRem - BitVec.ofNat 8 (k + 1) := by
      rw [BitVec.ofNat_add]; bv_omega
    rw [hout, countCopied_copyRem, appendByte_copyRem, hrem, appendBytes_countCopied] at hrest
    rw [copyLoop, emit_of_room _ (by omega), copied, outputBytes_getD h1 hread, appendBytes_cons]
    exact hrest

/-- The bytes a MATCH copies. -/
def matchBytes (s : State) (offset length : Byte) : List Byte :=
  copied offset.toNat length.toNat (s.outputBytes s.m.toNat)

theorem matchBytes_length (s : State) (offset length : Byte) :
    (matchBytes s offset length).length = length.toNat := copied_length _ _ _

/-- The bytes are copied, copy_off and copy_rem are as the loop leaves them, and the cursor has
moved over the token. -/
def matchMoved (s : State) (offset length : Byte) : State :=
  advance (unpackMatch (appendBytes s (matchBytes s offset length)) offset 0) 3

theorem matchMoved_frame (s : State) (offset length : Byte) :
    matchMoved s offset length = { s with
      outBuf := (matchMoved s offset length).outBuf
      hist := (matchMoved s offset length).hist
      m := (matchMoved s offset length).m
      p := s.p + 3
      copyOff := offset
      copyRem := 0 } := by
  rw [matchMoved, appendBytes_frame]
  rfl

section

variable {s : State} {offset length : Byte}

theorem exec_matchTok_of_zero :
    exec (.matchTok 0 length) s =
      .next (raise (unpackMatch s 0 length) .winZeroOffset s.p) := rfl

theorem exec_matchTok_of_far (hzero : offset ≠ 0) (hfar : s.m.toNat < offset.toNat) :
    exec (.matchTok offset length) s =
      .next (raise (unpackMatch s offset length) .winBadOffset s.p) := by
  rw [exec, execMatchTok, matchToken, if_neg hzero, if_pos hfar]
  rfl

theorem one_le_toNat_of_ne_zero (h : offset ≠ 0) : 1 ≤ offset.toNat :=
  Nat.pos_of_ne_zero fun h0 => h (BitVec.eq_of_toNat_eq h0)

/-- The bytes of a match that fits stay within the 32 bits of m. -/
theorem matchBytes_fit (hv : s.cfg.Valid) (hroom : s.m.toNat + length.toNat ≤ s.cfg.outCap) :
    s.m.toNat + (matchBytes s offset length).length < 2 ^ 32 := by
  rw [matchBytes_length]
  exact Nat.lt_of_le_of_lt hroom (outCap_lt_of_valid hv)

theorem exec_matchTok_of_room (hv : s.cfg.Valid) (hzero : offset ≠ 0)
    (hnear : offset.toNat ≤ s.m.toNat) (hroom : s.m.toNat + length.toNat ≤ s.cfg.outCap) :
    exec (.matchTok offset length) s = .next (matchMoved s offset length) := by
  have hloop := copyLoop_eq_copied (s := unpackMatch s offset length)
    (base := s.m.toNat - offset.toNat) (i := 0) (one_le_toNat_of_ne_zero hzero)
    (Nat.sub_add_cancel hnear) hroom (outCap_lt_of_valid hv)
  have hrem : length - BitVec.ofNat 8 length.toNat = 0 := by
    rw [BitVec.ofNat_toNat, BitVec.setWidth_eq, BitVec.sub_self]
    rfl
  rw [appendBytes_unpackMatch, unpackMatch_copyRem, hrem] at hloop
  rw [exec, execMatchTok, matchToken, if_neg hzero, if_neg (Nat.not_lt.mpr hnear), hloop]
  rfl

theorem matchMoved_appendsOut (h : s.m.toNat + (matchBytes s offset length).length < 2 ^ 32) :
    AppendsOut s (matchMoved s offset length) (matchBytes s offset length) := by
  obtain ⟨hcount, hwritten, hkept⟩ := appendBytes_appendsOut h
  exact ⟨hcount, hwritten, hkept⟩

theorem matchMoved_appendsHist (hv : s.cfg.Valid) (hop : s.op ≠ opWinCompress)
    (h : s.m.toNat + (matchBytes s offset length).length < 2 ^ 32) :
    AppendsHist s (matchMoved s offset length) (matchBytes s offset length) := by
  obtain ⟨hwritten, hkept⟩ := appendBytes_appendsHist hop h
    (by rw [matchBytes_length]; exact toNat_le_histDepth_of_valid hv length)
  exact ⟨hwritten, hkept⟩

theorem AppendsOut.map_outByte {t : State} {bytes : List Byte} (h : AppendsOut s t bytes) :
    ((List.range bytes.length).map fun i => t.outByte (s.m.toNat + i)) = bytes :=
  List.ext_getElem (by simp) fun i _ hi => by
    rw [List.getElem_map, List.getElem_range]
    exact h.written i _ (List.getElem?_eq_getElem hi)

/-- A copied byte equals the one `offset` before it, as both stand after the copy (R234). -/
theorem matchMoved_outByte (hzero : offset ≠ 0) (hnear : offset.toNat ≤ s.m.toNat)
    (h : s.m.toNat + (matchBytes s offset length).length < 2 ^ 32) {i : Nat}
    (hi : i < length.toNat) :
    (matchMoved s offset length).outByte (s.m.toNat + i) =
      (matchMoved s offset length).outByte (s.m.toNat - offset.toNat + i) := by
  have happends := matchMoved_appendsOut h
  have hpos := one_le_toNat_of_ne_zero hzero
  have hm : (matchMoved s offset length).m.toNat = s.m.toNat + length.toNat :=
    (appendBytes_count h).trans (by rw [matchBytes_length])
  have hcopied := copied_getElem? (out := s.outputBytes s.m.toNat) hpos
    (by rw [outputBytes_length]; exact hnear) hi
  rw [outputBytes_length, ← matchBytes, ← happends.outputBytes h,
    outputBytes_getElem? (by omega)] at hcopied
  exact happends.written i _ hcopied

end

/-! ## The token at the cursor -/

section

variable {s : State} (hv : s.cfg.Valid) (hq : s.hostQueue = []) (hb : s.phase = .busy)
  (ho : s.op = opWinDecompress)
include hv hq hb ho

/-- A tag that is neither 0 nor 1 ends a running WIN_DECOMPRESS (R158). -/
theorem step_of_illegalTag (hlt : s.p.toNat < s.n.toNat) (h0 : s.inByte s.p.toNat ≠ 0)
    (h1 : s.inByte s.p.toNat ≠ 1) : step s = .next (raise s .winBadTag s.p) := by
  obtain ⟨-, -, -, -, -, hbad⟩ := (fetchReadsTokenAtCursor s hv hq hb).2 ho hlt
  exact hbad h0 h1

/-- A literal without its byte ends a running WIN_DECOMPRESS (R159). -/
theorem step_of_litTruncated (hlt : s.p.toNat < s.n.toNat) (h0 : s.inByte s.p.toNat = 0)
    (hend : s.n.toNat ≤ s.p.toNat + 1) : step s = .next (raise s .winTruncated s.p) := by
  obtain ⟨-, hcut, -⟩ := (fetchReadsTokenAtCursor s hv hq hb).2 ho hlt
  exact hcut h0 hend

/-- A match with no or one byte of its two ends a running WIN_DECOMPRESS (R159). -/
theorem step_of_matchTruncated (hlt : s.p.toNat < s.n.toNat) (h1 : s.inByte s.p.toNat = 1)
    (hend : s.n.toNat ≤ s.p.toNat + 2) : step s = .next (raise s .winTruncated s.p) := by
  obtain ⟨-, -, -, hone, hnone, -⟩ := (fetchReadsTokenAtCursor s hv hq hb).2 ho hlt
  rcases Nat.lt_or_ge (s.p.toNat + 1) s.n.toNat with hmore | hless
  · exact hone h1 (by omega)
  · exact hnone h1 (by omega)

theorem step_of_lit (hlt : s.p.toNat + 1 < s.n.toNat) (h0 : s.inByte s.p.toNat = 0) :
    step s = exec (.lit (s.inByte (s.p.toNat + 1))) s := by
  obtain ⟨hlit, -⟩ := (fetchReadsTokenAtCursor s hv hq hb).2 ho (Nat.lt_of_succ_lt hlt)
  exact hlit h0 hlt

theorem step_of_matchTok (hlt : s.p.toNat + 2 < s.n.toNat) (h1 : s.inByte s.p.toNat = 1) :
    step s = exec (.matchTok (s.inByte (s.p.toNat + 1)) (s.inByte (s.p.toNat + 2))) s := by
  obtain ⟨-, -, hmatch, -⟩ := (fetchReadsTokenAtCursor s hv hq hb).2 ho (by omega)
  exact hmatch h1 hlt

end

/-! ## The obligations -/

/-- Settles O22: a LIT that fits leaves `litMoved`; with OUT full it is the raise. -/
theorem litAppendsByte : Obligations.LitAppendsByte := by
  unfold Obligations.LitAppendsByte
  intro s value hv
  refine ⟨fun hroom => ?_, fun hfull => ?_⟩
  · have hcap := outCap_lt_of_valid hv
    have hfits : s.m.toNat + 1 < 2 ^ 32 := Nat.lt_of_le_of_lt hroom hcap
    exact ⟨_, exec_lit_of_room hroom, litMoved_appendsOut hfits,
      fun hop => litMoved_appendsHist hop hfits (histDepth_pos_of_valid hv),
      fun hop => appendBytes_hist_of_winCompress hop [value], rfl⟩
  · exact ⟨_, exec_lit_of_full hfull, raise_faulted s _ _, raise_outCapacity_statusWord s s.p⟩

/-- Settles O23: a MATCH that fits leaves `matchMoved`, whose bytes are those of `copied`. -/
theorem matchCopiesOverlapping : Obligations.MatchCopiesOverlapping := by
  unfold Obligations.MatchCopiesOverlapping
  intro s offset length hv hzero hnear hroom
  have hfits := matchBytes_fit (offset := offset) hv hroom
  have happends := matchMoved_appendsOut hfits
  have hlen := matchBytes_length s offset length
  have hbytes := happends.map_outByte
  have hcount := happends.count
  have hkept := happends.kept
  rw [hlen] at hbytes hcount hkept
  refine ⟨_, exec_matchTok_of_room hv hzero hnear hroom, ?_,
    fun i hi => matchMoved_outByte hzero hnear hfits hi, hkept, fun hop => ?_,
    fun hop => appendBytes_hist_of_winCompress hop _, matchMoved_frame s offset length⟩
  · rw [hcount, BitVec.ofNat_toNat]
    rfl
  · rw [hbytes]
    exact matchMoved_appendsHist hv hop hfits

/-- Settles O25: the zero offset's raise, and the STATUS of its phase. -/
theorem zeroOffsetFaults : Obligations.ZeroOffsetFaults := by
  unfold Obligations.ZeroOffsetFaults
  intro s hv hq hb ho hlt h1 hzero
  refine ⟨_, ?_, raise_faulted _ _ _,
    show phaseWord (.doneFault .winZeroOffset) = 0x0000060E by decide⟩
  rw [step_of_matchTok hv hq hb ho hlt h1, hzero, exec_matchTok_of_zero]

/-- Settles O26: the far offset's raise and the STATUS of its phase; a near one with room leaves
`matchMoved`, which runs on. -/
theorem farOffsetFaults : Obligations.FarOffsetFaults := by
  unfold Obligations.FarOffsetFaults
  intro s hv hq hb ho hlt h1 hzero
  rw [step_of_matchTok hv hq hb ho hlt h1]
  refine ⟨fun hfar => ⟨_, exec_matchTok_of_far hzero hfar, raise_faulted _ _ _,
    show phaseWord (.doneFault .winBadOffset) = 0x0000050E by decide⟩, fun hnear hroom => ?_⟩
  refine ⟨_, exec_matchTok_of_room hv hzero hnear hroom, ?_⟩
  rw [matchMoved_frame]
  exact hb

/-- Settles O27: the illegal tag's raise, and the STATUS of its phase. -/
theorem illegalTagFaults : Obligations.IllegalTagFaults := by
  unfold Obligations.IllegalTagFaults
  intro s hv hq hb ho hlt h0 h1
  exact ⟨_, step_of_illegalTag hv hq hb ho hlt h0 h1, raise_faulted s _ _,
    show phaseWord (.doneFault .winBadTag) = 0x0000040E by decide⟩

/-- Settles O28: the cut token's raise, by its tag, and the STATUS of its phase. -/
theorem truncationFaults : Obligations.TruncationFaults := by
  unfold Obligations.TruncationFaults
  intro s hv hq hb ho hlt hcut
  have hstep : step s = .next (raise s .winTruncated s.p) := by
    rcases hcut with ⟨h0, hend⟩ | ⟨h1, hend⟩
    · exact step_of_litTruncated hv hq hb ho hlt h0 hend
    · exact step_of_matchTruncated hv hq hb ho hlt h1 hend
  exact ⟨_, hstep, raise_faulted s _ _,
    show phaseWord (.doneFault .winTruncated) = 0x0000030E by decide⟩

end Sys2Proof.Machine
end

section
/-!
PROOFS. WIN_DECOMPRESS on the machine computes window_decompress, faults included (R151 to R160,
R203), and so restores what WIN_COMPRESS was given (R162). The simulation runs over the input bytes
left: a state under way has the result so far in OUT[0..m], and its end adds what the list function
makes of IN[p..n].
-/

namespace Sys2Proof.Machine

/-! ## A token on the way -/

section

variable {s : State}

/-- A token that appends `bytes`, which fit, and moves the cursor by `k`, within n. -/
theorem Underway.progress {o : Op} {t : State} {bytes : List Byte} {k : Word} (h : Underway o s)
    (hg : Grown s t) (happends : AppendsOut s t bytes)
    (hroom : s.m.toNat + bytes.length ≤ s.cfg.outCap) (hmoved : t.p = s.p + k)
    (hp : s.p.toNat + k.toNat ≤ s.n.toNat) :
    Progress o s t bytes (s.p.toNat + k.toNat) := by
  have hout := happends.outputBytes (Nat.lt_of_le_of_lt hroom (outCap_lt_of_valid h.valid))
  have hcursor : t.p.toNat = s.p.toNat + k.toNat := by
    rw [hmoved]
    exact advance_toNat hp s.n.isLt
  have hcount := congrArg List.length hout
  rw [List.length_append, outputBytes_length, outputBytes_length] at hcount
  exact {
    underway := h.grown hg (by rw [hcursor]; exact hp)
    same := hg.same
    cursor := hcursor
    count := hcount
    output := hout }

theorem Underway.litMoved_progress (h : Underway opWinDecompress s) (value : Byte)
    (hroom : s.m.toNat < s.cfg.outCap) (hp : s.p.toNat + 1 < s.n.toNat) :
    Progress opWinDecompress s (litMoved s value) [value] (s.p.toNat + 2) :=
  h.progress (k := 2)
    ((appendBytes_grown (bytes := [value]) h.valid hroom).trans (advance_grown _ 2))
    (litMoved_appendsOut (Nat.lt_of_le_of_lt hroom (outCap_lt_of_valid h.valid))) hroom rfl hp

theorem Underway.matchMoved_progress (h : Underway opWinDecompress s) (offset length : Byte)
    (hroom : s.m.toNat + length.toNat ≤ s.cfg.outCap) (hp : s.p.toNat + 2 < s.n.toNat) :
    Progress opWinDecompress s (matchMoved s offset length) (matchBytes s offset length)
      (s.p.toNat + 3) := by
  have hbytes : s.m.toNat + (matchBytes s offset length).length ≤ s.cfg.outCap := by
    rw [matchBytes_length]
    exact hroom
  have hg : Grown s (matchMoved s offset length) :=
    (appendBytes_grown h.valid hbytes).trans
      ((unpackMatch_grown _ offset 0).trans (advance_grown _ 3))
  exact h.progress (k := 3) hg (matchMoved_appendsOut (matchBytes_fit h.valid hroom)) hbytes
    (by rw [matchMoved_frame]) hp

/-! ## The simulation -/

/-- Every token that goes on is followed by the decoding of the input left after it. -/
def GoesOnDecoding (s : State) : Prop :=
  ∀ {t : State} {bytes : List Byte} {p : Nat}, step s = .next t →
    Progress opWinDecompress s t bytes p → s.p.toNat < p →
    Ends s (refWinDecode s.cfg.outCap (s.inputBytes.drop p) p (s.outputBytes s.m.toNat ++ bytes))

/-- A literal at p: cut short, too much for OUT, or its byte appended (R152, R159). -/
theorem Underway.lit_ends (h : Underway opWinDecompress s) (hgoes : GoesOnDecoding s)
    (hlt : s.p.toNat < s.n.toNat) (h0 : s.inByte s.p.toNat = 0) :
    Ends s (refWinDecode s.cfg.outCap (0 :: s.inputBytes.drop (s.p.toNat + 1)) s.p.toNat
      (s.outputBytes s.m.toNat)) := by
  rcases Nat.lt_or_ge (s.p.toNat + 1) s.n.toNat with hmore | hend
  · have hstep := step_of_lit h.valid h.quiet h.busy h.opIs hmore h0
    rw [drop_inputBytes_of_lt hmore, refWinDecode_lit, outputBytes_length]
    split
    · next hfull => exact .of_raise (hstep.trans (exec_lit_of_full (Nat.le_of_lt_succ hfull)))
    · next hroom =>
      have hroom : s.m.toNat < s.cfg.outCap := Nat.not_lt.mp hroom
      exact hgoes (hstep.trans (exec_lit_of_room hroom)) (h.litMoved_progress _ hroom hmore)
        (by omega)
  · rw [drop_inputBytes_of_ge hend, refWinDecode_litTruncated]
    exact .of_raise (step_of_litTruncated h.valid h.quiet h.busy h.opIs hlt h0 hend)

/-- A whole match at p: an offset of 0, one beyond the output, too much for OUT, or its copy
appended (R154 to R156, in the order of R203). -/
theorem Underway.wholeMatch_ends (h : Underway opWinDecompress s) (hgoes : GoesOnDecoding s)
    (hlt : s.p.toNat + 2 < s.n.toNat) (h1 : s.inByte s.p.toNat = 1) :
    Ends s (refWinDecode s.cfg.outCap (1 :: s.inByte (s.p.toNat + 1) :: s.inByte (s.p.toNat + 2) ::
      s.inputBytes.drop (s.p.toNat + 3)) s.p.toNat (s.outputBytes s.m.toNat)) := by
  have hstep := step_of_matchTok h.valid h.quiet h.busy h.opIs hlt h1
  rw [refWinDecode_match, outputBytes_length]
  split
  · next hzero =>
    rw [hzero, exec_matchTok_of_zero] at hstep
    exact .of_raise hstep
  · next hzero =>
    split
    · next hfar => exact .of_raise (hstep.trans (exec_matchTok_of_far hzero hfar))
    · next hnear =>
      split
      · next hover =>
        obtain ⟨u, hexec, -⟩ := exec_matchTok_of_overflow h.valid hzero (Nat.not_lt.mp hnear)
          h.countFits hover
        exact .of_raise (hstep.trans hexec)
      · next hroom =>
        rw [refCopy_eq_append_copied]
        exact hgoes
          (hstep.trans (exec_matchTok_of_room h.valid hzero (Nat.not_lt.mp hnear)
            (Nat.not_lt.mp hroom)))
          (h.matchMoved_progress _ _ (Nat.not_lt.mp hroom) hlt) (by omega)

/-- A match at p, cut short or whole (R159). -/
theorem Underway.match_ends (h : Underway opWinDecompress s) (hgoes : GoesOnDecoding s)
    (hlt : s.p.toNat < s.n.toNat) (h1 : s.inByte s.p.toNat = 1) :
    Ends s (refWinDecode s.cfg.outCap (1 :: s.inputBytes.drop (s.p.toNat + 1)) s.p.toNat
      (s.outputBytes s.m.toNat)) := by
  rcases Nat.lt_or_ge (s.p.toNat + 2) s.n.toNat with hwhole | hend
  · rw [drop_inputBytes_of_lt (Nat.lt_of_succ_lt hwhole), drop_inputBytes_of_lt hwhole]
    exact h.wholeMatch_ends hgoes hwhole h1
  · have hraise := step_of_matchTruncated h.valid h.quiet h.busy h.opIs hlt h1 hend
    rcases Nat.lt_or_ge (s.p.toNat + 1) s.n.toNat with hone | hnone
    · rw [drop_inputBytes_of_lt hone, drop_inputBytes_of_ge hend, refWinDecode_matchTruncated_some]
      exact .of_raise hraise
    · rw [drop_inputBytes_of_ge hnone, refWinDecode_matchTruncated_none]
      exact .of_raise hraise

/-- WIN_DECOMPRESS under way decodes the input left, or takes its fault. -/
theorem winDecompress_ends (h : Underway opWinDecompress s) :
    Ends s (refWinDecode s.cfg.outCap (s.inputBytes.drop s.p.toNat) s.p.toNat
      (s.outputBytes s.m.toNat)) := by
  induction hleft : s.n.toNat - s.p.toNat using Nat.strong_induction_on generalizing s with
  | _ left ih =>
    rcases Nat.lt_or_ge s.p.toNat s.n.toNat with hlt | hend
    · have hgoes : GoesOnDecoding s := by
        rintro t bytes p hstep ⟨hunder, hsame, hcursor, -, hout⟩ hforward
        have hrest := ih _ (by rw [hsame.n, hcursor]; omega) hunder rfl
        rw [hout, hsame.cfg, hsame.inputBytes, hcursor] at hrest
        exact .of_step hstep hrest
      rw [drop_inputBytes_of_lt hlt]
      by_cases h0 : s.inByte s.p.toNat = 0
      · rw [h0]
        exact h.lit_ends hgoes hlt h0
      by_cases h1 : s.inByte s.p.toNat = 1
      · rw [h1]
        exact h.match_ends hgoes hlt h1
      · rw [refWinDecode_badTag _ _ _ h0 h1]
        exact .of_raise (step_of_illegalTag h.valid h.quiet h.busy h.opIs hlt h0 h1)
    · rw [drop_inputBytes_of_ge hend, refWinDecode]
      exact h.completes hend (engineFetch_window_end h.opIs (by rw [streamAtCursor_nil hend]; rfl))
        (exec_winDecompress s)

end

/-! ## The obligations -/

/-- Settles O47: from the start, where p = m = 0, to the decoding of the whole input. -/
theorem winDecompressComputes : Obligations.WinDecompressComputes := by
  unfold Obligations.WinDecompressComputes
  intro s h
  have := winDecompress_ends h.underway
  rwa [h.count, h.cursor] at this

/-- Settles O53: the result of the compression is `refWinCompress`'s, whose decoding is the
input. -/
theorem winRoundTrip : Obligations.WinRoundTrip := by
  unfold Obligations.WinRoundTrip
  intro s u k t hs hmin hrun hok hu hbytes hroom
  obtain ⟨-, hlen, hout⟩ := Ends.shows (winCompressComputes s hs hmin) hs.valid hs.quiet hrun
    (by rw [hok]; exact Phase.noConfusion)
  have hends := winDecompressComputes u hu
  rwa [hbytes, hlen, hout, refWinDecompress_refWinCompress hs.valid
    (by rw [inputBytes_length]; exact hroom)] at hends

end Sys2Proof.Machine
end

section
/-!
PROOFS. The host's commands (43_host_commands.md): how a command starts, fails and completes (R181, R182,
R185, R186), which accesses are refused while BUSY (R187), what a poll does (R184), and that every
operation ends (R189). For R189 each engine step of a running operation answers a next state and, if the
operation still runs, leaves the cursor further on; the invariant keeps the cursor within n.
-/

namespace Sys2Proof.Machine

/-! ## The commands by phase (R181, R182, R185) -/

/-- The command instructions of the legal operations of R22. -/
abbrev legalCommands : List (Instr × Op) :=
  [(.rleCompress, opRleCompress), (.rleDecompress, opRleDecompress), (.winCompress, opWinCompress),
    (.winDecompress, opWinDecompress)]

theorem exec_legalCommand {i : Instr} {o : Op} (h : (i, o) ∈ legalCommands) (s : State) :
    ∃ going, exec i s = commandOutcome s o going := by
  simp only [List.mem_cons, Prod.mk.injEq, List.not_mem_nil, or_false] at h
  rcases h with ⟨rfl, rfl⟩ | ⟨rfl, rfl⟩ | ⟨rfl, rfl⟩ | ⟨rfl, rfl⟩
  · exact ⟨_, exec_rleCompress s⟩
  · exact ⟨_, exec_rleDecompress s⟩
  · exact ⟨_, exec_winCompress s⟩
  · exact ⟨_, exec_winDecompress s⟩

/-- With no operation running a legal command starts its own (R181). -/
theorem exec_legalCommand_starts {i : Instr} {o : Op} {s : State} (h : (i, o) ∈ legalCommands)
    (hb : s.phase ≠ .busy) : exec i s = .next (start s o) := by
  obtain ⟨going, hexec⟩ := exec_legalCommand h s
  rw [hexec, commandOutcome, if_neg hb]

theorem commandOutcome_ended {s : State} {o : Op} (going : Host.Outcome State Fault Refusal)
    (hb : s.phase = .busy) (ho : s.op = o) (hend : s.n.toNat ≤ s.p.toNat) :
    commandOutcome s o going = .next (complete s) := by
  rw [commandOutcome, if_pos hb, if_pos ho, if_neg (Nat.not_lt.mpr hend)]

theorem exec_cmdReserved_rejects {s : State} (o : Op) (hb : s.phase ≠ .busy) :
    exec (.cmdReserved o) s = .next (rejectCommand s o) := if_neg hb

/-- Settles O13: the input fits, so the start runs. -/
theorem legalStartRuns : Obligations.LegalStartRuns := by
  unfold Obligations.LegalStartRuns
  intro s hb hfits i o hmem
  refine ⟨_, (exec_legalCommand_starts hmem hb).trans
    (congrArg Host.Outcome.next (start_of_fits s o hfits)), ?_, rfl⟩
  exact show phaseWord .busy = 0x00000001 by decide

/-- Settles O14: a start on a long input is the fault of `start_of_long`; a reserved command is rejected
before its length is looked at. -/
theorem longInputFailsStart : Obligations.LongInputFailsStart := by
  unfold Obligations.LongInputFailsStart
  intro s hb hlong
  refine ⟨fun i o hmem => ⟨_, (exec_legalCommand_starts hmem hb).trans
    (congrArg Host.Outcome.next (start_of_long s o hlong)), ?_, rfl⟩,
    fun o _ => ⟨_, exec_cmdReserved_rejects o hb, rfl⟩⟩
  exact show phaseWord (.doneFault .badLength) = 0x00000D06 by decide

/-- Settles O15: the reserved command is rejected. -/
theorem reservedCommandFails : Obligations.ReservedCommandFails := by
  unfold Obligations.ReservedCommandFails
  intro s o hb _
  exact ⟨_, exec_cmdReserved_rejects o hb,
    show phaseWord (.doneFault .badCommand) = 0x00000E06 by decide, rfl⟩

/-- Settles O16: the running command completes, and OUT keeps the bytes below m alone. -/
theorem operationCompletes : Obligations.OperationCompletes := by
  unfold Obligations.OperationCompletes
  intro s hb hend i o hmem ho
  obtain ⟨going, hexec⟩ := exec_legalCommand hmem s
  rw [commandOutcome_ended going hb ho hend] at hexec
  refine ⟨_, hexec, show phaseWord .doneOk = 0x00000002 by decide, rfl, fun j b hj hbyte => ?_,
    fun j hj => Memory.find?_keepBelow_above _ _ hj⟩
  exact Memory.read_of_find? .output ((Memory.find?_keepBelow _ _ hj).trans hbyte)

/-! ## The host's accesses while an operation runs (R184, R187) -/

/-- Settles O57: each of the five accesses is tested for BUSY first. -/
theorem busyDutiesRefused : Obligations.BusyDutiesRefused := by
  unfold Obligations.BusyDutiesRefused
  intro s rest hv hb
  refine ⟨fun w hq => ?_, fun w hq => ?_, fun i b hq => ?_, fun i hq => ?_, fun i b hq => ?_⟩ <;>
    rw [step_of_access hv hq rfl, hostAction]
  · rw [hostWriteReg, if_pos rfl, if_pos hb]
    rfl
  · rw [hostWriteReg, if_neg (by decide), if_pos rfl, if_pos hb]
    rfl
  · rw [hostWriteIn, if_pos hb]
    rfl
  · rw [hostReadOut, if_pos hb]
    rfl
  · rw [hostWriteOut, if_pos hb]
    rfl

/-- DONE is 1 in the two DONE phases alone (R23). -/
theorem doneFlag_of_done {ph : Phase} (hi : ph ≠ .idle) (hb : ph ≠ .busy) : doneFlag ph = true := by
  cases ph with
  | idle => exact absurd rfl hi
  | busy => exact absurd rfl hb
  | doneOk => rfl
  | doneFault cause => rfl

theorem hostAction_poll_of_busy {s : State} (hb : s.phase = .busy) :
    hostAction s .poll = .run (engineFetch s) (answer s s.statusWord) := if_pos hb

theorem hostAction_poll_of_waiting {s : State} (hb : s.phase ≠ .busy) :
    hostAction s .poll = .done (.next (answer s s.statusWord)) := if_neg hb

/-- Settles O59: with DONE = 1 the poll leaves the queue and the engine waits; with DONE = 0 it stays, and
the engine moves if it is BUSY. -/
theorem pollWaitsForDone : Obligations.PollWaitsForDone := by
  unfold Obligations.PollWaitsForDone
  intro s rest hv hq
  refine ⟨fun hi hb => ?_, fun hi => ?_, fun hb => ?_⟩
  · rw [step_of_access hv hq (doneFlag_of_done hi hb),
      hostAction_poll_of_waiting (s := { s with hostQueue := rest }) hb]
    rfl
  · rw [step_of_pending hv hq (congrArg doneFlag hi),
      hostAction_poll_of_waiting (by rw [hi]; exact Phase.noConfusion)]
    rfl
  · rw [step_of_pending hv hq (congrArg doneFlag hb), hostAction_poll_of_busy hb]
    rfl

/-! ## The engine of a running operation always answers a next state -/

/-- Commands alone can be refused: a token's instruction answers a next state in every state. -/
theorem exec_token_next {i : Instr} (h : ∀ w, encode i ≠ .command w) (s : State) :
    ∃ t, exec i s = .next t := by
  cases i with
  | rleCompress => exact absurd rfl (h _)
  | rleDecompress => exact absurd rfl (h _)
  | winCompress => exact absurd rfl (h _)
  | winDecompress => exact absurd rfl (h _)
  | cmdReserved op => exact absurd rfl (h _)
  | run count value => exact settle_next _
  | rleZeroCount value => exact ⟨_, rfl⟩
  | rleTrailingByte last => exact ⟨_, rfl⟩
  | lit value => exact settle_next _
  | matchTok offset length => exact settle_next _
  | winIllegalTag tag => exact ⟨_, rfl⟩
  | winLitTruncated => exact ⟨_, rfl⟩
  | winMatchTruncated offset => exact ⟨_, rfl⟩

/-- A running operation's own command goes on or completes. -/
theorem commandOutcome_next {s : State} {o : Op} {going : Host.Outcome State Fault Refusal}
    (hb : s.phase = .busy) (ho : s.op = o) (hgoing : ∃ t, going = .next t) :
    ∃ t, commandOutcome s o going = .next t := by
  rcases Nat.lt_or_ge s.p.toNat s.n.toNat with hlt | hend
  · rw [commandOutcome_going going hb ho hlt]
    exact hgoing
  · exact ⟨_, commandOutcome_ended going hb ho hend⟩

theorem engine_next_rle {s : State} (hb : s.phase = .busy) (ho : s.op = opRleDecompress) :
    ∃ t, exec (engineFetch s) s = .next t := by
  rcases Nat.mod_two_eq_zero_or_one s.n.toNat with heven | hodd
  · by_cases hend : streamAtCursor s = []
    · rw [engineFetch_rle_end ho heven (by rw [hend]; rfl), exec_rleDecompress]
      exact commandOutcome_next hb ho ⟨s, rfl⟩
    · obtain ⟨i, rest, used, hdecode, -, hencode, -⟩ := decodeRle_consumes hend
      rw [engineFetch_rle ho heven hdecode]
      exact exec_token_next (fun w => by rw [hencode]; exact Encoding.noConfusion) s
  · rw [engineFetch_odd ho hodd]
    exact ⟨_, rfl⟩

theorem engine_next_window {s : State} (hb : s.phase = .busy) (ho : s.op = opWinDecompress) :
    ∃ t, exec (engineFetch s) s = .next t := by
  by_cases hend : streamAtCursor s = []
  · rw [engineFetch_window_end ho (by rw [hend]; rfl), exec_winDecompress]
    exact commandOutcome_next hb ho ⟨s, rfl⟩
  · obtain ⟨i, rest, used, hdecode, -, hencode, -⟩ := decodeWindow_consumes hend
    rw [engineFetch_window ho hdecode]
    exact exec_token_next (fun w => by rw [hencode]; exact Encoding.noConfusion) s

theorem engine_next {s : State} (hb : s.phase = .busy) (hlegal : s.op.legal = true) :
    ∃ t, exec (engineFetch s) s = .next t := by
  simp only [Op.legal, Bool.or_eq_true, beq_iff_eq] at hlegal
  rcases hlegal with ((ho | ho) | ho) | ho
  · rw [engineFetch_rleCompress ho, exec_rleCompress]
    exact commandOutcome_next hb ho (settle_next _)
  · exact engine_next_rle hb ho
  · rw [engineFetch_winCompress ho, exec_winCompress]
    exact commandOutcome_next hb ho (settle_next _)
  · exact engine_next_window hb ho

/-! ## The cursor moves on (R189) -/

theorem cursor_advances {s t : State} {k : Word} (hp : t.p = s.p + k)
    (hfits : s.p.toNat + k.toNat ≤ s.n.toNat) (hk : 0 < k.toNat) : s.p.toNat < t.p.toNat := by
  rw [hp, advance_toNat hfits s.n.isLt]
  omega

theorem rleMoved_p (s : State) (bytes : List Byte) (v : Byte) (len k : Word) :
    (rleMoved s bytes v len k).p = s.p + k := by
  rw [rleMoved_frame]

/-- A run has at least one byte, and the invariant leaves room for its tokens (R104). -/
theorem rleEncodeRun_advances {s t : State} (hv : s.cfg.Valid) (hn : s.n.toNat ≤ s.cfg.inCap)
    (hm : s.m.toNat ≤ 2 * s.p.toNat) (hlt : s.p.toNat < s.n.toNat) (h : rleEncodeRun s = .ok t) :
    s.p.toNat < t.p.toNat := by
  have hrun := runAt_runLength hlt
  have hbytes := runBytes_length_le (s.inByte s.p.toNat) hrun.pos
  have hfits := hrun.fits
  have hleft := room_of_size hv hn (Nat.le_of_lt hlt) hm
  rw [rleEncodeRun_of_room hv hrun (by omega)] at h
  cases h
  exact cursor_advances (rleMoved_p s _ _ _ _) (by rw [hrun.toNat_ofNat]; exact hfits)
    (by rw [hrun.toNat_ofNat]; exact hrun.pos)

/-- Emitting a token of the Window encoder leaves the cursor and the match found. -/
theorem emitAll_consumed_registers {s u : State} {bytes : List Byte} {k : Nat} (hv : s.cfg.Valid)
    (h : emitAll (consumeToHist (runFinder s) k) bytes = .ok u) :
    u.p = s.p ∧ u.bestLen = BitVec.ofNat 8 (find s).2 := by
  obtain ⟨rfl, -⟩ := emitAll_eq_ok (by rw [consumeToHist_cfg]; exact outCap_lt_of_valid hv) h
  rw [appendBytes_frame]
  exact ⟨consumeToHist_p _ _, consumeToHist_bestLen _ _⟩

theorem minMatch_pos_of_valid {c : Config} (h : c.Valid) : 1 ≤ c.minMatch := by
  obtain ⟨-, -, ⟨hmin, -, -⟩, -⟩ := h
  exact hmin

/-- A literal consumes one byte, and a match at least MIN_MATCH_LENGTH, which R7 makes at least one. -/
theorem winEncodeToken_advances {s t : State} (hv : s.cfg.Valid) (hlt : s.p.toNat < s.n.toNat)
    (h : winEncodeToken s = .ok t) : s.p.toNat < t.p.toNat := by
  obtain ⟨-, hfits⟩ := find_bounds (Nat.le_of_lt hlt)
  have hlen := find_length_le_255 hv (Nat.le_of_lt hlt)
  rw [winEncodeToken] at h
  split at h
  · next hmatch =>
    obtain ⟨u, hu, ht⟩ := bind_eq_ok h
    cases ht
    obtain ⟨hp, hbest⟩ := emitAll_consumed_registers hv hu
    have hk : (zext u.bestLen).toNat = (find s).2 := by
      rw [hbest, zext_ofNat hlen, BitVec.toNat_ofNat, Nat.mod_eq_of_lt (by omega)]
    exact cursor_advances (congrArg (· + zext u.bestLen) hp) (by rw [hk]; exact hfits)
      (by rw [hk]; exact Nat.le_trans (minMatch_pos_of_valid hv) hmatch)
  · obtain ⟨u, hu, ht⟩ := bind_eq_ok h
    cases ht
    obtain ⟨hp, -⟩ := emitAll_consumed_registers hv hu
    exact cursor_advances (congrArg (· + 1) hp) hlt (by decide)

/-- A command after which its operation still runs has done an iteration, before p = n. -/
theorem command_iterates {s t : State} {o : Op} {going : Host.Outcome State Fault Refusal}
    (hb : s.phase = .busy) (hbt : t.phase = .busy) (h : commandOutcome s o going = .next t) :
    s.p.toNat < s.n.toNat ∧ going = .next t := by
  rcases command_cases h with ⟨-, -, hlt, hgoing⟩ | ⟨-, -, rfl⟩ | ⟨hnb, -⟩
  · exact ⟨hlt, hgoing⟩
  · cases hbt
  · exact absurd hb hnb

/-- While the operation goes on, the engine's instruction moves the cursor on. -/
theorem engine_advances {s t : State} (hI : Inv s) (hb : s.phase = .busy)
    (h : exec (engineFetch s) s = .next t) (hbt : t.phase = .busy) : s.p.toNat < t.p.toNat := by
  have hv := hI.valid
  have hfetch := engineFetch_fetches hb
  generalize engineFetch s = i at h hfetch
  cases hfetch with
  | rleCompress ho =>
    obtain ⟨hlt, hiter⟩ := command_iterates hb hbt h
    exact rleEncodeRun_advances hv (hI.lengthFits hb) (hI.rleSize hb ho) hlt
      ((rleEncodeRun_grownFrom hv).ok_of_busy hiter hbt)
  | winCompress ho =>
    obtain ⟨hlt, hiter⟩ := command_iterates hb hbt h
    exact winEncodeToken_advances hv hlt ((winEncodeToken_grownFrom hv ho).ok_of_busy hiter hbt)
  | run count value ho hlt =>
    exact cursor_advances (runToken_moves ((runToken_grownFrom count value hv).ok_of_busy h hbt))
      hlt (by decide)
  | lit value ho hlt =>
    exact cursor_advances (litToken_moves ((litToken_grownFrom value hv).ok_of_busy h hbt))
      hlt (by decide)
  | matchTok offset length ho hlt =>
    exact cursor_advances
      (matchToken_moves ((matchToken_grownFrom offset length hv).ok_of_busy h hbt))
      hlt (by decide)
  | stops hstop => exact absurd hbt (hstop t h)

/-! ## The operation ends (R189) -/

/-- A step of a running operation with the host silent ends it, or comes to a state of the same kind
with less input left. -/
theorem Inv.step_ends_or_advances {s : State} (hI : Inv s) (hb : s.phase = .busy)
    (hq : s.hostQueue = []) :
    ∃ t, step s = .next t ∧ (t.phase = .busy → Inv t ∧ t.hostQueue = [] ∧
      t.n.toNat - t.p.toNat < s.n.toNat - s.p.toNat) := by
  obtain ⟨t, hexec⟩ := engine_next hb (hI.opLegal hb)
  have hstep : step s = .next t := (step_of_busy hI.valid hq hb).trans hexec
  refine ⟨t, hstep, fun hbt => ?_⟩
  have hIt := invariantKeptByStep s t hI hstep
  obtain ⟨-, -, hn, -⟩ := outputIsAppendOnly s t hI hb hstep hbt
  obtain ⟨-, hquiet⟩ := step_keepsQuiet hq hstep
  have hforward := engine_advances hI hb hexec hbt
  have hfits := hIt.cursorFits hbt
  rw [hn] at hfits ⊢
  exact ⟨hIt, hquiet, by omega⟩

/-- Settles O41: by the input left; each step that does not end the operation leaves less of it. -/
theorem operationEnds : Obligations.OperationEnds := by
  unfold Obligations.OperationEnds
  intro s hI hb hq
  induction hleft : s.n.toNat - s.p.toNat using Nat.strong_induction_on generalizing s with
  | _ left ih =>
    obtain ⟨t, hstep, hgoes⟩ := hI.step_ends_or_advances hb hq
    by_cases hbt : t.phase = .busy
    · obtain ⟨hIt, hquiet, hless⟩ := hgoes hbt
      obtain ⟨k, u, hk, hrun, hub⟩ := ih _ (by omega) t hIt hbt hquiet rfl
      exact ⟨k + 1, u, by omega, reaches_succ.mpr ⟨t, hstep, hrun⟩, hub⟩
    · exact ⟨1, t, by omega, reaches_succ.mpr ⟨t, hstep, reaches_zero.mpr rfl⟩, hbt⟩

end Sys2Proof.Machine
end

section
/-!
PROOFS. The exceptions family (60_exceptions.md): what a fault leaves behind (R204), and which causes
each operation can report (R202). For R202 `FaultIn` says that a fault recorded in a state has one of
the listed causes. It holds of a state that is BUSY, and each piece of an algorithm keeps it when the
list has OUT_CAPACITY and the causes that piece raises itself.
-/

namespace Sys2Proof.Machine

/-- Settles O18: STATUS is that of the phase DONE_FAULT, whose cause code lies above its flags. -/
theorem faultEntry : Obligations.FaultEntry := by
  unfold Obligations.FaultEntry
  intro s c pos
  obtain ⟨-, -, -, hfault⟩ := statusWordByPhase (raise s c pos)
  obtain ⟨hword, -, -⟩ := hfault c rfl
  have hflags : 6 + (if causeCode c ≤ 6 then 8 else 0) = if causeCode c ≤ 6 then 14 else 6 := by
    split <;> rfl
  have hsmall : (if causeCode c ≤ 6 then 14 else 6) < 256 := by split <;> decide
  exact ⟨raise_faulted s c pos, fun _ => rfl, by omega, by omega⟩

/-! ## The causes a running operation may report (R202) -/

/-- The causes operation `o` can raise while it runs: by R202 those of a decoder's grammar, and
by R10 OUT_CAPACITY wherever bytes are emitted. -/
def runningCauses (o : Op) : List Cause :=
  if o = opRleDecompress then [.rleOddLength, .rleZeroCount, .outCapacity]
  else if o = opWinDecompress then
    [.winTruncated, .winBadTag, .winBadOffset, .winZeroOffset, .outCapacity]
  else [.outCapacity]

theorem runningCauses_rleDecompress :
    runningCauses opRleDecompress = [.rleOddLength, .rleZeroCount, .outCapacity] := rfl

theorem runningCauses_winDecompress : runningCauses opWinDecompress =
    [.winTruncated, .winBadTag, .winBadOffset, .winZeroOffset, .outCapacity] := rfl

theorem runningCauses_compress {o : Op} (h : o = opRleCompress ∨ o = opWinCompress) :
    runningCauses o = [.outCapacity] := by
  rcases h with rfl | rfl <;> rfl

theorem outCapacity_mem_runningCauses (o : Op) : .outCapacity ∈ runningCauses o := by
  unfold runningCauses
  split
  · decide
  split <;> decide

/-- A fault recorded in `s`, if there is one, has a cause of the list. -/
def FaultIn (causes : List Cause) (s : State) : Prop :=
  ∀ c, s.phase = .doneFault c → c ∈ causes

theorem faultIn_of_busy {causes : List Cause} {s : State} (hb : s.phase = .busy) :
    FaultIn causes s := fun c hc => by
  rw [hb] at hc
  cases hc

theorem raise_faultIn {causes : List Cause} {c : Cause} (h : c ∈ causes) (s : State) (pos : Word) :
    FaultIn causes (raise s c pos) := fun d hd => by
  cases hd
  exact h

theorem FaultIn.congr {causes : List Cause} {s t : State} (h : FaultIn causes s)
    (hphase : t.phase = s.phase) : FaultIn causes t := fun c hc => h c (hphase ▸ hc)

theorem FaultIn.bind {causes : List Cause} {r : Run} {f : State → Run} (h : FaultIn causes r.state)
    (hf : ∀ t, FaultIn causes t → FaultIn causes (f t).state) :
    FaultIn causes (Run.state (r.bind f)) := by
  cases r with
  | ok t => exact hf t h
  | error t => exact h

theorem FaultIn.settle {causes : List Cause} {r : Run} {t : State} (h : FaultIn causes r.state)
    (hnext : Machine.settle r = .next t) : FaultIn causes t := by
  rw [settle_state] at hnext
  cases hnext
  exact h

/-! ## The loops raise OUT_CAPACITY alone (R10) -/

section

variable {causes : List Cause} (hcap : .outCapacity ∈ causes)
include hcap

theorem FaultIn.emit {s : State} (h : FaultIn causes s) (v : Byte) :
    FaultIn causes (emit s v).state := by
  rcases emit_cases (s := s) (v := v) rfl with ⟨-, he⟩ | ⟨-, he⟩ <;> rw [he]
  · exact h
  · exact raise_faultIn hcap s s.p

theorem FaultIn.emitAll (bytes : List Byte) {s : State} (h : FaultIn causes s) :
    FaultIn causes (emitAll s bytes).state := by
  induction bytes generalizing s with
  | nil => exact h
  | cons v rest ih => exact (h.emit hcap v).bind fun t ht => ih ht

theorem FaultIn.expandRun (k : Nat) {s : State} (h : FaultIn causes s) :
    FaultIn causes (expandRun k s).state := by
  induction k generalizing s with
  | zero => exact h
  | succ k ih => exact (h.emit hcap s.runVal).bind fun t ht => ih (s := takeFromRun t 1) ht

theorem FaultIn.copyLoop (base k i : Nat) {s : State} (h : FaultIn causes s) :
    FaultIn causes (copyLoop base k i s).state := by
  induction k generalizing i s with
  | zero => exact h
  | succ k ih =>
    exact (h.emit hcap (s.outByte (base + i))).bind fun t ht => ih (i + 1) (s := countCopied t) ht

theorem FaultIn.emitRun (fuel : Nat) {s : State} (h : FaultIn causes s) :
    FaultIn causes (emitRun fuel s).state := by
  induction fuel generalizing s with
  | zero => exact h
  | succ fuel ih =>
    rw [Machine.emitRun]
    split
    · exact (h.emitAll hcap _).bind fun t ht => ih (s := advance (takeFromRun t _) _) ht
    · exact (h.emitAll hcap _).bind fun _ ht => ht

/-! ## The tokens and iterations -/

theorem FaultIn.rleEncodeRun {s : State} (h : FaultIn causes s) :
    FaultIn causes (rleEncodeRun s).state :=
  FaultIn.emitRun hcap (runLength s) (s := loadRun s _ _) h

theorem FaultIn.runToken {s : State} (h : FaultIn causes s) (hzero : .rleZeroCount ∈ causes)
    (count value : Byte) : FaultIn causes (runToken s count value).state := by
  rw [Machine.runToken]
  split
  · exact raise_faultIn hzero s s.p
  · exact (FaultIn.expandRun hcap count.toNat (s := loadRun s value (zext count)) h).bind
      fun _ ht => ht

theorem FaultIn.litToken {s : State} (h : FaultIn causes s) (value : Byte) :
    FaultIn causes (litToken s value).state := (h.emit hcap value).bind fun _ ht => ht

theorem FaultIn.matchToken {s : State} (h : FaultIn causes s) (hzero : .winZeroOffset ∈ causes)
    (hfar : .winBadOffset ∈ causes) (offset length : Byte) :
    FaultIn causes (matchToken s offset length).state := by
  rw [Machine.matchToken]
  split
  · exact raise_faultIn hzero _ s.p
  split
  · exact raise_faultIn hfar _ s.p
  · exact (FaultIn.copyLoop hcap _ length.toNat 0 (s := unpackMatch s offset length) h).bind
      fun _ ht => ht

theorem FaultIn.winEncodeToken {s : State} (h : FaultIn causes s) :
    FaultIn causes (winEncodeToken s).state := by
  have hconsume : ∀ k, FaultIn causes (consumeToHist (runFinder s) k) := fun k =>
    h.congr (consumeToHist_phase _ k)
  rw [Machine.winEncodeToken]
  split
  · exact ((hconsume _).emitAll hcap _).bind fun _ ht => ht
  · exact ((hconsume _).emitAll hcap _).bind fun _ ht => ht

end

/-! ## The engine's instruction -/

/-- A command while its operation runs faults as its iteration does. -/
theorem command_faultIn {causes : List Cause} {s t : State} {o : Op}
    {going : Host.Outcome State Fault Refusal} (hb : s.phase = .busy)
    (hgoing : going = .next t → FaultIn causes t) (h : commandOutcome s o going = .next t) :
    FaultIn causes t := by
  rcases command_cases h with ⟨-, -, -, hiter⟩ | ⟨-, -, rfl⟩ | ⟨hnb, -⟩
  · exact hgoing hiter
  · exact fun _ => Phase.noConfusion
  · exact absurd hb hnb

/-- A decoder's own command, its loop's test, never faults. -/
theorem loopTest_faultIn {causes : List Cause} {s t : State} {o : Op} (hb : s.phase = .busy)
    (h : commandOutcome s o (.next s) = .next t) : FaultIn causes t :=
  command_faultIn hb (fun hself => by cases hself; exact faultIn_of_busy hb) h

theorem exec_raise_faultIn {causes : List Cause} {c : Cause} {s t : State} {pos : Word}
    (hc : c ∈ causes)
    (h : Host.Outcome.next (φ := Fault) (ρ := Refusal) (raise s c pos) = .next t) :
    FaultIn causes t := by
  cases h
  exact raise_faultIn hc s pos

/-- A token of the RLE stream raises no Window cause (R202). -/
theorem exec_rleToken_faultIn {s t : State} {bytes rest : List Byte} {i : Instr}
    (hb : s.phase = .busy) (hd : decodeRle bytes = .ok (i, rest)) (h : exec i s = .next t) :
    FaultIn (runningCauses opRleDecompress) t := by
  unfold decodeRle at hd
  split at hd
  · cases hd
  · cases hd; exact exec_raise_faultIn (by decide) h
  · split at hd
    · cases hd; exact exec_raise_faultIn (by decide) h
    · cases hd
      exact ((faultIn_of_busy hb).runToken (by decide) (by decide) _ _).settle h

/-- A token of the Window stream raises no RLE cause (R202). -/
theorem exec_windowToken_faultIn {s t : State} {bytes rest : List Byte} {i : Instr}
    (hb : s.phase = .busy) (hd : decodeWindow bytes = .ok (i, rest)) (h : exec i s = .next t) :
    FaultIn (runningCauses opWinDecompress) t := by
  unfold decodeWindow at hd
  split at hd
  · cases hd
  split at hd
  · split at hd
    · cases hd; exact exec_raise_faultIn (by decide) h
    · cases hd; exact ((faultIn_of_busy hb).litToken (by decide) _).settle h
  split at hd
  · split at hd
    · cases hd; exact exec_raise_faultIn (by decide) h
    · cases hd; exact exec_raise_faultIn (by decide) h
    · cases hd
      exact ((faultIn_of_busy hb).matchToken (by decide) (by decide) (by decide) _ _).settle h
  · cases hd; exact exec_raise_faultIn (by decide) h

theorem engine_faultIn_rle {s t : State} (hb : s.phase = .busy) (ho : s.op = opRleDecompress)
    (h : exec (engineFetch s) s = .next t) : FaultIn (runningCauses opRleDecompress) t := by
  rcases Nat.mod_two_eq_zero_or_one s.n.toNat with heven | hodd
  · match hd : decodeRle (streamAtCursor s) with
    | .ok (i, rest) =>
      rw [engineFetch_rle ho heven hd] at h
      exact exec_rleToken_faultIn hb hd h
    | .error .endOfStream =>
      rw [engineFetch_rle_end ho heven hd] at h
      exact loopTest_faultIn hb h
  · rw [engineFetch_odd ho hodd] at h
    exact exec_raise_faultIn (by decide) h

theorem engine_faultIn_window {s t : State} (hb : s.phase = .busy) (ho : s.op = opWinDecompress)
    (h : exec (engineFetch s) s = .next t) : FaultIn (runningCauses opWinDecompress) t := by
  match hd : decodeWindow (streamAtCursor s) with
  | .ok (i, rest) =>
    rw [engineFetch_window ho hd] at h
    exact exec_windowToken_faultIn hb hd h
  | .error .endOfStream =>
    rw [engineFetch_window_end ho hd] at h
    exact loopTest_faultIn hb h

/-- What the engine executes raises the running operation's causes alone; with no legal operation it
is refused. -/
theorem engine_faultIn {s t : State} (hb : s.phase = .busy) (h : exec (engineFetch s) s = .next t) :
    FaultIn (runningCauses s.op) t := by
  have hstart : FaultIn (runningCauses s.op) s := faultIn_of_busy hb
  have hcap := outCapacity_mem_runningCauses s.op
  by_cases h1 : s.op = opRleCompress
  · rw [engineFetch_rleCompress h1] at h
    exact command_faultIn hb (hstart.rleEncodeRun hcap).settle h
  by_cases h2 : s.op = opWinCompress
  · rw [engineFetch_winCompress h2] at h
    exact command_faultIn hb (hstart.winEncodeToken hcap).settle h
  by_cases h3 : s.op = opRleDecompress
  · exact h3 ▸ engine_faultIn_rle hb h3 h
  by_cases h4 : s.op = opWinDecompress
  · exact h4 ▸ engine_faultIn_window hb h4 h
  · rw [engineFetch, if_neg h1, if_neg h2, if_neg h3, if_neg h4, exec, execCmdReserved,
      if_pos hb] at h
    cases h

/-! ## The step -/

/-- From BUSY the engine alone can fault. -/
theorem step_faultIn {s t : State} (hb : s.phase = .busy) (hstep : step s = .next t) :
    FaultIn (runningCauses s.op) t := by
  cases step_stepsTo hstep with
  | engine queue reply _ h => exact engine_faultIn (s := withHost s queue reply) hb h
  | hostSide queue reply => exact faultIn_of_busy hb
  | storeInLen _ _ hnb => exact absurd hb hnb
  | storeIn _ _ hnb => exact absurd hb hnb
  | storeOut _ _ hnb => exact absurd hb hnb
  | starts _ hnb => exact absurd hb hnb
  | rejects _ hnb => exact absurd hb hnb
  | resets => exact fun _ => Phase.noConfusion

/-- With no operation running, a fault is the one already recorded or a start's (R30, R185, R186). -/
theorem step_startFault {s t : State} {c : Cause} (hnb : s.phase ≠ .busy) (hstep : step s = .next t)
    (hc : t.phase = .doneFault c) : t.phase = s.phase ∨ c = .badLength ∨ c = .badCommand := by
  obtain ⟨-, hwaiting⟩ := phaseTransitions s t hstep
  rcases hwaiting hnb with ⟨-, -, hidle⟩ | hsame | ⟨-, -, -, hbusy | hlong | hbad⟩
  · cases hidle.symm.trans hc
  · exact .inl hsame
  · cases hbusy.symm.trans hc
  · cases hlong.symm.trans hc
    exact .inr (.inl rfl)
  · cases hbad.symm.trans hc
    exact .inr (.inr rfl)

/-- Settles O40: the causes of `runningCauses` while BUSY, and a start's otherwise. -/
theorem causesOfEachCommand : Obligations.CausesOfEachCommand := by
  unfold Obligations.CausesOfEachCommand
  intro s t c hstep hc
  have hcause : s.phase = .busy → c ∈ runningCauses s.op := fun hb => step_faultIn hb hstep c hc
  refine ⟨fun hb ho => ?_, fun hb ho => ?_, fun hb ho => ?_,
    fun hnb => step_startFault hnb hstep hc⟩
  · simpa [ho, runningCauses_rleDecompress] using hcause hb
  · simpa [ho, runningCauses_winDecompress] using hcause hb
  · simpa [runningCauses_compress ho] using hcause hb

end Sys2Proof.Machine
end

section
/-!
PROOFS. The reset family (70_reset_and_hazards.md): what the reset signal does, in every phase (R230,
R231).
-/

namespace Sys2Proof.Machine

/-- The reset signal is taken from the queue and acts at once, even while an operation runs (R231). -/
theorem step_reset {s : State} {rest : List HostOp} (hv : s.cfg.Valid)
    (hq : s.hostQueue = .reset :: rest) :
    step s = .next (hardReset { s with hostQueue := rest }) := by
  rw [step_of_access hv hq rfl]
  rfl

/-- The phase after reset is IDLE, so STATUS reads 0 (R23, R230). -/
theorem hardReset_statusWord (s : State) : (hardReset s).statusWord = 0x00000000 := by
  obtain ⟨hidle, -⟩ := statusWordByPhase (hardReset s)
  exact hidle (hardReset_phase s)

/-- Reset leaves no byte of IN, OUT or HIST known (R230). -/
theorem hardReset_find? (s : State) (j : Nat) :
    (hardReset s).inBuf.find? j = none ∧ (hardReset s).outBuf.find? j = none ∧
      (hardReset s).hist.find? j = none := by
  simp only [hardReset_inBuf, hardReset_outBuf, hardReset_hist, Memory.find?_forget, and_self]

/-- Settles O56: the step is `hardReset`, which reads nothing of the phase. -/
theorem resetSignal : Obligations.ResetSignal := by
  unfold Obligations.ResetSignal
  intro s rest hv hq
  exact ⟨_, step_reset hv hq, hardReset_phase _, hardReset_statusWord _, hardReset_cmd _,
    hardReset_inLen _, hardReset_outLen _, hardReset_errPos _, hardReset_cfg _,
    hardReset_hostQueue _, hardReset_find? _⟩

end Sys2Proof.Machine
end
